-- ==== Sys2Proof/Word.lean ====
section
/-! DEFINITION. The word types of the lynxenc CORE (00_scope.md R6, R7). -/

namespace Sys2Proof

/-- A byte, 8 bits (00_scope.md R6). -/
abbrev Byte := BitVec 8

/-- A command word and every 16-bit register (00_scope.md R8, 30_encoding.md R80). -/
abbrev Word := BitVec 16

/-- `BigInt(m)` of 00_scope.md R7: `m` bytes, big-endian by position. Its value `val(X)` is `X.toNat`, and
`big_m(n)` is `BitVec.ofNat (8 * m) n`. -/
abbrev BigInt (m : Nat) := BitVec (8 * m)

/-- An operand of the hardware, `BigInt(M)` with `M` = 51 (00_scope.md R4). -/
abbrev Big := BigInt 51

end Sys2Proof
end

