-- ==== Sys2Proof/Syntax.lean ====
section
/-! DEFINITION. The commands of 30_encoding.md R86, one constructor per row of spec/opcode_table.json. -/

namespace Sys2Proof

/-- The number of a general register, `b0` to `b7` (30_encoding.md R84). -/
abbrev Reg := Fin 8

/-- A command. Register operands are register numbers; the immediate is the 16-bit number of 30_encoding.md R85. -/
inductive Instr where
  /-- `NOP` (44_system_host.md R200). -/
  | nop
  /-- `CLR rd` (40_bigint_primitives.md R100). -/
  | clr (rd : Reg)
  /-- `ONE rd` (40_bigint_primitives.md R101). -/
  | one (rd : Reg)
  /-- `CPY rd, rs1` (40_bigint_primitives.md R102). -/
  | cpy (rd rs1 : Reg)
  /-- `DBL rd` (40_bigint_primitives.md R104). -/
  | dbl (rd : Reg)
  /-- `RED rd` (40_bigint_primitives.md R106). -/
  | red (rd : Reg)
  /-- `LDN rs1` (41_montgomery.md R121). -/
  | ldn (rs1 : Reg)
  /-- `TOMONT rd, rs1` (41_montgomery.md R123). -/
  | tomont (rd rs1 : Reg)
  /-- `MMUL rd, rs1, rs2` (41_montgomery.md R125). -/
  | mmul (rd rs1 rs2 : Reg)
  /-- `MEXP rd, rs1, rs2` (41_montgomery.md R127). -/
  | mexp (rd rs1 rs2 : Reg)
  /-- `FROMMONT rd, rs1` (41_montgomery.md R129). -/
  | frommont (rd rs1 : Reg)
  /-- `MODEXP rd, rs1, rs2` (41_montgomery.md R131). -/
  | modexp (rd rs1 rs2 : Reg)
  /-- `MODMUL rd, rs1, rs2` (42_cuber.md R152). -/
  | modmul (rd rs1 rs2 : Reg)
  /-- `CUBE rd, rs1` (42_cuber.md R154). -/
  | cube (rd rs1 : Reg)
  /-- `SETCUR #imm11` (43_chunk_decoder.md R179). -/
  | setcur (imm : Word)
  /-- `DPASS #imm11` (43_chunk_decoder.md R180). -/
  | dpass (imm : Word)
  /-- `DECRYPT` (43_chunk_decoder.md R181). -/
  | decrypt
  /-- `CLRERR` (44_system_host.md R201). -/
  | clrerr
  deriving DecidableEq, Repr

end Sys2Proof
end

