-- ==== Sys2Proof/WellFormed.lean ====
section
/-! DEFINITION. Which commands an encoding can carry. Every register number is below 8 by its type
(30_encoding.md R84: all eight values are legal); the one thing to check is the range of an immediate (R85). -/

namespace Sys2Proof

/-- An immediate of format I is a number 0 to 2047 (30_encoding.md R85). -/
def immInRange (imm : Word) : Bool := imm.toNat < 2048

/-- The command has an encoding (30_encoding.md R84, R85). -/
def Instr.wellFormed : Instr → Bool
  | .nop => true
  | .clr _ => true
  | .one _ => true
  | .cpy _ _ => true
  | .dbl _ => true
  | .red _ => true
  | .ldn _ => true
  | .tomont _ _ => true
  | .mmul _ _ _ => true
  | .mexp _ _ _ => true
  | .frommont _ _ => true
  | .modexp _ _ _ => true
  | .modmul _ _ _ => true
  | .cube _ _ => true
  | .setcur imm => immInRange imm
  | .dpass imm => immInRange imm
  | .decrypt => true
  | .clrerr => true

end Sys2Proof
end

