-- ==== Sys2Proof/Decode.lean ====
section
/-! DEFINITION. The decoder of 30_encoding.md R81 to R89 and, after it, the encoder. A command word has no byte
order of its own (R80), so both speak of the 16-bit number. -/

namespace Sys2Proof

/-- The formats of 30_encoding.md R81, R82. -/
inductive Format where
  | z | d | s | ds | dss | i
  deriving DecidableEq, Repr

/-- The bits below the opcode that the format fixes at 0: the `mask` of 30_encoding.md R81, R82 without bits 15:11. -/
def Format.mustBeZero : Format → Word
  | .z => 0x07FF#16
  | .d => 0x00FF#16
  | .s => 0x071F#16
  | .ds => 0x001F#16
  | .dss => 0x0003#16
  | .i => 0x0000#16

/-- Why a word is illegal. -/
inductive DecodeError where
  /-- The opcode is reserved (30_encoding.md R88). -/
  | reservedOpcode (op : Nat)
  /-- A bit that the opcode's format fixes at 0 is 1 (30_encoding.md R87). -/
  | mustBeZeroBit (f : Format)
  deriving DecidableEq, Repr

/-- `w[15:11]` (30_encoding.md R81). -/
def opField (w : Word) : Nat := (w.extractLsb' 11 5).toNat

/-- `rd = w[10:8]` (30_encoding.md R84). -/
def rdField (w : Word) : Reg := (w.extractLsb' 8 3).toFin

/-- `rs1 = w[7:5]` (30_encoding.md R84). -/
def rs1Field (w : Word) : Reg := (w.extractLsb' 5 3).toFin

/-- `rs2 = w[4:2]` (30_encoding.md R84). -/
def rs2Field (w : Word) : Reg := (w.extractLsb' 2 3).toFin

/-- `imm = zext_16(w[10:0])` (30_encoding.md R85). -/
def immField (w : Word) : Word := (w.extractLsb' 0 11).setWidth 16

/-- The command `i` of format `f`, unless the word sets a bit that `f` fixes at 0 (30_encoding.md R87). -/
def formatChecked (f : Format) (w : Word) (i : Instr) : Except DecodeError Instr :=
  if w &&& f.mustBeZero = 0#16 then .ok i else .error (.mustBeZeroBit f)

/-- Step 2 of 30_encoding.md R92: the command that a word stands for by the table of R86, or why it is illegal. -/
def decode (w : Word) : Except DecodeError Instr :=
  match opField w with
  | 0x00 => formatChecked .z w .nop
  | 0x01 => formatChecked .d w (.clr (rdField w))
  | 0x02 => formatChecked .d w (.one (rdField w))
  | 0x03 => formatChecked .ds w (.cpy (rdField w) (rs1Field w))
  | 0x04 => formatChecked .d w (.dbl (rdField w))
  | 0x05 => formatChecked .d w (.red (rdField w))
  | 0x06 => formatChecked .s w (.ldn (rs1Field w))
  | 0x08 => formatChecked .ds w (.tomont (rdField w) (rs1Field w))
  | 0x09 => formatChecked .dss w (.mmul (rdField w) (rs1Field w) (rs2Field w))
  | 0x0A => formatChecked .dss w (.mexp (rdField w) (rs1Field w) (rs2Field w))
  | 0x0B => formatChecked .ds w (.frommont (rdField w) (rs1Field w))
  | 0x0C => formatChecked .dss w (.modexp (rdField w) (rs1Field w) (rs2Field w))
  | 0x10 => formatChecked .dss w (.modmul (rdField w) (rs1Field w) (rs2Field w))
  | 0x11 => formatChecked .ds w (.cube (rdField w) (rs1Field w))
  | 0x18 => formatChecked .i w (.setcur (immField w))
  | 0x19 => formatChecked .i w (.dpass (immField w))
  | 0x1A => formatChecked .z w .decrypt
  | 0x1B => formatChecked .z w .clrerr
  | op => .error (.reservedOpcode op)

/-- The word that spec/opcode_table.json writes as `nbits` bits of value `w`; every bit above them is 0. -/
def tableWord (nbits w : Nat) : Word := BitVec.ofNat 16 (w % 2 ^ nbits)

/-- The instruction the decoder reads from a row's word of spec/opcode_table.json. -/
def decodeTableWord (nbits w : Nat) : Option Instr :=
  match decode (tableWord nbits w) with
  | .ok i => some i
  | .error _ => none

/-- The opcode of a command, column `op` of 30_encoding.md R86. -/
def Instr.opcode : Instr → Nat
  | .nop => 0x00
  | .clr _ => 0x01
  | .one _ => 0x02
  | .cpy _ _ => 0x03
  | .dbl _ => 0x04
  | .red _ => 0x05
  | .ldn _ => 0x06
  | .tomont _ _ => 0x08
  | .mmul _ _ _ => 0x09
  | .mexp _ _ _ => 0x0A
  | .frommont _ _ => 0x0B
  | .modexp _ _ _ => 0x0C
  | .modmul _ _ _ => 0x10
  | .cube _ _ => 0x11
  | .setcur _ => 0x18
  | .dpass _ => 0x19
  | .decrypt => 0x1A
  | .clrerr => 0x1B

/-- The format of a command, column `format` of 30_encoding.md R86. -/
def Instr.format : Instr → Format
  | .nop => .z
  | .clr _ => .d
  | .one _ => .d
  | .cpy _ _ => .ds
  | .dbl _ => .d
  | .red _ => .d
  | .ldn _ => .s
  | .tomont _ _ => .ds
  | .mmul _ _ _ => .dss
  | .mexp _ _ _ => .dss
  | .frommont _ _ => .ds
  | .modexp _ _ _ => .dss
  | .modmul _ _ _ => .dss
  | .cube _ _ => .ds
  | .setcur _ => .i
  | .dpass _ => .i
  | .decrypt => .z
  | .clrerr => .z

/-- `w = op·2048 + rd·256 + rs1·32 + rs2·4` (30_encoding.md R86). -/
def regWord (op : Nat) (rd rs1 rs2 : Reg) : Word :=
  BitVec.ofNat 16 (op * 2048 + rd.val * 256 + rs1.val * 32 + rs2.val * 4)

/-- `w = op·2048 + imm11` (30_encoding.md R86), from the low 11 bits of the immediate. -/
def immWord (op : Nat) (imm : Word) : Word := BitVec.ofNat 16 (op * 2048 + imm.toNat % 2048)

/-- The word of a command (30_encoding.md R86); a field that the format does not use is 0 (R81). -/
def encode : Instr → Word
  | .nop => regWord 0x00 0 0 0
  | .clr rd => regWord 0x01 rd 0 0
  | .one rd => regWord 0x02 rd 0 0
  | .cpy rd rs1 => regWord 0x03 rd rs1 0
  | .dbl rd => regWord 0x04 rd 0 0
  | .red rd => regWord 0x05 rd 0 0
  | .ldn rs1 => regWord 0x06 0 rs1 0
  | .tomont rd rs1 => regWord 0x08 rd rs1 0
  | .mmul rd rs1 rs2 => regWord 0x09 rd rs1 rs2
  | .mexp rd rs1 rs2 => regWord 0x0A rd rs1 rs2
  | .frommont rd rs1 => regWord 0x0B rd rs1 0
  | .modexp rd rs1 rs2 => regWord 0x0C rd rs1 rs2
  | .modmul rd rs1 rs2 => regWord 0x10 rd rs1 rs2
  | .cube rd rs1 => regWord 0x11 rd rs1 0
  | .setcur imm => immWord 0x18 imm
  | .dpass imm => immWord 0x19 imm
  | .decrypt => regWord 0x1A 0 0 0
  | .clrerr => regWord 0x1B 0 0 0

end Sys2Proof
end

