-- ==== Sys2Proof/Machine/BigInt.lean ====
section
/-! DEFINITION. The functions on `BigInt(m)` that the commands are made of: 00_scope.md R7, 40_bigint_primitives.md,
41_montgomery.md and 42_cuber.md, for a general length `m` as the spec writes them. Every result is the exact
integer result modulo `256^m` (40_bigint_primitives.md R107). The functions made of loops are irreducible, so that
Lean does not run a loop of 408 rounds when it compares two terms; `unfold` and `simp` open them by name. -/

namespace Sys2Proof.Machine

/-- `X[k]`, the byte at position `k`; position 0 is the most significant (00_scope.md R7). -/
def byteAt {m : Nat} (X : BigInt m) (k : Nat) : Byte := X.extractLsb' (8 * (m - 1 - k)) 8

/-- `X[k] <- v`: `X` with the byte at position `k` replaced (00_scope.md R7). -/
def setByteAt {m : Nat} (X : BigInt m) (k : Nat) (v : Byte) : BigInt m :=
  let sh := 8 * (m - 1 - k)
  (X &&& ~~~((0xFF#8).setWidth (8 * m) <<< sh)) ||| (v.setWidth (8 * m) <<< sh)

/-- `msbit(X, t)`, bit `t` counted from the most significant (00_scope.md R7). -/
def msbit {m : Nat} (X : BigInt m) (t : Nat) : Bool := (byteAt X (t / 8)).getLsbD (7 - t % 8)

/-- `hi24(X)`, the number of the top three bytes (00_scope.md R7). -/
def hi24 {m : Nat} (X : BigInt m) : Nat :=
  (byteAt X 0).toNat * 65536 + (byteAt X 1).toNat * 256 + (byteAt X 2).toNat

/-- `k X`, with the number `X` worked out before `k` runs, so that a long loop can be evaluated step by step. -/
def withValue {m : Nat} {α : Type} (X : BigInt m) (k : BigInt m → α) : α :=
  match X.toNat with
  | 0 => k (BitVec.ofNat (8 * m) 0)
  | n + 1 => k (BitVec.ofNat (8 * m) (n + 1))

/-- The loop `for t in ts: acc <- f(acc, t)` of the pseudocode (00_scope.md R8). -/
def loop {m : Nat} (f : BigInt m → Nat → BigInt m) : List Nat → BigInt m → BigInt m
  | [], acc => acc
  | t :: ts, acc => withValue (f acc t) (loop f ts)

/-- `clear(m)` (40_bigint_primitives.md R100). -/
def clearBig (m : Nat) : BigInt m := BitVec.ofNat (8 * m) 0

/-- `one(m)` (40_bigint_primitives.md R101). -/
def oneBig (m : Nat) : BigInt m := BitVec.ofNat (8 * m) 1

/-- `double(B)` and the carry that leaves position 0 (40_bigint_primitives.md R103). -/
def double {m : Nat} (B : BigInt m) : BigInt m × Bool :=
  (BitVec.ofNat (8 * m) (2 * B.toNat), decide (256 ^ m ≤ 2 * B.toNat))

/-- `reduce_once(B, N)` and whether it subtracted (40_bigint_primitives.md R105). -/
def reduceOnce {m : Nat} (B N : BigInt m) : BigInt m × Bool :=
  if N.toNat ≤ B.toNat then (BitVec.ofNat (8 * m) (B.toNat - N.toNat), true) else (B, false)

/-- `add_m(A, X)` and the carry that leaves position 0 (42_cuber.md R150). -/
def addM {m : Nat} (A X : BigInt m) : BigInt m × Bool :=
  (BitVec.ofNat (8 * m) (A.toNat + X.toNat), decide (256 ^ m ≤ A.toNat + X.toNat))

/-- One iteration of the coefficient loop: bit `i` of `v` is set when bit `i` of `n0·v + 1` is
(41_montgomery.md R120). -/
def coefficientStep (n0 v : Byte) (i : Nat) : Byte :=
  if (n0 * v + 1#8).getLsbD i then v + BitVec.ofNat 8 (2 ^ i) else v

/-- `derive_coefficient(N)` (41_montgomery.md R120). -/
def deriveCoefficient {m : Nat} (N : BigInt m) : Byte :=
  (List.range 8).foldl (coefficientStep (byteAt N (m - 1))) 0#8

/-- One double-and-reduce round of domain entry, both flags discarded (41_montgomery.md R122). -/
def doubleReduce {m : Nat} (N A : BigInt m) : BigInt m := (reduceOnce (double A).1 N).1

/-- `to_montgomery(B, N)`: `8m` rounds (41_montgomery.md R122). -/
@[irreducible] def toMontgomery {m : Nat} (B N : BigInt m) : BigInt m :=
  loop (fun A _ => doubleReduce N A) (List.range (8 * m)) B

/-- The reduction digit `e` of round `i`, from the limb of weight `256^i` (41_montgomery.md R124 step 2). -/
def montDigit {m : Nat} (v : Byte) (T : BigInt (2 * m)) (i : Nat) : Byte := v * byteAt T (2 * m - 1 - i)

/-- Reduction round `i`; a carry out of position 0 of `T` is discarded (41_montgomery.md R124 step 2). -/
def montRound {m : Nat} (N : BigInt m) (v : Byte) (T : BigInt (2 * m)) (i : Nat) : BigInt (2 * m) :=
  BitVec.ofNat (8 * (2 * m)) (T.toNat + (montDigit v T i).toNat * N.toNat * 256 ^ i)

/-- `T` after the product and all `m` reduction rounds (41_montgomery.md R124 steps 1, 2). -/
def montBuffer {m : Nat} (B C N : BigInt m) (v : Byte) : BigInt (2 * m) :=
  loop (montRound N v) (List.range m) (BitVec.ofNat (8 * (2 * m)) (B.toNat * C.toNat))

/-- `mont_multiply(B, C, N, v)`: the high half of the buffer, with no final subtraction (41_montgomery.md R124). -/
@[irreducible] def montMultiply {m : Nat} (B C N : BigInt m) (v : Byte) : BigInt m :=
  (montBuffer B C N v).extractLsb' (8 * m) (8 * m)

/-- One exponent bit: square, and multiply by the base when the bit is 1 (41_montgomery.md R126). -/
def exponentStep {m : Nat} (B N : BigInt m) (v : Byte) (acc : BigInt m) (bit : Bool) : BigInt m :=
  let tmp := montMultiply acc acc N v
  if bit then montMultiply tmp B N v else tmp

/-- `mont_exponentiate(B, d, N, v)`: all `8m` bits of `d`, most significant first (41_montgomery.md R126). -/
@[irreducible] def montExponentiate {m : Nat} (B d N : BigInt m) (v : Byte) : BigInt m :=
  loop (fun acc t => exponentStep B N v acc (msbit d t)) (List.range (8 * m)) (toMontgomery (oneBig m) N)

/-- `from_montgomery(A, N, v)` (41_montgomery.md R128). -/
@[irreducible] def fromMontgomery {m : Nat} (A N : BigInt m) (v : Byte) : BigInt m :=
  (reduceOnce (montMultiply A (oneBig m) N v) N).1

/-- `mod_exp` with the coefficient given: its last three lines (41_montgomery.md R130, R131). -/
@[irreducible] def modExpWith {m : Nat} (v : Byte) (B d N : BigInt m) : BigInt m :=
  fromMontgomery (montExponentiate (toMontgomery B N) d N v) N v

/-- `mod_exp(B, d, N)` (41_montgomery.md R130). -/
@[irreducible] def modExp {m : Nat} (B d N : BigInt m) : BigInt m := modExpWith (deriveCoefficient N) B d N

/-- One multiplier bit: double, add the multiplicand when the bit is 1, `reduce_once` twice; the carries and the
flags are discarded (42_cuber.md R151). -/
def modmulStep {m : Nat} (X N acc : BigInt m) (bit : Bool) : BigInt m :=
  let doubled := (double acc).1
  let summed := if bit then (addM doubled X).1 else doubled
  (reduceOnce (reduceOnce summed N).1 N).1

/-- The accumulator of `modmul` before bit `t` of the multiplier, from 0 on (42_cuber.md R151, R155). -/
@[irreducible] def modmulAcc {m : Nat} (X Y N : BigInt m) (t : Nat) : BigInt m :=
  loop (fun acc t => modmulStep X N acc (msbit Y t)) (List.range t) (clearBig m)

/-- `modmul(X, Y, N)`, multiplicand `X`, multiplier `Y`: all `8m` bits (42_cuber.md R151). -/
@[irreducible] def modmul {m : Nat} (X Y N : BigInt m) : BigInt m := modmulAcc X Y N (8 * m)

/-- `cube(E, N)`: the square is the multiplicand of the second product (42_cuber.md R153). -/
@[irreducible] def cube {m : Nat} (E N : BigInt m) : BigInt m := modmul (modmul E E N) E N

/-- The correctness domain of the cuber (42_cuber.md R155): `3·val(N) ≤ 256^m` and the multiplicand below `N`. Outside
it `modmul` and `cube` have the value that their wrapping rules give. -/
def cuberDomain {m : Nat} (X N : BigInt m) : Prop := 3 * N.toNat ≤ 256 ^ m ∧ X.toNat < N.toNat

end Sys2Proof.Machine
end

