-- ==== Sys2Proof/Config.lean ====
section
/-! DEFINITION. The fixed parameters of 00_scope.md R4, and the free values: constants without a body, standing
for contents that the spec leaves unspecified (10_state.md R31, R35; 93_implementation_defined.md U1, U2). -/

namespace Sys2Proof.Config

/-- `M`, the operand length in bytes (00_scope.md R4). -/
abbrev operandBytes : Nat := 51

/-- `CT_LEN`, the size of the ciphertext memory (00_scope.md R4). -/
abbrev ctLen : Nat := 410

/-- The document's value of the OPEN parameter `PT_LEN` (00_scope.md R4); the parameter itself is the field
`State.ptLen`. -/
abbrev defaultPtLen : Nat := 410

/-- `PAD`, the padding marker (00_scope.md R4). -/
abbrev pad : Byte := 0x15#8

/-- `OFF1`, the output offset of the first pass (00_scope.md R4). -/
abbrev off1 : Word := 0#16

/-- `OFF2`, the output offset of the second pass (00_scope.md R4). -/
abbrev off2 : Word := 256#16

/-- What a byte of CT or PT that the memory's list does not name reads as. DESIGN CHOICE (unsafe), entry 3: the
spec gives the memories no reset contents (10_state.md R35). -/
abbrev unlistedByte : Byte := 0#8

/-- Free value number `k`: what the scratch buffer `T` holds after a command (10_state.md R31). Entry 4. -/
opaque scratchT : Nat → BigInt 102

/-- Free value number `k`: what the scratch buffer `S0` to `S3` of the given number holds after a command
(10_state.md R31). Entry 4. -/
opaque scratchS : Nat → Fin 4 → Big

/-- Free value number `k`: a general register after a host reset (10_state.md R35). Entry 6. -/
opaque resetReg : Nat → Fin 8 → Big

/-- Free value number `k`: the bytes of `N` after a host reset (10_state.md R35). Entry 6. -/
opaque resetN : Nat → Big

/-- Free value number `k`: `V` after a host reset (10_state.md R35). Entry 6. -/
opaque resetV : Nat → Byte

/-- Free value number `k`: the pass index after a host reset (no value in 10_state.md R35). Entry 6. -/
opaque resetPass : Nat → Fin 2

/-- Free value number `k`: a byte of CT after a host reset (10_state.md R35). Entry 6. -/
opaque resetCt : Nat → Nat → Byte

/-- Free value number `k`: a byte of PT after a host reset (10_state.md R35). Entry 6. -/
opaque resetPt : Nat → Nat → Byte

end Sys2Proof.Config
end

