-- ==== Sys2Proof/Machine/State.lean ====
section
/-! DEFINITION. The state of the lynxenc CORE (10_state.md), its stops, and the state after reset. -/

namespace Sys2Proof.Machine

/-- The address spaces the host can name (20_memory.md R50). -/
inductive Space where
  | reg | csr | ct | pt
  deriving DecidableEq, Repr

/-- What the host can do (44_system_host.md R202 to R204; 70_reset_and_hazards.md R250). -/
inductive HostOp where
  /-- `HWR(space, a, v)` (44_system_host.md R202). -/
  | hwr (space : Space) (a : Nat) (v : Byte)
  /-- `HRD(space, a)` (44_system_host.md R203). -/
  | hrd (space : Space) (a : Nat)
  /-- `CMD(w)` (44_system_host.md R204). -/
  | cmd (w : Word)
  /-- Reset (70_reset_and_hazards.md R250). -/
  | reset
  deriving DecidableEq, Repr

/-- The fault causes of 60_exceptions.md R221; codes 6 to 15 are never recorded, so they have no constructor. -/
inductive Cause where
  | none | illegal | aliased | nomod | modinv | bounds
  deriving DecidableEq, Repr

/-- The states of the decoder FSM, `DST` (10_state.md R32, 43_chunk_decoder.md R182). -/
inductive DecoderState where
  | dIdle | dHdr | dLoad | dCheck | dSqr | dMul | dPad | dFold | dNext | dSum
  deriving DecidableEq, Repr

/-- The scratch buffers `T` and `S0` to `S3` (10_state.md R31). -/
structure Scratch where
  t : BigInt 102
  s0 : Big
  s1 : Big
  s2 : Big
  s3 : Big
  deriving DecidableEq, Repr

/-- A byte memory: the bytes that differ from what an unlisted address reads as, by rising address. -/
abbrev Memory := List Host.Cell

/-- Where the MODEL stops though the hardware has no such stop. Neither ever happens: 20_memory.md R61 says the
engine's accesses stay inside CT and PT, and an obligation states it of every step. -/
inductive Fault where
  /-- Raised by `ctRead` at an address at or beyond `CT_LEN`. Safe: no step reaches it. -/
  | ctOutside (a : Nat)
  /-- Raised by `ptWrite` at an address at or beyond `PT_LEN`. Safe: no step reaches it. -/
  | ptOutside (a : Nat)
  deriving DecidableEq, Repr

/-- What the model gives no meaning. -/
inductive Refusal where
  /-- Raised by an arm of `exec` without a meaning. Safe. No arm of this model raises it. -/
  | notModelled (mnemonic : String)
  /-- Raised by `hostStep` for an `HWR` outside the interface (20_memory.md R65). Safe: the spec gives it no move. -/
  | hostWriteOutside (space : Space) (a : Nat)
  /-- Raised by `hostStep` for an `HRD` outside the interface (20_memory.md R65). Safe: the spec gives it no move. -/
  | hostReadOutside (space : Space) (a : Nat)
  deriving DecidableEq, Repr

/-- The machine. Each field's rule and reset value stand in INVENTORY.md. -/
structure State where
  /-- `b0` to `b7` (10_state.md R20). -/
  regs : Vector Big 8
  /-- `N` (10_state.md R22). -/
  n : Big
  /-- `V` (10_state.md R23). -/
  v : Byte
  /-- `MODV` (10_state.md R24). -/
  modv : Bool
  /-- `RF` (10_state.md R25). -/
  rf : Bool
  /-- `ESTRUCT` (10_state.md R26). -/
  estruct : Bool
  /-- `EPAD` (10_state.md R26). -/
  epad : Bool
  /-- `ESUM` (10_state.md R26). -/
  esum : Bool
  /-- `FAULT` (10_state.md R27). -/
  fault : Bool
  /-- `CAUSE` (10_state.md R27). -/
  cause : Cause
  /-- `FCMD` (10_state.md R27). -/
  fcmd : Word
  /-- `CNT` (10_state.md R28). -/
  cnt : Byte
  /-- `ACC` (10_state.md R28). -/
  acc : Byte
  /-- `CUR` (10_state.md R28, R30). -/
  cur : Word
  /-- `OUT` (10_state.md R28). -/
  out : Word
  /-- `T`, `S0` to `S3` (10_state.md R31). -/
  scratch : Scratch
  /-- `DST` (10_state.md R32). -/
  dst : DecoderState
  /-- The pass index of the two-pass sequence (10_state.md R32). -/
  pass : Fin 2
  /-- The ciphertext memory CT (10_state.md R33). -/
  ct : Memory
  /-- The plaintext memory PT (10_state.md R34). -/
  pt : Memory
  /-- The parameter `PT_LEN` (00_scope.md R4); no step writes it. -/
  ptLen : Nat
  /-- The model's own: the host operations still to come, oldest first. -/
  port : List HostOp
  /-- The model's own: the values that `HRD` returned, newest first. -/
  hostLog : List Word
  /-- The model's own: the number of the next free value. -/
  free : Nat
  deriving DecidableEq, Repr

/-- A value for everything that reset leaves unspecified (10_state.md R35). -/
structure ResetContents where
  regs : Vector Big 8
  n : Big
  v : Byte
  scratch : Scratch
  pass : Fin 2
  ct : Memory
  pt : Memory
  deriving DecidableEq, Repr

/-- The state after reset (10_state.md R35, 70_reset_and_hazards.md R251) with the given unspecified contents, the
given `PT_LEN` and the model's own fields. -/
def State.resetWith (c : ResetContents) (ptLen : Nat) (port : List HostOp) (hostLog : List Word) (free : Nat) :
    State where
  regs := c.regs
  n := c.n
  v := c.v
  modv := false
  rf := false
  estruct := false
  epad := false
  esum := false
  fault := false
  cause := .none
  fcmd := 0#16
  cnt := 0#8
  acc := 0#8
  cur := 0#16
  out := 0#16
  scratch := c.scratch
  dst := .dIdle
  pass := c.pass
  ct := c.ct
  pt := c.pt
  ptLen := ptLen
  port := port
  hostLog := hostLog
  free := free

/-- Zero for everything that reset leaves unspecified. DESIGN CHOICE (unsafe), entries 2 and 3: the spec gives no
value, and the machine after reset must be one state. -/
def ResetContents.zero : ResetContents where
  regs := Vector.replicate 8 0#408
  n := 0#408
  v := 0#8
  scratch := { t := 0#816, s0 := 0#408, s1 := 0#408, s2 := 0#408, s3 := 0#408 }
  pass := 0
  ct := []
  pt := []

/-- The machine right after reset (10_state.md R35), no host operation pending. What R35 leaves unspecified is zero
here: DESIGN CHOICE (unsafe), entries 2 and 3. -/
def State.reset : State := State.resetWith .zero Config.defaultPtLen [] [] 0

end Sys2Proof.Machine
end

