-- ==== Sys2Proof/Machine/Ops.lean ====
section
/-! DEFINITION. The named operations over memory and registers, taking a fault (60_exceptions.md R225), and reset. -/

namespace Sys2Proof.Machine

/-- The outcome of a command or of a step. -/
abbrev Result := Host.Outcome State Fault Refusal

/-! ### Byte memories -/

/-- The canonical form: addresses strictly rising, and no entry equal to what an unlisted address reads as. -/
def Memory.wf : Memory → Bool
  | [] => true
  | (a, v) :: rest => v != Config.unlistedByte && rest.all (fun c => decide (a < c.1)) && Memory.wf rest

/-- Every listed address is below `size`. -/
def Memory.below (size : Nat) (mem : Memory) : Bool := mem.all (fun c => decide (c.1 < size))

/-- The byte at an address. -/
def memRead : Memory → Nat → Byte
  | [], _ => Config.unlistedByte
  | (b, v) :: rest, a => if b = a then v else memRead rest a

/-- Store a byte at an address, keeping the canonical form. -/
def memWrite : Memory → Nat → Byte → Memory
  | [], a, v => if v = Config.unlistedByte then [] else [(a, v)]
  | (b, w) :: rest, a, v =>
    if a < b then (if v = Config.unlistedByte then (b, w) :: rest else (a, v) :: (b, w) :: rest)
    else if a = b then (if v = Config.unlistedByte then rest else (a, v) :: rest)
    else (b, w) :: memWrite rest a v

/-- The memory of `size` bytes whose byte `a` is `f a`. -/
def memOf (size : Nat) (f : Nat → Byte) : Memory :=
  (List.range size).foldl (fun mem a => memWrite mem a (f a)) []

/-! ### Registers -/

/-- `b[i]`, a read of a general register (00_scope.md R8). -/
def getReg (s : State) (i : Reg) : Big := s.regs[i]

/-- `b[i] <- X`, a write of all 51 bytes (00_scope.md R8, 10_state.md R20). -/
def setReg (s : State) (i : Reg) (X : Big) : State := { s with regs := s.regs.set i X }

/-- Load the modulus register, its coefficient and `MODV` (41_montgomery.md R121). -/
def setModulus (s : State) (X : Big) (v : Byte) : State := { s with n := X, v := v, modv := true }

/-- `CUR <- a` (43_chunk_decoder.md R179). -/
def setCur (s : State) (a : Word) : State := { s with cur := a }

/-! ### Completing, and taking a fault -/

/-- The scratch buffers as free value number `k` leaves them (10_state.md R31). -/
def freeScratch (k : Nat) : Scratch where
  t := Config.scratchT k
  s0 := Config.scratchS k 0
  s1 := Config.scratchS k 1
  s2 := Config.scratchS k 2
  s3 := Config.scratchS k 3

/-- The scratch contents become unspecified: a free value (10_state.md R31, 93_implementation_defined.md U2). -/
def clobberScratch (s : State) : State := { s with scratch := freeScratch s.free, free := s.free + 1 }

/-- The command completes (00_scope.md R9), its scratch left unspecified. -/
def complete (s : State) : Result := .next (clobberScratch s)

/-- `raise Fault(c)` for the command word `w`: the fault record and nothing else (60_exceptions.md R225). There is no
return from it but reset (R227). -/
def raiseFault (c : Cause) (w : Word) (s : State) : State := { s with fault := true, cause := c, fcmd := w }

/-- The command `i` faults with cause `c`; its word is the one `i` has (30_encoding.md R89). -/
def raise (c : Cause) (i : Instr) (s : State) : Result := .next (raiseFault c (encode i) s)

/-! ### Engine accesses to CT and PT -/

/-- `CtRead(a)`, defined for `a < CT_LEN` only (00_scope.md R8). -/
def ctRead (s : State) (a : Nat) : Except Fault Byte :=
  if a < Config.ctLen then .ok (memRead s.ct a) else .error (.ctOutside a)

/-- Store one byte of PT. -/
def setPt (s : State) (a : Nat) (v : Byte) : State := { s with pt := memWrite s.pt a v }

/-- Store one byte of CT. -/
def setCt (s : State) (a : Nat) (v : Byte) : State := { s with ct := memWrite s.ct a v }

/-- `PtWrite(a, v)`, defined for `a < PT_LEN` only (00_scope.md R8). -/
def ptWrite (s : State) (a : Nat) (v : Byte) : Except Fault State :=
  if a < s.ptLen then .ok (setPt s a v) else .error (.ptOutside a)

/-! ### Reset -/

/-- The unspecified contents after a host reset, as free value number `k` (10_state.md R35). -/
def freeResetContents (k ptLen : Nat) : ResetContents where
  regs := Vector.ofFn (Config.resetReg k)
  n := Config.resetN k
  v := Config.resetV k
  scratch := freeScratch k
  pass := Config.resetPass k
  ct := memOf Config.ctLen (Config.resetCt k)
  pt := memOf ptLen (Config.resetPt k)

/-- A reset between two host operations (70_reset_and_hazards.md R250, R251): the table of 10_state.md R35, with
free values for what it leaves unspecified. `PT_LEN` is a parameter and stays. -/
def hostReset (s : State) : State :=
  State.resetWith (freeResetContents s.free s.ptLen) s.ptLen s.port s.hostLog (s.free + 1)

end Sys2Proof.Machine
end

