-- ==== Sys2Proof/Machine/Operands.lean ====
section
/-! DEFINITION. The operand forms of the commands and the checks of 30_encoding.md R92 that come before a command's
own rule. Step 1 (a faulted engine ignores the command) and step 2 (`ILLEGAL`) concern the word and stand in
Machine/Host.lean. -/

namespace Sys2Proof.Machine

/-- `rd` is the source `rs1` (30_encoding.md R92, aliasing table). -/
def aliases1 (rd rs1 : Reg) : Bool := rd == rs1

/-- `rd` is one of the sources `rs1`, `rs2` (30_encoding.md R92, aliasing table). -/
def aliases2 (rd rs1 rs2 : Reg) : Bool := rd == rs1 || rd == rs2

/-- Step 3 of 30_encoding.md R92: `ALIAS` when the destination is a source, else go on. -/
def aliasChecked (i : Instr) (isAliased : Bool) (s : State) (body : State → Result) : Result :=
  if isAliased then raise .aliased i s else body s

/-- Step 4 of 30_encoding.md R92: `NOMOD` when no modulus is loaded, else go on. -/
def modulusChecked (i : Instr) (s : State) (body : State → Result) : Result :=
  if s.modv then body s else raise .nomod i s

/-- Format D, `rd` written from nothing (30_encoding.md R81). -/
def writeConstant (rd : Reg) (X : Big) (s : State) : Result := complete (setReg s rd X)

/-- Formats D and DS without a check: `b[rd]` becomes a function of `b[rs1]` (30_encoding.md R81, R84). -/
def unaryInPlace (rd rs1 : Reg) (f : Big → Big) (s : State) : Result :=
  complete (setReg s rd (f (getReg s rs1)))

/-- Format DS of a command that is not in-place-safe and needs the modulus: `b[rd]` becomes a function of `b[rs1]`,
`N` and `V` (30_encoding.md R92). -/
def unaryModular (i : Instr) (rd rs1 : Reg) (f : Big → Big → Byte → Big) (s : State) : Result :=
  aliasChecked i (aliases1 rd rs1) s fun s =>
    modulusChecked i s fun s =>
      complete (setReg s rd (f (getReg s rs1) s.n s.v))

/-- Format DSS: `b[rd]` becomes a function of `b[rs1]`, `b[rs2]`, `N` and `V` (30_encoding.md R92). -/
def binaryModular (i : Instr) (rd rs1 rs2 : Reg) (f : Big → Big → Big → Byte → Big) (s : State) : Result :=
  aliasChecked i (aliases2 rd rs1 rs2) s fun s =>
    modulusChecked i s fun s =>
      complete (setReg s rd (f (getReg s rs1) (getReg s rs2) s.n s.v))

end Sys2Proof.Machine
end

