-- ==== Sys2Proof/Machine/Cuber.lean ====
section
/-! DEFINITION. The Lynx fixed-exponent cuber: MODMUL, CUBE (42_cuber.md). -/

namespace Sys2Proof.Machine

/-- `MODMUL rd, rs1, rs2`: multiplicand `b[rs1]`, multiplier `b[rs2]`; `V` is not used (42_cuber.md R152). -/
def execModmul (rd rs1 rs2 : Reg) (s : State) : Result :=
  binaryModular (.modmul rd rs1 rs2) rd rs1 rs2 (fun X Y N _ => modmul X Y N) s

/-- `CUBE rd, rs1` (42_cuber.md R154). -/
def execCube (rd rs1 : Reg) (s : State) : Result :=
  unaryModular (.cube rd rs1) rd rs1 (fun E N _ => cube E N) s

end Sys2Proof.Machine
end

