-- ==== Sys2Proof/Machine/Flags.lean ====
section
/-! DEFINITION. The status flags (10_state.md R24 to R27) and the checks that set them. -/

namespace Sys2Proof.Machine

/-- The 4-bit code of a cause (60_exceptions.md R221). -/
def Cause.code : Cause → BitVec 4
  | .none => 0#4
  | .illegal => 1#4
  | .aliased => 2#4
  | .nomod => 3#4
  | .modinv => 4#4
  | .bounds => 5#4

/-- `DFAIL`, the decode-failure flag, computed on read (10_state.md R24). -/
def dfail (s : State) : Bool := s.estruct || s.epad || s.esum

/-- `STATUS`, assembled from the flags; bits 7 and 15:12 read 0 (10_state.md R24). -/
def statusWord (s : State) : Word :=
  0#4 ++ s.cause.code ++ 0#1 ++ BitVec.ofBool s.fault ++ BitVec.ofBool (dfail s) ++ BitVec.ofBool s.esum ++
    BitVec.ofBool s.epad ++ BitVec.ofBool s.estruct ++ BitVec.ofBool s.rf ++ BitVec.ofBool s.modv

/-- `RF <- f` (10_state.md R25). -/
def setRf (s : State) (f : Bool) : State := { s with rf := f }

/-- The three recorded decode errors cleared together (44_system_host.md R201). -/
def clearErrors (s : State) : State := { s with estruct := false, epad := false, esum := false }

/-- The structural condition on the 24-bit heads of a chunk and of the modulus (43_chunk_decoder.md R172). -/
def structViolation (E N : Big) : Bool := hi24 N < hi24 E || hi24 E == 0

/-- The padding condition on a cubed chunk (43_chunk_decoder.md R173). -/
def padViolation (P : Big) : Bool := byteAt P 0 != Config.pad

/-- `ESTRUCT` is set when the condition holds and keeps its value otherwise (43_chunk_decoder.md R172). -/
def recordStruct (s : State) (violated : Bool) : State := { s with estruct := s.estruct || violated }

/-- `EPAD` is set when the condition holds and keeps its value otherwise (43_chunk_decoder.md R173). -/
def recordPad (s : State) (violated : Bool) : State := { s with epad := s.epad || violated }

/-- `ESUM` is set when the condition holds and keeps its value otherwise (43_chunk_decoder.md R176). -/
def recordSum (s : State) (violated : Bool) : State := { s with esum := s.esum || violated }

end Sys2Proof.Machine
end

