-- ==== Sys2Proof/Machine/Decoder.lean ====
section
/-! DEFINITION. The chunk decoder: the steps of a pass, SETCUR, DPASS, DECRYPT (43_chunk_decoder.md). -/

namespace Sys2Proof.Machine

/-- The chunk count `256 - c0` of a counter byte (43_chunk_decoder.md R175). -/
def chunkCount (c0 : Byte) : Nat := 256 - c0.toNat

/-- `pass_bounds_ok(off)`: the counter byte, every chunk byte and every output byte exist (43_chunk_decoder.md R177). -/
def passBoundsOk (off : Word) (s : State) : Bool :=
  match ctRead s s.cur.toNat with
  | .error _ => false
  | .ok c0 =>
    decide (s.cur.toNat + 1 + 51 * chunkCount c0 ≤ Config.ctLen) &&
      decide (off.toNat + 50 * chunkCount c0 ≤ s.ptLen)

/-- The bytes of a chunk, byte-reversed: stream byte `k` to position `50 - k` (43_chunk_decoder.md R171). -/
def loadBytes (s : State) : Except Fault Big :=
  (List.range 51).foldlM
    (fun E k => do
      let b ← ctRead s (s.cur.toNat + k)
      return setByteAt E (50 - k) b)
    (clearBig 51)

/-- `load_chunk()`: the chunk, and `CUR` advanced by 51 (43_chunk_decoder.md R171). -/
def loadChunk (s : State) : Except Fault (Big × State) := do
  let E ← loadBytes s
  return (E, setCur s (s.cur + 51#16))

/-- `check_struct(E)` (43_chunk_decoder.md R172). -/
def checkStruct (E : Big) (s : State) : State := recordStruct s (structViolation E s.n)

/-- The padding check of `cube_and_check` (43_chunk_decoder.md R173). -/
def checkPad (P : Big) (s : State) : State := recordPad s (padViolation P)

/-- `check_sum()` (43_chunk_decoder.md R176). -/
def checkSum (s : State) : State := recordSum s (s.acc != 0#8)

/-- The payload of a cube result in the order of the fold: positions 50 down to 1 (43_chunk_decoder.md R174). -/
def payload (P : Big) : List Byte := (List.range 50).map fun j => byteAt P (50 - j)

/-- The running accumulator and the output cursor after one payload byte. -/
def setAccOut (s : State) (acc : Byte) (out : Word) : State := { s with acc := acc, out := out }

/-- One payload byte folded into the accumulator and written (43_chunk_decoder.md R174). -/
def foldByte (s : State) (p : Byte) : Except Fault State := do
  let acc := s.acc + p
  let s' ← ptWrite s s.out.toNat acc
  return setAccOut s' acc (s.out + 1#16)

/-- `fold(P)`: 50 bytes (43_chunk_decoder.md R174). -/
def foldChunk (P : Big) (s : State) : Except Fault State := (payload P).foldlM foldByte s

/-- `CNT <- (CNT + 1) mod 256` (43_chunk_decoder.md R175). -/
def advanceCounter (s : State) : State := { s with cnt := s.cnt + 1#8 }

/-- The body of the loop of a pass: one chunk (43_chunk_decoder.md R178, steps 2a to 2e). -/
def decodeChunk (s : State) : Except Fault State := do
  let (E, s1) ← loadChunk s
  let P := cube E s.n
  let s2 ← foldChunk P (checkPad P (checkStruct E s1))
  return advanceCounter s2

/-- `repeat … until CNT = 0` (43_chunk_decoder.md R175), at most `k` times round; 256 is always enough. -/
def decodeChunks : Nat → State → Except Fault State
  | 0, s => .ok s
  | k + 1, s => do
    let s' ← decodeChunk s
    if s'.cnt = 0#8 then return s' else decodeChunks k s'

/-- The assignments before the loop (43_chunk_decoder.md R178, step 1). -/
def startPass (off : Word) (c0 : Byte) (s : State) : State :=
  { s with out := off, acc := 0#8, cnt := c0, cur := s.cur + 1#16 }

/-- `decode_pass(off)` after its bounds check (43_chunk_decoder.md R178). -/
def runPass (off : Word) (s : State) : Except Fault State := do
  let c0 ← ctRead s s.cur.toNat
  let s' ← decodeChunks 256 (startPass off c0 s)
  return checkSum s'

/-- `decode_pass(off)` inside the command `i`, and then `body` (43_chunk_decoder.md R178). The pass has used the
scratch buffers, whose contents are then unspecified (10_state.md R31). -/
def decodePass (i : Instr) (off : Word) (s : State) (body : State → Result) : Result :=
  if passBoundsOk off s then
    match runPass off s with
    | .ok s' => body (clobberScratch s')
    | .error r => .fault r
  else raise .bounds i s

/-- `SETCUR imm11` (43_chunk_decoder.md R179). -/
def execSetcur (imm : Word) (s : State) : Result := complete (setCur s imm)

/-- `DPASS imm11` (43_chunk_decoder.md R180). -/
def execDpass (imm : Word) (s : State) : Result :=
  modulusChecked (.dpass imm) s fun s => decodePass (.dpass imm) imm s .next

/-- The pass index (10_state.md R32). -/
def setPass (s : State) (p : Fin 2) : State := { s with pass := p }

/-- What `DECRYPT` does before its first pass: the error flags and `CUR` cleared (43_chunk_decoder.md R181), pass
index 0 (R182). -/
def startDecrypt (s : State) : State := setPass (setCur (clearErrors s) 0#16) 0

/-- `DECRYPT`: two passes, the second from where the first stopped (43_chunk_decoder.md R181). -/
def execDecrypt (s : State) : Result :=
  modulusChecked .decrypt s fun s =>
    decodePass .decrypt Config.off1 (startDecrypt s) fun s1 =>
      decodePass .decrypt Config.off2 (setPass s1 1) .next

end Sys2Proof.Machine
end

