-- ==== Sys2Proof/Machine/Montgomery.lean ====
section
/-! DEFINITION. The Montgomery engine: LDN, TOMONT, MMUL, MEXP, FROMMONT, MODEXP (41_montgomery.md). -/

namespace Sys2Proof.Machine

/-- The two checks of `LDN`: the top bit of position 0 is set, or the value is even (41_montgomery.md R121). -/
def modulusInvalid (X : Big) : Bool := decide (0x80#8 ≤ byteAt X 0) || !(byteAt X 50).getLsbD 0

/-- `LDN rs1` (41_montgomery.md R121). -/
def execLdn (rs1 : Reg) (s : State) : Result :=
  let X := getReg s rs1
  if modulusInvalid X then raise .modinv (.ldn rs1) s
  else complete (setModulus s X (deriveCoefficient X))

/-- `TOMONT rd, rs1` (41_montgomery.md R123). -/
def execTomont (rd rs1 : Reg) (s : State) : Result :=
  unaryModular (.tomont rd rs1) rd rs1 (fun B N _ => toMontgomery B N) s

/-- `MMUL rd, rs1, rs2` (41_montgomery.md R125). -/
def execMmul (rd rs1 rs2 : Reg) (s : State) : Result :=
  binaryModular (.mmul rd rs1 rs2) rd rs1 rs2 (fun B C N v => montMultiply B C N v) s

/-- `MEXP rd, rs1, rs2`: base `b[rs1]`, exponent `b[rs2]` (41_montgomery.md R127). -/
def execMexp (rd rs1 rs2 : Reg) (s : State) : Result :=
  binaryModular (.mexp rd rs1 rs2) rd rs1 rs2 (fun B d N v => montExponentiate B d N v) s

/-- `FROMMONT rd, rs1` (41_montgomery.md R129). -/
def execFrommont (rd rs1 : Reg) (s : State) : Result :=
  unaryModular (.frommont rd rs1) rd rs1 (fun A N v => fromMontgomery A N v) s

/-- `MODEXP rd, rs1, rs2`: the hardware uses `V` for the coefficient (41_montgomery.md R131). -/
def execModexp (rd rs1 rs2 : Reg) (s : State) : Result :=
  binaryModular (.modexp rd rs1 rs2) rd rs1 rs2 (fun B d N v => modExpWith v B d N) s

end Sys2Proof.Machine
end

