-- ==== Sys2Proof/Machine/Primitives.lean ====
section
/-! DEFINITION. The BigInt primitives: CLR, ONE, CPY, DBL, RED (40_bigint_primitives.md). -/

namespace Sys2Proof.Machine

/-- `CLR rd` (40_bigint_primitives.md R100). -/
def execClr (rd : Reg) (s : State) : Result := writeConstant rd (clearBig 51) s

/-- `ONE rd` (40_bigint_primitives.md R101). -/
def execOne (rd : Reg) (s : State) : Result := writeConstant rd (oneBig 51) s

/-- `CPY rd, rs1`; `rd = rs1` is legal (40_bigint_primitives.md R102). -/
def execCpy (rd rs1 : Reg) (s : State) : Result := unaryInPlace rd rs1 (fun B => B) s

/-- `DBL rd`; the carry is recorded nowhere (40_bigint_primitives.md R104). -/
def execDbl (rd : Reg) (s : State) : Result := unaryInPlace rd rd (fun B => (double B).1) s

/-- `RED rd`; the one command that writes `RF` (40_bigint_primitives.md R106). -/
def execRed (rd : Reg) (s : State) : Result :=
  modulusChecked (.red rd) s fun s =>
    let r := reduceOnce (getReg s rd) s.n
    complete (setRf (setReg s rd r.1) r.2)

end Sys2Proof.Machine
end

