-- ==== Sys2Proof/Machine/System.lean ====
section
/-! DEFINITION. The commands that compute nothing: NOP, CLRERR (44_system_host.md). -/

namespace Sys2Proof.Machine

/-- `NOP` changes no state at all (44_system_host.md R200). -/
def execNop (s : State) : Result := .next s

/-- `CLRERR` (44_system_host.md R201). -/
def execClrerr (s : State) : Result := complete (clearErrors s)

end Sys2Proof.Machine
end

