-- ==== Sys2Proof/Machine/Dispatch.lean ====
section
/-! DEFINITION. The meaning of each command (30_encoding.md R86): steps 3 to 5 of 30_encoding.md R92, for a command
that the engine accepts. Steps 1 and 2 stand in Machine/Host.lean. -/

namespace Sys2Proof.Machine

def exec (i : Instr) (s : State) : Host.Outcome State Fault Refusal :=
  match i with
  | .nop => Sys2Proof.Machine.execNop s
  | .clr rd => Sys2Proof.Machine.execClr rd s
  | .one rd => Sys2Proof.Machine.execOne rd s
  | .cpy rd rs1 => Sys2Proof.Machine.execCpy rd rs1 s
  | .dbl rd => Sys2Proof.Machine.execDbl rd s
  | .red rd => Sys2Proof.Machine.execRed rd s
  | .ldn rs1 => Sys2Proof.Machine.execLdn rs1 s
  | .tomont rd rs1 => Sys2Proof.Machine.execTomont rd rs1 s
  | .mmul rd rs1 rs2 => Sys2Proof.Machine.execMmul rd rs1 rs2 s
  | .mexp rd rs1 rs2 => Sys2Proof.Machine.execMexp rd rs1 rs2 s
  | .frommont rd rs1 => Sys2Proof.Machine.execFrommont rd rs1 s
  | .modexp rd rs1 rs2 => Sys2Proof.Machine.execModexp rd rs1 rs2 s
  | .modmul rd rs1 rs2 => Sys2Proof.Machine.execModmul rd rs1 rs2 s
  | .cube rd rs1 => Sys2Proof.Machine.execCube rd rs1 s
  | .setcur imm => Sys2Proof.Machine.execSetcur imm s
  | .dpass imm => Sys2Proof.Machine.execDpass imm s
  | .decrypt => Sys2Proof.Machine.execDecrypt s
  | .clrerr => Sys2Proof.Machine.execClrerr s

end Sys2Proof.Machine
end

