-- ==== Sys2Proof/Machine/Host.lean ====
section
/-! DEFINITION. What the host can do (44_system_host.md R202 to R205), and the order of checks for a presented
command word (30_encoding.md R92). -/

namespace Sys2Proof.Machine

/-- `CMD(w)`: steps 1 and 2 of 30_encoding.md R92, then the decoded command. -/
def command (w : Word) (s : State) : Result :=
  if s.fault then .next s
  else
    match decode w with
    | .error _ => .next (raiseFault .illegal w s)
    | .ok i => exec i s

/-- The whole of the control and status register of a number, zero-extended (10_state.md R29). -/
def csrRead (s : State) : Nat → Option Word
  | 0 => some (statusWord s)
  | 1 => some (s.v.setWidth 16)
  | 2 => some (s.cnt.setWidth 16)
  | 3 => some (s.acc.setWidth 16)
  | 4 => some s.cur
  | 5 => some s.out
  | 6 => some s.fcmd
  | _ => none

/-- The general register of a REG window, for windows 0 to 7 (20_memory.md R51). -/
def regWindow (a : Nat) : Option Reg := if h : a / 64 < 8 then some ⟨a / 64, h⟩ else none

/-- A byte of the REG space; window 8 is `N` (20_memory.md R51). -/
def regSpaceRead (s : State) (a : Nat) : Option Byte :=
  if a % 64 ≤ 50 then
    match regWindow a with
    | some i => some (byteAt (getReg s i) (a % 64))
    | none => if a / 64 = 8 then some (byteAt s.n (a % 64)) else none
  else none

/-- What `HRD(space, a)` returns, or `none` outside the interface (44_system_host.md R203, 20_memory.md R65). -/
def hostRead (s : State) : Space → Nat → Option Word
  | .reg, a => (regSpaceRead s a).map (·.setWidth 16)
  | .csr, a => csrRead s a
  | .ct, a => if a < Config.ctLen then some ((memRead s.ct a).setWidth 16) else none
  | .pt, a => if a < s.ptLen then some ((memRead s.pt a).setWidth 16) else none

/-- The state after `HWR(space, a, v)`, or `none` outside the interface (44_system_host.md R202, 20_memory.md R65). -/
def hostWrite (s : State) : Space → Nat → Byte → Option State
  | .reg, a, v =>
    if a % 64 ≤ 50 then
      (regWindow a).map fun i => setReg s i (setByteAt (getReg s i) (a % 64) v)
    else none
  | .csr, _, _ => none
  | .ct, a, v => if a < Config.ctLen then some (setCt s a v) else none
  | .pt, a, v => if a < s.ptLen then some (setPt s a v) else none

/-- The value goes to the host; the engine's state is unchanged (44_system_host.md R203). -/
def giveHost (s : State) (x : Word) : State := { s with hostLog := x :: s.hostLog }

/-- One host operation (44_system_host.md R202 to R205, 70_reset_and_hazards.md R250). -/
def hostStep (op : HostOp) (s : State) : Result :=
  match op with
  | .hwr sp a v =>
    match hostWrite s sp a v with
    | some s' => .next s'
    | none => .refused (.hostWriteOutside sp a)
  | .hrd sp a =>
    match hostRead s sp a with
    | some x => .next (giveHost s x)
    | none => .refused (.hostReadOutside sp a)
  | .cmd w => command w s
  | .reset => .next (hostReset s)

/-- The host's remaining operations. -/
def setPort (s : State) (ops : List HostOp) : State := { s with port := ops }

/-- The host's next operation. With none pending the engine is idle, and idle has no effect on state
(60_exceptions.md R229). -/
def nextHostOp (s : State) : Result :=
  match s.port with
  | [] => .next s
  | op :: rest => hostStep op (setPort s rest)

/-- The host presents the word of an opcode-table row as its next operation (44_system_host.md R204). -/
def presentWord (s : State) (nbits w : Nat) : State := setPort s (.cmd (tableWord nbits w) :: s.port)

end Sys2Proof.Machine
end

