-- ==== Sys2Proof/Machine/Step.lean ====
section
/-! DEFINITION. One step of the machine: the host's next operation. -/

namespace Sys2Proof.Machine

/-- One step: the host's next operation, whole (44_system_host.md R204; 20_memory.md R62). -/
def step (s : State) : Host.Outcome State Fault Refusal := nextHostOp s

/-- `s` with the host about to present the given command word, so that the next step runs it. -/
def State.withFetchWord (s : State) (nbits w : Nat) : State := presentWord s nbits w

end Sys2Proof.Machine
end

