-- ==== Sys2Proof/Machine/BytePass.lean ====
section
/-! DEFINITION. The byte passes by which 40_bigint_primitives.md R103, R105 and 42_cuber.md R150 write `double`,
`reduce_once` and `add_m`. The machine runs the value form of Machine/BigInt.lean; obligations state that the two
agree. -/

namespace Sys2Proof.Machine

/-- The bytes of a BigInt, position 0 first (00_scope.md R7). -/
def toBytes {m : Nat} (X : BigInt m) : List Byte := (List.range m).map (byteAt X)

/-- The add-with-carry pass from the last position to the first: the sum bytes and the carry that leaves position 0
(40_bigint_primitives.md R103, 42_cuber.md R150). -/
def addPass : List Byte → List Byte → List Byte × Nat
  | a :: as, x :: xs =>
    let rest := addPass as xs
    let s := a.toNat + x.toNat + rest.2
    (BitVec.ofNat 8 (s % 256) :: rest.1, s / 256)
  | _, _ => ([], 0)

/-- The subtract-with-borrow pass from the last position to the first: the difference bytes and the borrow past
position 0 (40_bigint_primitives.md R105). -/
def subPass : List Byte → List Byte → List Byte × Nat
  | b :: bs, n :: ns =>
    let rest := subPass bs ns
    let d : Int := (b.toNat : Int) - n.toNat - rest.2
    if d < 0 then (BitVec.ofInt 8 (d + 256) :: rest.1, 1) else (BitVec.ofInt 8 d :: rest.1, 0)
  | _, _ => ([], 0)

end Sys2Proof.Machine
end

