-- ==== Sys2Proof/Machine/Fsm.lean ====
section
/-! DEFINITION. The decoder as the finite-state machine of 43_chunk_decoder.md R182, one row of its table at a time.
The machine runs the functions of R178 and R181 (normative by R183); obligations state that the two agree. -/

namespace Sys2Proof.Machine

/-- The FSM at work: the machine's state, with `DST`, the pass index and the scratch buffers `S1` (the chunk), `S0`
(its square) and `S2` (its cube) of 10_state.md R32, and the auxiliary values `off` and `two` of 43_chunk_decoder.md
R182. -/
structure Fsm where
  st : State
  off : Word
  two : Bool
  deriving DecidableEq, Repr

/-- Where a row of the table leads: to another state, or to the end of the command. -/
inductive FsmResult where
  | running (f : Fsm)
  | ended (o : Result)

/-- `DST` becomes the given state. -/
def goState (d : DecoderState) (s : State) : State := { s with dst := d }

/-- The chunk under work is in `S1` (10_state.md R32). -/
def setChunk (s : State) (E : Big) : State := { s with scratch := { s.scratch with s1 := E } }

/-- The square of the chunk is in `S0` (10_state.md R32). -/
def setSquare (s : State) (S : Big) : State := { s with scratch := { s.scratch with s0 := S } }

/-- The cube of the chunk is in `S2` (10_state.md R32). -/
def setCube (s : State) (P : Big) : State := { s with scratch := { s.scratch with s2 := P } }

/-- The row of `D_IDLE` for `DPASS imm` (43_chunk_decoder.md R182). -/
def fsmStartDpass (imm : Word) (s : State) : Fsm := { st := goState .dHdr s, off := imm, two := false }

/-- The row of `D_IDLE` for `DECRYPT` (43_chunk_decoder.md R182). -/
def fsmStartDecrypt (s : State) : Fsm := { st := goState .dHdr (startDecrypt s), off := Config.off1, two := true }

/-- One row of the table of 43_chunk_decoder.md R182, inside the command `i`. -/
def fsmStep (i : Instr) (f : Fsm) : FsmResult :=
  let s := f.st
  match s.dst with
  | .dIdle => .ended (.next s)
  | .dHdr =>
    if passBoundsOk f.off s then
      match ctRead s s.cur.toNat with
      | .ok c0 => .running { f with st := goState .dLoad (startPass f.off c0 s) }
      | .error r => .ended (.fault r)
    else .ended (raise .bounds i (goState .dIdle s))
  | .dLoad =>
    match loadChunk s with
    | .ok (E, s') => .running { f with st := goState .dCheck (setChunk s' E) }
    | .error r => .ended (.fault r)
  | .dCheck => .running { f with st := goState .dSqr (checkStruct s.scratch.s1 s) }
  | .dSqr => .running { f with st := goState .dMul (setSquare s (modmul s.scratch.s1 s.scratch.s1 s.n)) }
  | .dMul => .running { f with st := goState .dPad (setCube s (modmul s.scratch.s0 s.scratch.s1 s.n)) }
  | .dPad => .running { f with st := goState .dFold (checkPad s.scratch.s2 s) }
  | .dFold =>
    match foldChunk s.scratch.s2 s with
    | .ok s' => .running { f with st := goState .dNext s' }
    | .error r => .ended (.fault r)
  | .dNext =>
    let s' := advanceCounter s
    .running { f with st := goState (if s'.cnt = 0#8 then .dSum else .dLoad) s' }
  | .dSum =>
    let s' := clobberScratch (checkSum s)
    if f.two && s'.pass == 0 then
      .running { f with st := goState .dHdr (setPass s' 1), off := Config.off2 }
    else .ended (.next (goState .dIdle s'))

/-- At most `k` rows of the table; `none` when the command has not ended by then. -/
def fsmRun (i : Instr) : Nat → Fsm → Option Result
  | 0, _ => none
  | k + 1, f =>
    match fsmStep i f with
    | .ended o => some o
    | .running f' => fsmRun i k f'

end Sys2Proof.Machine
end

