-- ==== Sys2Proof/Machine/Sequences.lean ====
section
/-! DEFINITION. The pseudo-instructions of 30_encoding.md R91 and the host sequences of 44_system_host.md R206, which
spell the document's two entry points, with what the host obtains from them. -/

namespace Sys2Proof.Machine

/-- The pseudo-instructions (30_encoding.md R91). -/
inductive Pseudo where
  | msqr (rd rs : Reg)
  | modsqr (rd rs : Reg)
  | lynxdec
  | pass1
  | pass2
  deriving DecidableEq, Repr

/-- What a pseudo-instruction expands to (30_encoding.md R91). -/
def expand : Pseudo → List Instr
  | .msqr rd rs => [.mmul rd rs rs]
  | .modsqr rd rs => [.modmul rd rs rs]
  | .lynxdec => [.decrypt]
  | .pass1 => [.setcur 0#16, .dpass 0#16]
  | .pass2 => [.dpass 256#16]

/-- The 51 byte writes that give register `i` the value `X`, position 0 first (44_system_host.md R202, R206). -/
def hostWriteReg (i : Reg) (X : Big) : List HostOp :=
  (List.range 51).map fun k => .hwr .reg (64 * i.val + k) (byteAt X k)

/-- The 51 byte reads of register `i`, position 0 first (44_system_host.md R203, R206). -/
def hostReadReg (i : Reg) : List HostOp :=
  (List.range 51).map fun k => .hrd .reg (64 * i.val + k)

/-- `mod_exp(msg, exp, mod)` as a host sequence (44_system_host.md R206). -/
def hostModExp (msg exp mod : Big) : List HostOp :=
  hostWriteReg 0 mod ++ [.cmd 0x3000#16] ++ hostWriteReg 1 msg ++ hostWriteReg 2 exp ++ [.cmd 0x6328#16] ++
    hostReadReg 3

/-- `lynx_decrypt(enc)` as a host sequence; the modulus is loaded already (44_system_host.md R206). -/
def hostLynxDecrypt (enc : Vector Byte 410) : List HostOp :=
  (enc.toList.zipIdx.map fun p => HostOp.hwr .ct p.2 p.1) ++ [.cmd 0xD000#16, .hrd .csr 0] ++
    (List.range 410).map fun a => .hrd .pt a

/-- `k` steps, one after another; a stop ends them. -/
def stepTimes : Nat → State → Result
  | 0, s => .next s
  | k + 1, s =>
    match step s with
    | .next t => stepTimes k t
    | .fault r => .fault r
    | .refused r => .refused r

/-- The host performs a sequence of operations, ahead of those already pending. -/
def hostPerform (ops : List HostOp) (s : State) : Result := stepTimes ops.length (setPort s (ops ++ s.port))

/-- The last `k` values that `HRD` returned to the host, oldest first; the machine keeps them newest first (entry 1). -/
def lastReads (k : Nat) (s : State) : List Word := (s.hostLog.take k).reverse

/-- What the host has read, in the order of its reads, after a sequence of operations whose last `k` values count;
`none` when the machine stopped. -/
def readsOf (ops : List HostOp) (k : Nat) (s : State) : Option (List Word) :=
  match hostPerform ops s with
  | .next t => some (lastReads k t)
  | .fault _ => none
  | .refused _ => none

/-- The `res` of `mod_exp(msg, exp, mod)`, position 0 first (44_system_host.md R206): `res[k]` is what read number `k`
of `b3` returned. -/
def modExpEntry (msg exp mod : Big) (s : State) : Option (List Byte) :=
  (readsOf (hostModExp msg exp mod) 51 s).map fun res => res.map (·.setWidth 8)

/-- `(s div 32) mod 2` of a `STATUS` value `s`: `DFAIL` (44_system_host.md R206). -/
def statusFailed (s : Word) : Nat := s.toNat / 32 % 2

/-- `(s div 64) mod 2` of a `STATUS` value `s`: `FAULT` (44_system_host.md R206). -/
def statusFaulted (s : Word) : Nat := s.toNat / 64 % 2

/-- What the host obtains from `lynx_decrypt` (44_system_host.md R206). -/
structure LynxOutput where
  /-- `plain`, address 0 first. -/
  plain : List Byte
  /-- `failed`, from the `STATUS` that the host read. -/
  failed : Nat
  /-- `FAULT` in that same `STATUS`. -/
  faulted : Nat
  deriving DecidableEq, Repr

/-- The outputs of `lynx_decrypt` from the values that its reads returned: `STATUS` first, then the bytes of PT
(44_system_host.md R206). -/
def lynxOutput : List Word → Option LynxOutput
  | [] => none
  | status :: plain => some ⟨plain.map (·.setWidth 8), statusFailed status, statusFaulted status⟩

/-- `lynx_decrypt(enc) -> plain, failed` (44_system_host.md R206); `none` when a read of PT lies outside, which is when
`PT_LEN` is below 410. -/
def lynxDecryptEntry (enc : Vector Byte 410) (s : State) : Option LynxOutput :=
  (readsOf (hostLynxDecrypt enc) 411 s).bind lynxOutput

end Sys2Proof.Machine
end

