-- ==== Sys2Proof/Safety.lean ====
section
/-! DEFINITION. What a good state, a good host operation and a safe outcome are, in the terms the statements use. -/

namespace Sys2Proof.Machine

/-- The modulus pair is valid: the top bit of `N` is clear, `N` is odd, and `V` is its coefficient
(10_state.md R22, R23). -/
def modulusValid (n : Big) (v : Byte) : Bool :=
  decide (byteAt n 0 < 0x80#8) && (byteAt n 50).getLsbD 0 && v * byteAt n 50 + 1#8 == 0#8

/-- The fault record holds together: `CAUSE` and `FCMD` are 0 without a fault, `CAUSE` is a code 1 to 5 with one
(10_state.md R24, R29). -/
def recordConsistent (s : State) : Bool :=
  if s.fault then s.cause != .none else s.cause == .none && s.fcmd == 0#16

/-- What holds of the machine between two host operations, whatever the host does. -/
structure State.Inv (s : State) : Prop where
  /-- CT is in canonical form. -/
  ctCanonical : Memory.wf s.ct = true
  /-- CT has the addresses 0 to 409 (20_memory.md R53). -/
  ctBelow : Memory.below Config.ctLen s.ct = true
  /-- PT is in canonical form. -/
  ptCanonical : Memory.wf s.pt = true
  /-- PT has the addresses 0 to `PT_LEN` - 1 (20_memory.md R54). -/
  ptBelow : Memory.below s.ptLen s.pt = true
  /-- `1 ≤ PT_LEN` (00_scope.md R4). -/
  ptLenPos : 1 ≤ s.ptLen
  /-- `PT_LEN ≤ 65535` (00_scope.md R4). -/
  ptLenMax : s.ptLen ≤ 65535
  /-- While `MODV` = 1 the modulus pair is valid (10_state.md R22, R23). -/
  modulus : s.modv = true → modulusValid s.n s.v = true
  /-- The fault record (10_state.md R24, R29). -/
  record : recordConsistent s = true
  /-- `CUR` is 0 to 2047 (10_state.md R29). -/
  curRange : s.cur.toNat ≤ 2047
  /-- `OUT` is 0 to `PT_LEN` (10_state.md R29). -/
  outRange : s.out.toNat ≤ s.ptLen
  /-- Between commands the decoder is in `D_IDLE` (10_state.md R32). -/
  decoderIdle : s.dst = .dIdle

/-- The locations of a space that the host may read: REG windows 0 to 8, positions 0 to 50; CSR 0 to 6; CT 0 to 409;
PT 0 to `PT_LEN` - 1 (20_memory.md R51 to R54). -/
def Space.readable (ptLen : Nat) : Space → Nat → Bool
  | .reg, a => decide (a / 64 ≤ 8) && decide (a % 64 ≤ 50)
  | .csr, a => decide (a ≤ 6)
  | .ct, a => decide (a < 410)
  | .pt, a => decide (a < ptLen)

/-- The locations of a space that the host may write: REG windows 0 to 7, positions 0 to 50; no CSR; CT 0 to 409; PT 0
to `PT_LEN` - 1 (20_memory.md R51 to R54, 44_system_host.md R202). -/
def Space.writable (ptLen : Nat) : Space → Nat → Bool
  | .reg, a => decide (a / 64 ≤ 7) && decide (a % 64 ≤ 50)
  | .csr, _ => false
  | .ct, a => decide (a < 410)
  | .pt, a => decide (a < ptLen)

/-- The host operation keeps to the locations of 20_memory.md R50 to R54 (44_system_host.md R205). The ranges are
written out here and do not refer to what the host operations accept. -/
def HostOp.inInterface (s : State) : HostOp → Bool
  | .hwr sp a _ => sp.writable s.ptLen a
  | .hrd sp a => sp.readable s.ptLen a
  | .cmd _ => true
  | .reset => true

/-- The three outcomes of a presented command word (00_scope.md R9). -/
inductive CommandOutcome where
  | completes | faults | ignored
  deriving DecidableEq, Repr

/-- Which of the three outcomes of 00_scope.md R9 the word `w` has; an ignored command is not a completed one
(93_implementation_defined.md U13). `none` would be a stop of the model, which no command has. -/
def commandOutcome (w : Word) (s : State) : Option CommandOutcome :=
  if s.fault then some .ignored
  else
    match command w s with
    | .next t => some (if t.fault then .faults else .completes)
    | .fault _ => none
    | .refused _ => none

end Sys2Proof.Machine
end

