-- ==== Sys2Proof/Certificates/Slice0/Obligations.lean ====
section
/-! DEFINITION. The statements for the provers. Each docstring names the rule of spec/ it formalises. The scratch
buffers and the counter of free values are left out of every frame of a command other than NOP: their contents are
unspecified after any command (10_state.md R31). -/

namespace Sys2Proof.Machine

/-! ### What a command leaves unchanged, by kind of state -/

/-- `N`, `V`, `MODV` keep their values. -/
def KeepsModulus (s t : State) : Prop := t.n = s.n ∧ t.v = s.v ∧ t.modv = s.modv

/-- `ESTRUCT`, `EPAD`, `ESUM` keep their values. -/
def KeepsErrors (s t : State) : Prop := t.estruct = s.estruct ∧ t.epad = s.epad ∧ t.esum = s.esum

/-- `FAULT`, `CAUSE`, `FCMD` keep their values. -/
def KeepsRecord (s t : State) : Prop := t.fault = s.fault ∧ t.cause = s.cause ∧ t.fcmd = s.fcmd

/-- `CNT`, `ACC`, `CUR`, `OUT` keep their values. -/
def KeepsDecoder (s t : State) : Prop := t.cnt = s.cnt ∧ t.acc = s.acc ∧ t.cur = s.cur ∧ t.out = s.out

/-- Every byte of CT reads as before. -/
def KeepsCt (s t : State) : Prop := ∀ a, memRead t.ct a = memRead s.ct a

/-- Every byte of PT reads as before. -/
def KeepsPt (s t : State) : Prop := ∀ a, memRead t.pt a = memRead s.pt a

/-- Every general register keeps its value. -/
def KeepsRegs (s t : State) : Prop := ∀ r, getReg t r = getReg s r

/-- Every general register but `rd` keeps its value. -/
def KeepsRegsBut (rd : Reg) (s t : State) : Prop := ∀ r, r ≠ rd → getReg t r = getReg s r

/-- `DST` and the parameter `PT_LEN` keep their values, and so do the model's own fields for the host (the model's
choice, entry 1). -/
def KeepsRest (s t : State) : Prop :=
  t.dst = s.dst ∧ t.ptLen = s.ptLen ∧ t.port = s.port ∧ t.hostLog = s.hostLog

/-- The frame of a command whose destination is the general register `rd`. -/
def ChangesOnlyRegister (rd : Reg) (s t : State) : Prop :=
  KeepsRegsBut rd s t ∧ KeepsModulus s t ∧ t.rf = s.rf ∧ KeepsErrors s t ∧ KeepsRecord s t ∧ KeepsDecoder s t ∧
    KeepsCt s t ∧ KeepsPt s t ∧ KeepsRest s t ∧ t.pass = s.pass

/-- `s` with the fault record of 60_exceptions.md R225 and nothing else changed. -/
def withRecord (s : State) (c : Cause) (w : Word) : State := { s with fault := true, cause := c, fcmd := w }

/-- A host read of the location returns the value, and its one effect is that the host has it: the value is the newest
of the host's list, the model's choice of entry 1. -/
def HostReads (s : State) (sp : Space) (a : Nat) (x : Word) : Prop :=
  hostRead s sp a = some x ∧ hostStep (.hrd sp a) s = .next { s with hostLog := x :: s.hostLog }

/-! ### What a pass computes, from the stream alone -/

/-- The chunk at a stream address: its 51 bytes read as a little-endian number (43_chunk_decoder.md R171). -/
def streamChunk (ct : Memory) (a : Nat) : Big :=
  BitVec.ofNat (8 * 51) (∑ k ∈ Finset.range 51, (memRead ct (a + k)).toNat * 256 ^ k)

/-- Payload byte number `p` of a pass whose first chunk starts at stream address `a`: position `50 - p mod 50` of the
cube of chunk `p div 50` (43_chunk_decoder.md R174). -/
def payloadByte (ct : Memory) (n : Big) (a p : Nat) : Byte :=
  byteAt (cube (streamChunk ct (a + 51 * (p / 50))) n) (50 - p % 50)

/-- The sum modulo 256 of the first `q` payload bytes of a pass (43_chunk_decoder.md R174). -/
def payloadSum (ct : Memory) (n : Big) (a q : Nat) : Byte := ((List.range q).map (payloadByte ct n a)).sum

/-- Some chunk of the pass violates the structural condition (43_chunk_decoder.md R172). -/
def someStructViolation (ct : Memory) (n : Big) (a chunks : Nat) : Prop :=
  ∃ j < chunks, hi24 n < hi24 (streamChunk ct (a + 51 * j)) ∨ hi24 (streamChunk ct (a + 51 * j)) = 0

/-- Some cube of the pass has no padding marker (43_chunk_decoder.md R173). -/
def somePadViolation (ct : Memory) (n : Big) (a chunks : Nat) : Prop :=
  ∃ j < chunks, byteAt (cube (streamChunk ct (a + 51 * j)) n) 0 ≠ 0x15#8

/-- The number of chunks of a section whose counter byte is at CT address `a` (43_chunk_decoder.md R175). -/
def sectionChunks (s : State) (a : Nat) : Nat := 256 - (memRead s.ct a).toNat

/-- The state in which the engine finds the word of `DECRYPT` that `lynx_decrypt(enc)` presents: CT holds `enc` and the
host's reads are still pending (44_system_host.md R206). -/
def decryptInput (enc : Vector Byte 410) (s : State) : State :=
  { s with ct := memOf 410 (fun a => enc.toList.getD a 0#8), port := (hostLynxDecrypt enc).drop 411 ++ s.port }

end Sys2Proof.Machine

open Sys2Proof Sys2Proof.Machine

/-! ### Encoding -/

/-- 30_encoding.md R86: decoding the word of a well-formed command gives the command back, with every register and
every immediate. -/
def Obligations.DecodeOfEncodeIsTheCommand : Prop :=
  ∀ i : Instr, i.wellFormed = true → decode (encode i) = .ok i

/-- 30_encoding.md R89: a word that decodes is the word of the command it decodes to, which is well-formed; so no
command has two words. -/
def Obligations.DecodedWordIsTheOneEncoding : Prop :=
  ∀ (w : Word) (i : Instr), decode w = .ok i → encode i = w ∧ i.wellFormed = true

/-- Words written out from the examples of 30_encoding.md R86 and the rules of the commands, and one through the
table interface. -/
def Obligations.WrittenOutWordsDecode : Prop :=
  decode 0x4B28#16 = .ok (.mmul 3 1 2) ∧ decode 0x30A0#16 = .ok (.ldn 5) ∧ decode 0xC900#16 = .ok (.dpass 256#16) ∧
    decode 0x8C20#16 = .ok (.cube 4 1) ∧ decode 0x0A00#16 = .ok (.clr 2) ∧ decode 0xD800#16 = .ok .clrerr ∧
    decodeTableWord 16 0x6328 = some (.modexp 3 1 2)

/-- 30_encoding.md R88: a word with one of the reserved opcodes faults with `ILLEGAL`, whatever its other bits. -/
def Obligations.ReservedOpcodeFaultsIllegal : Prop :=
  ∀ (s : State) (w : Word), s.fault = false →
    opField w ∈ [7, 13, 14, 15, 18, 19, 20, 21, 22, 23, 28, 29, 30, 31] →
      command w s = .next (withRecord s .illegal w)

/-- 30_encoding.md R87: a word whose opcode is assigned, with a 1 in a bit that the opcode's format fixes at 0, faults
with `ILLEGAL`. -/
def Obligations.MustBeZeroBitFaultsIllegal : Prop :=
  ∀ (s : State) (w : Word) (i : Instr), s.fault = false → i.opcode = opField w →
    w &&& i.format.mustBeZero ≠ 0#16 → command w s = .next (withRecord s .illegal w)

/-! ### Steps -/

/-- 44_system_host.md R204, 30_encoding.md R92: when the host's next operation presents a word that decodes to `i` and
the engine has not faulted, the step is `exec i`, with the operation taken from the host's list. The list is the
model's choice (entry 1). -/
def Obligations.StepRunsTheDecodedCommand : Prop :=
  ∀ (s : State) (w : Word) (i : Instr) (rest : List HostOp), s.port = .cmd w :: rest → s.fault = false →
    decode w = .ok i → step s = exec i { s with port := rest }

/-- 30_encoding.md R92 step 1, 60_exceptions.md R225: a faulted engine ignores every presented word; the step only
takes the operation from the host's list (the model's choice, entry 1). -/
def Obligations.FaultedEngineIgnoresEveryWord : Prop :=
  ∀ (s : State) (w : Word) (rest : List HostOp), s.port = .cmd w :: rest → s.fault = true →
    step s = .next { s with port := rest } ∧ commandOutcome w s = some .ignored

/-- 60_exceptions.md R229: with no host operation the engine is idle, and idle has no effect on state. That no
operation pending is an empty list is the model's choice (entry 1). -/
def Obligations.IdleStepChangesNothing : Prop :=
  ∀ s : State, s.port = [] → step s = .next s

/-- 00_scope.md R9: a presented word completes, faults or is ignored; ignored, nothing changes; faulting, nothing but
the fault record changes, with the word in `FCMD`, except for `DECRYPT`. -/
def Obligations.EveryWordHasOneOutcome : Prop :=
  ∀ (s : State) (w : Word), s.ptLen ≤ 65535 →
    ∃ t, command w s = .next t ∧
      (commandOutcome w s = some .ignored ↔ s.fault = true) ∧
      (commandOutcome w s = some .ignored → t = s) ∧
      (commandOutcome w s = some .faults ↔ s.fault = false ∧ t.fault = true) ∧
      (commandOutcome w s = some .completes ↔ s.fault = false ∧ t.fault = false) ∧
      (commandOutcome w s = some .faults → t.fcmd = w ∧ (w ≠ 0xD000#16 → t = withRecord s t.cause w))

/-! ### Primitives -/

/-- 44_system_host.md R200: `NOP` completes and changes no state at all; only the word 0x0000 is `NOP`. -/
def Obligations.NopChangesNothing : Prop :=
  (∀ s : State, exec .nop s = .next s) ∧ ∀ w : Word, decode w = .ok .nop ↔ w = 0x0000#16

/-- 40_bigint_primitives.md R100, R101: `CLR` (words 0x0800 on) and `ONE` (words 0x1000 on) complete from every state;
`CLR` leaves every byte 0, `ONE` every byte 0 but the last, which is 1. -/
def Obligations.ClrAndOneWriteTheirConstant : Prop :=
  ∀ (s : State) (rd : Reg),
    encode (.clr rd) = BitVec.ofNat 16 (0x0800 + rd.val * 256) ∧
    (∃ t, exec (.clr rd) s = .next t ∧ (∀ k ≤ 50, byteAt (getReg t rd) k = 0#8) ∧ (getReg t rd).toNat = 0 ∧
      ChangesOnlyRegister rd s t) ∧
    encode (.one rd) = BitVec.ofNat 16 (0x1000 + rd.val * 256) ∧
    (∃ t, exec (.one rd) s = .next t ∧ (∀ k ≤ 49, byteAt (getReg t rd) k = 0#8) ∧ byteAt (getReg t rd) 50 = 1#8 ∧
      (getReg t rd).toNat = 1 ∧ ChangesOnlyRegister rd s t)

/-- 40_bigint_primitives.md R102: `CPY` (words 0x1800 on) completes from every state, `rd = rs1` included, where it
changes nothing. -/
def Obligations.CpyCopiesEveryByte : Prop :=
  ∀ (s : State) (rd rs1 : Reg),
    encode (.cpy rd rs1) = BitVec.ofNat 16 (0x1800 + rd.val * 256 + rs1.val * 32) ∧
    ∃ t, exec (.cpy rd rs1) s = .next t ∧ (∀ k ≤ 50, byteAt (getReg t rd) k = byteAt (getReg s rs1) k) ∧
      getReg t rs1 = getReg s rs1 ∧ (rd = rs1 → KeepsRegs s t) ∧ ChangesOnlyRegister rd s t

/-- 40_bigint_primitives.md R104: `DBL` (words 0x2000 on) completes from every state with twice the value modulo
`256^51`. -/
def Obligations.DblDoublesModuloRadix : Prop :=
  ∀ (s : State) (rd : Reg),
    encode (.dbl rd) = BitVec.ofNat 16 (0x2000 + rd.val * 256) ∧
    ∃ t, exec (.dbl rd) s = .next t ∧ (getReg t rd).toNat = 2 * (getReg s rd).toNat % 256 ^ 51 ∧
      getReg t rd = (double (getReg s rd)).1 ∧ ChangesOnlyRegister rd s t

/-- 40_bigint_primitives.md R106: `RED` (words 0x2800 on) subtracts the modulus once exactly when the value is at least
the modulus, with the Boolean in `RF`; without a modulus it faults with `NOMOD`. -/
def Obligations.RedSubtractsOnceWithFlag : Prop :=
  ∀ (s : State) (rd : Reg),
    encode (.red rd) = BitVec.ofNat 16 (0x2800 + rd.val * 256) ∧
    (s.modv = true →
      ∃ t, exec (.red rd) s = .next t ∧
        (getReg t rd, t.rf) = reduceOnce (getReg s rd) s.n ∧
        (s.n.toNat ≤ (getReg s rd).toNat →
          (getReg t rd).toNat = (getReg s rd).toNat - s.n.toNat ∧ t.rf = true) ∧
        ((getReg s rd).toNat < s.n.toNat → getReg t rd = getReg s rd ∧ t.rf = false) ∧
        KeepsRegsBut rd s t ∧ KeepsModulus s t ∧ KeepsErrors s t ∧ KeepsRecord s t ∧ KeepsDecoder s t ∧
        KeepsCt s t ∧ KeepsPt s t ∧ KeepsRest s t ∧ t.pass = s.pass) ∧
    (s.modv = false → exec (.red rd) s = .next (withRecord s .nomod (encode (.red rd))))

/-! ### Montgomery engine -/

/-- 41_montgomery.md R120: for a modulus with an odd low byte the coefficient is the unique byte `v` with
`v·N ≡ -1 (mod 256)`. -/
def Obligations.CoefficientIsTheUniqueInverse : Prop :=
  ∀ (m : Nat) (N : BigInt m), N.toNat % 2 = 1 →
    (∀ v : Byte, (v.toNat * N.toNat + 1) % 256 = 0 ↔ v = deriveCoefficient N)

/-- 41_montgomery.md R121: `LDN` of a value with its top bit clear and its low bit set loads it with its coefficient. -/
def Obligations.LdnLoadsValidModulus : Prop :=
  ∀ (s : State) (rs1 : Reg), byteAt (getReg s rs1) 0 < 0x80#8 → (getReg s rs1).toNat % 2 = 1 →
    ∃ t, exec (.ldn rs1) s = .next t ∧ t.n = getReg s rs1 ∧ t.v = deriveCoefficient (getReg s rs1) ∧
      modulusValid t.n t.v = true ∧ t.modv = true ∧ t.rf = s.rf ∧
      KeepsRegs s t ∧ KeepsErrors s t ∧ KeepsRecord s t ∧ KeepsDecoder s t ∧ KeepsCt s t ∧ KeepsPt s t ∧
      KeepsRest s t ∧ t.pass = s.pass

/-- 41_montgomery.md R121: `LDN` of a value with its top bit set, or of an even value, faults with `MODINV` and keeps
`N`, `V`, `MODV`. -/
def Obligations.LdnRefusesInvalidModulus : Prop :=
  ∀ (s : State) (rs1 : Reg), 0x80#8 ≤ byteAt (getReg s rs1) 0 ∨ (getReg s rs1).toNat % 2 = 0 →
    exec (.ldn rs1) s = .next (withRecord s .modinv (encode (.ldn rs1)))

/-- 41_montgomery.md R122, R123: `TOMONT` completes with the value of the double-and-reduce rounds, which for a
canonical operand and a modulus with its top bit clear is `B·R mod N`. -/
def Obligations.TomontEntersMontgomeryDomain : Prop :=
  ∀ (s : State) (rd rs1 : Reg), rd ≠ rs1 → s.modv = true →
    ∃ t, exec (.tomont rd rs1) s = .next t ∧ getReg t rd = toMontgomery (getReg s rs1) s.n ∧
      (byteAt s.n 0 < 0x80#8 → (getReg s rs1).toNat < s.n.toNat →
        (getReg t rd).toNat = (getReg s rs1).toNat * 256 ^ 51 % s.n.toNat) ∧
      ChangesOnlyRegister rd s t

/-- 41_montgomery.md R125: `MMUL` completes with the Montgomery product of its sources; with the modulus loaded and
both operands canonical that is `B·C·R⁻¹` modulo `N`. -/
def Obligations.MmulMultipliesTwoRegisters : Prop :=
  ∀ (s : State) (rd rs1 rs2 : Reg), rd ≠ rs1 → rd ≠ rs2 → s.modv = true →
    ∃ t, exec (.mmul rd rs1 rs2) s = .next t ∧
      getReg t rd = montMultiply (getReg s rs1) (getReg s rs2) s.n s.v ∧
      (modulusValid s.n s.v = true → (getReg s rs1).toNat < s.n.toNat → (getReg s rs2).toNat < s.n.toNat →
        (getReg t rd).toNat * 256 ^ 51 ≡ (getReg s rs1).toNat * (getReg s rs2).toNat [MOD s.n.toNat]) ∧
      ChangesOnlyRegister rd s t

/-- 41_montgomery.md R134 (a), (c), (e): after the rounds the low half of the buffer is zero; for operands below `N`
(with `2N < R`), and for operands below `2N` (with `4N < R`), the result is the Montgomery product with the stated
bound; and the operation is symmetric. -/
def Obligations.MontMultiplyIsTheMontgomeryProduct : Prop :=
  ∀ (m : Nat) (B C N : BigInt m) (v : Byte), v * byteAt N (m - 1) + 1#8 = 0#8 →
    (montBuffer B C N v).toNat % 256 ^ m = 0 ∧
    (B.toNat < N.toNat → C.toNat < N.toNat → 2 * N.toNat < 256 ^ m →
      (montMultiply B C N v).toNat * 256 ^ m ≡ B.toNat * C.toNat [MOD N.toNat] ∧
        2 * (montMultiply B C N v).toNat < 3 * N.toNat) ∧
    (B.toNat < 2 * N.toNat → C.toNat < 2 * N.toNat → 4 * N.toNat < 256 ^ m →
      (montMultiply B C N v).toNat * 256 ^ m ≡ B.toNat * C.toNat [MOD N.toNat] ∧
        (montMultiply B C N v).toNat < 2 * N.toNat) ∧
    montMultiply B C N v = montMultiply C B N v

/-- 41_montgomery.md R127: `MEXP` completes; with `4N < R` and a base below `2N` in Montgomery form of `x`, the result
is below `2N` and is the Montgomery form of `x^d` up to the representative. -/
def Obligations.MexpExponentiatesInDomain : Prop :=
  ∀ (s : State) (rd rs1 rs2 : Reg), rd ≠ rs1 → rd ≠ rs2 → s.modv = true →
    ∃ t, exec (.mexp rd rs1 rs2) s = .next t ∧
      getReg t rd = montExponentiate (getReg s rs1) (getReg s rs2) s.n s.v ∧
      (modulusValid s.n s.v = true → 4 * s.n.toNat < 256 ^ 51 → (getReg s rs1).toNat < 2 * s.n.toNat →
        ∀ x : Nat, (getReg s rs1).toNat ≡ x * 256 ^ 51 [MOD s.n.toNat] →
          (getReg t rd).toNat < 2 * s.n.toNat ∧
            (getReg t rd).toNat ≡ x ^ (getReg s rs2).toNat * 256 ^ 51 [MOD s.n.toNat]) ∧
      ChangesOnlyRegister rd s t

/-- 41_montgomery.md R128, R129: `FROMMONT` completes, and with a loaded modulus the result is canonical and is
`A·R⁻¹` modulo `N`, whatever the source holds. -/
def Obligations.FrommontIsCanonical : Prop :=
  ∀ (s : State) (rd rs1 : Reg), rd ≠ rs1 → s.modv = true →
    ∃ t, exec (.frommont rd rs1) s = .next t ∧ getReg t rd = fromMontgomery (getReg s rs1) s.n s.v ∧
      (modulusValid s.n s.v = true →
        (getReg t rd).toNat < s.n.toNat ∧
          (getReg t rd).toNat * 256 ^ 51 ≡ (getReg s rs1).toNat [MOD s.n.toNat]) ∧
      ChangesOnlyRegister rd s t

/-- 41_montgomery.md R130, R131: `MODEXP` completes; with a loaded modulus its result is `mod_exp` of the sources,
which derives the coefficient anew, and is canonical for every base and exponent. -/
def Obligations.ModexpIsModExpAndCanonical : Prop :=
  ∀ (s : State) (rd rs1 rs2 : Reg), rd ≠ rs1 → rd ≠ rs2 → s.modv = true →
    ∃ t, exec (.modexp rd rs1 rs2) s = .next t ∧
      (modulusValid s.n s.v = true →
        getReg t rd = modExp (getReg s rs1) (getReg s rs2) s.n ∧ (getReg t rd).toNat < s.n.toNat) ∧
      ChangesOnlyRegister rd s t

/-- 41_montgomery.md R132: with a loaded modulus, `4N < R` and the base below `N`, `MODEXP` leaves `B^d mod N` for
every exponent. -/
def Obligations.ModexpIsThePower : Prop :=
  ∀ (s : State) (rd rs1 rs2 : Reg), rd ≠ rs1 → rd ≠ rs2 → s.modv = true → modulusValid s.n s.v = true →
    4 * s.n.toNat < 256 ^ 51 → (getReg s rs1).toNat < s.n.toNat →
    ∃ t, exec (.modexp rd rs1 rs2) s = .next t ∧
      (getReg t rd).toNat = (getReg s rs1).toNat ^ (getReg s rs2).toNat % s.n.toNat

/-! ### Cuber -/

/-- 42_cuber.md R152, R155: `MODMUL` completes; with `3N ≤ R` and the multiplicand below `N` the result is the
product modulo `N` for every multiplier. -/
def Obligations.ModmulIsTheProduct : Prop :=
  ∀ (s : State) (rd rs1 rs2 : Reg), rd ≠ rs1 → rd ≠ rs2 → s.modv = true →
    ∃ t, exec (.modmul rd rs1 rs2) s = .next t ∧
      getReg t rd = modmul (getReg s rs1) (getReg s rs2) s.n ∧
      (3 * s.n.toNat ≤ 256 ^ 51 → (getReg s rs1).toNat < s.n.toNat →
        (getReg t rd).toNat = (getReg s rs1).toNat * (getReg s rs2).toNat % s.n.toNat) ∧
      ChangesOnlyRegister rd s t

/-- 42_cuber.md R153, R154, R155: `CUBE` completes; with `3N ≤ R` and the operand below `N` the result is its cube
modulo `N`. -/
def Obligations.CubeIsTheCube : Prop :=
  ∀ (s : State) (rd rs1 : Reg), rd ≠ rs1 → s.modv = true →
    ∃ t, exec (.cube rd rs1) s = .next t ∧
      getReg t rd = modmul (modmul (getReg s rs1) (getReg s rs1) s.n) (getReg s rs1) s.n ∧
      (3 * s.n.toNat ≤ 256 ^ 51 → (getReg s rs1).toNat < s.n.toNat →
        (getReg t rd).toNat = (getReg s rs1).toNat ^ 3 % s.n.toNat) ∧
      ChangesOnlyRegister rd s t

/-- 42_cuber.md R155 with 41_montgomery.md R132: on an odd modulus with `4N < R` the cuber and the generic engine with
exponent 3 agree on every operand below `N`. -/
def Obligations.CuberEqualsModExpWithThree : Prop :=
  ∀ E N : Big, N.toNat % 2 = 1 → 4 * N.toNat < 256 ^ 51 → E.toNat < N.toNat →
    cube E N = modExp E (BitVec.ofNat (8 * 51) 3) N

/-! ### Faults before the command's own rule -/

/-- 30_encoding.md R92 step 3, 70_reset_and_hazards.md R253: the commands that are not in-place-safe fault with `ALIAS`
when the destination is a source, whether or not a modulus is loaded. -/
def Obligations.AliasedDestinationFaults : Prop :=
  ∀ (s : State) (rd rs1 rs2 : Reg),
    (∀ i ∈ [Instr.tomont rd rd, .frommont rd rd, .cube rd rd],
      exec i s = .next (withRecord s .aliased (encode i))) ∧
    (rd = rs1 ∨ rd = rs2 →
      ∀ i ∈ [Instr.mmul rd rs1 rs2, .mexp rd rs1 rs2, .modexp rd rs1 rs2, .modmul rd rs1 rs2],
        exec i s = .next (withRecord s .aliased (encode i)))

/-- 30_encoding.md R92 step 4, 60_exceptions.md R221: the commands that need the modulus fault with `NOMOD` when none is
loaded (an aliased destination comes first). -/
def Obligations.MissingModulusFaults : Prop :=
  ∀ (s : State) (rd rs1 rs2 : Reg) (imm : Word), s.modv = false →
    (∀ i ∈ [Instr.red rd, .dpass imm, .decrypt], exec i s = .next (withRecord s .nomod (encode i))) ∧
    (rd ≠ rs1 →
      ∀ i ∈ [Instr.tomont rd rs1, .frommont rd rs1, .cube rd rs1],
        exec i s = .next (withRecord s .nomod (encode i))) ∧
    (rd ≠ rs1 → rd ≠ rs2 →
      ∀ i ∈ [Instr.mmul rd rs1 rs2, .mexp rd rs1 rs2, .modexp rd rs1 rs2, .modmul rd rs1 rs2],
        exec i s = .next (withRecord s .nomod (encode i)))

/-! ### Decoder -/

/-- 43_chunk_decoder.md R179: `SETCUR` (words 0xC000 on) completes from every state and changes nothing but `CUR`; a
cursor at or beyond the end of CT makes a `DPASS` that follows fault with `BOUNDS`. -/
def Obligations.SetcurSetsTheCursor : Prop :=
  ∀ (s : State) (imm : Word), imm.toNat < 2048 →
    encode (.setcur imm) = BitVec.ofNat 16 (0xC000 + imm.toNat) ∧
    ∃ t, exec (.setcur imm) s = .next t ∧ t.cur = imm ∧
      (410 ≤ imm.toNat → s.modv = true →
        ∀ off, exec (.dpass off) t = .next (withRecord t .bounds (encode (.dpass off)))) ∧
      t.out = s.out ∧ t.cnt = s.cnt ∧ t.acc = s.acc ∧ t.rf = s.rf ∧ KeepsRegs s t ∧ KeepsModulus s t ∧
      KeepsErrors s t ∧ KeepsRecord s t ∧ KeepsCt s t ∧ KeepsPt s t ∧ KeepsRest s t ∧ t.pass = s.pass

/-- 43_chunk_decoder.md R174, R175, R178, R180: a `DPASS` whose section and output fit completes; it leaves the running
sums of the payload in PT from the offset on and every other PT byte as it was, `CUR` and `OUT` one past what it read
and wrote, `CNT` 0 and the final sum in `ACC`. -/
def Obligations.DpassDecodesOneSection : Prop :=
  ∀ (s : State) (imm : Word), s.modv = true → s.ptLen ≤ 65535 → Memory.wf s.pt = true → s.cur.toNat < 410 →
    s.cur.toNat + 1 + 51 * sectionChunks s s.cur.toNat ≤ 410 →
    imm.toNat + 50 * sectionChunks s s.cur.toNat ≤ s.ptLen →
    ∃ t, exec (.dpass imm) s = .next t ∧
      t.cur.toNat = s.cur.toNat + 1 + 51 * sectionChunks s s.cur.toNat ∧
      t.out.toNat = imm.toNat + 50 * sectionChunks s s.cur.toNat ∧
      t.cnt = 0#8 ∧ t.acc = payloadSum s.ct s.n (s.cur.toNat + 1) (50 * sectionChunks s s.cur.toNat) ∧
      (∀ a, memRead t.pt a =
        if imm.toNat ≤ a ∧ a < imm.toNat + 50 * sectionChunks s s.cur.toNat then
          payloadSum s.ct s.n (s.cur.toNat + 1) (a - imm.toNat + 1)
        else memRead s.pt a) ∧
      t.rf = s.rf ∧ KeepsRegs s t ∧ KeepsModulus s t ∧ KeepsRecord s t ∧ KeepsCt s t ∧ KeepsRest s t ∧
      t.pass = s.pass

/-- 43_chunk_decoder.md R172, R173, R176: after a completed `DPASS` each error flag is set exactly when it was set
before or its condition holds: of some chunk, of some cube, of the final sum. -/
def Obligations.DpassRecordsDecodeErrors : Prop :=
  ∀ (s : State) (imm : Word), s.modv = true → s.ptLen ≤ 65535 → s.cur.toNat < 410 →
    s.cur.toNat + 1 + 51 * sectionChunks s s.cur.toNat ≤ 410 →
    imm.toNat + 50 * sectionChunks s s.cur.toNat ≤ s.ptLen →
    ∃ t, exec (.dpass imm) s = .next t ∧
      (t.estruct = true ↔ s.estruct = true ∨
        someStructViolation s.ct s.n (s.cur.toNat + 1) (sectionChunks s s.cur.toNat)) ∧
      (t.epad = true ↔ s.epad = true ∨
        somePadViolation s.ct s.n (s.cur.toNat + 1) (sectionChunks s s.cur.toNat)) ∧
      (t.esum = true ↔ s.esum = true ∨
        payloadSum s.ct s.n (s.cur.toNat + 1) (50 * sectionChunks s s.cur.toNat) ≠ 0#8)

/-- 43_chunk_decoder.md R177, R180: a `DPASS` whose counter byte, chunks or output do not fit faults with `BOUNDS` and
changes nothing else. -/
def Obligations.DpassOutOfBoundsFaults : Prop :=
  ∀ (s : State) (imm : Word), s.modv = true →
    (410 ≤ s.cur.toNat ∨ 410 < s.cur.toNat + 1 + 51 * sectionChunks s s.cur.toNat ∨
      s.ptLen < imm.toNat + 50 * sectionChunks s s.cur.toNat) →
    exec (.dpass imm) s = .next (withRecord s .bounds (encode (.dpass imm)))

/-- 43_chunk_decoder.md R181: a `DECRYPT` whose two sections fit completes: the first from CT address 0 to PT offset 0,
the second from where the first stopped to PT offset 256, with a fresh error record. -/
def Obligations.DecryptDecodesBothSections : Prop :=
  ∀ (s : State) (n1 n2 : Nat), s.modv = true → s.ptLen ≤ 65535 → Memory.wf s.pt = true →
    n1 = sectionChunks s 0 → n2 = sectionChunks s (1 + 51 * n1) →
    2 + 51 * (n1 + n2) ≤ 410 → 50 * n1 ≤ s.ptLen → 256 + 50 * n2 ≤ s.ptLen →
    ∃ t, exec .decrypt s = .next t ∧
      t.cur.toNat = 2 + 51 * (n1 + n2) ∧ t.out.toNat = 256 + 50 * n2 ∧ t.cnt = 0#8 ∧
      t.acc = payloadSum s.ct s.n (2 + 51 * n1) (50 * n2) ∧
      (∀ a, memRead t.pt a =
        if 256 ≤ a ∧ a < 256 + 50 * n2 then payloadSum s.ct s.n (2 + 51 * n1) (a - 256 + 1)
        else if a < 50 * n1 then payloadSum s.ct s.n 1 (a + 1)
        else memRead s.pt a) ∧
      (t.estruct = true ↔
        someStructViolation s.ct s.n 1 n1 ∨ someStructViolation s.ct s.n (2 + 51 * n1) n2) ∧
      (t.epad = true ↔ somePadViolation s.ct s.n 1 n1 ∨ somePadViolation s.ct s.n (2 + 51 * n1) n2) ∧
      (t.esum = true ↔ payloadSum s.ct s.n 1 (50 * n1) ≠ 0#8 ∨
        payloadSum s.ct s.n (2 + 51 * n1) (50 * n2) ≠ 0#8) ∧
      t.rf = s.rf ∧ KeepsRegs s t ∧ KeepsModulus s t ∧ KeepsRecord s t ∧ KeepsCt s t ∧ KeepsRest s t

/-- 43_chunk_decoder.md R181, 60_exceptions.md R226: a `DECRYPT` whose first section does not fit faults with `BOUNDS`,
the error flags cleared and `CUR` 0, everything else the host can see as it was. -/
def Obligations.DecryptFirstPassOutOfBounds : Prop :=
  ∀ s : State, s.modv = true →
    410 < 1 + 51 * sectionChunks s 0 ∨ s.ptLen < 50 * sectionChunks s 0 →
    ∃ t, exec .decrypt s = .next t ∧ t.fault = true ∧ t.cause = .bounds ∧ t.fcmd = 0xD000#16 ∧
      t.estruct = false ∧ t.epad = false ∧ t.esum = false ∧ t.cur = 0#16 ∧
      t.out = s.out ∧ t.cnt = s.cnt ∧ t.acc = s.acc ∧ t.rf = s.rf ∧
      KeepsRegs s t ∧ KeepsModulus s t ∧ KeepsCt s t ∧ KeepsPt s t ∧ KeepsRest s t

/-- 43_chunk_decoder.md R181, 60_exceptions.md R226: a `DECRYPT` whose first section fits and whose second does not
faults with `BOUNDS` with the whole first pass done. -/
def Obligations.DecryptSecondPassOutOfBounds : Prop :=
  ∀ (s : State) (n1 : Nat), s.modv = true → s.ptLen ≤ 65535 → Memory.wf s.pt = true → n1 = sectionChunks s 0 →
    1 + 51 * n1 ≤ 410 → 50 * n1 ≤ s.ptLen →
    (410 < 2 + 51 * (n1 + sectionChunks s (1 + 51 * n1)) ∨
      s.ptLen < 256 + 50 * sectionChunks s (1 + 51 * n1)) →
    ∃ t, exec .decrypt s = .next t ∧ t.fault = true ∧ t.cause = .bounds ∧ t.fcmd = 0xD000#16 ∧
      t.cur.toNat = 1 + 51 * n1 ∧ t.out.toNat = 50 * n1 ∧ t.cnt = 0#8 ∧ t.acc = payloadSum s.ct s.n 1 (50 * n1) ∧
      (∀ a, memRead t.pt a = if a < 50 * n1 then payloadSum s.ct s.n 1 (a + 1) else memRead s.pt a) ∧
      (t.estruct = true ↔ someStructViolation s.ct s.n 1 n1) ∧
      (t.epad = true ↔ somePadViolation s.ct s.n 1 n1) ∧
      (t.esum = true ↔ payloadSum s.ct s.n 1 (50 * n1) ≠ 0#8) ∧
      t.rf = s.rf ∧ KeepsRegs s t ∧ KeepsModulus s t ∧ KeepsCt s t ∧ KeepsRest s t

/-- 43_chunk_decoder.md R182, R183: from `D_IDLE`, with a modulus loaded, the state machine of R182 started by `DPASS`
ends, and where it ends is the meaning of `DPASS`. The equality is of whole states, so it covers the model's choices
too: the free values in the scratch with their counter (entry 4). -/
def Obligations.FsmOfDpassAgrees : Prop :=
  ∀ (s : State) (imm : Word), s.modv = true → s.dst = .dIdle → s.ptLen ≤ 65535 →
    fsmRun (.dpass imm) 4096 (fsmStartDpass imm s) = some (exec (.dpass imm) s)

/-- 43_chunk_decoder.md R182, R183: from `D_IDLE`, with a modulus loaded, the state machine of R182 started by
`DECRYPT` ends, and where it ends is the meaning of `DECRYPT`. The equality is of whole states, so it covers the model's
choices too: the free values in the scratch with their counter (entry 4) and the pass index left behind (entry 9). -/
def Obligations.FsmOfDecryptAgrees : Prop :=
  ∀ s : State, s.modv = true → s.dst = .dIdle → s.ptLen ≤ 65535 →
    fsmRun .decrypt 4096 (fsmStartDecrypt s) = some (exec .decrypt s)

/-- 44_system_host.md R201: `CLRERR` (the word 0xD800) completes from every state, clears the three error flags, so that `DFAIL` reads 0,
and changes nothing else. -/
def Obligations.ClrerrClearsTheErrorFlags : Prop :=
  encode .clrerr = 0xD800#16 ∧
  ∀ s : State,
    ∃ t, exec .clrerr s = .next t ∧ t.estruct = false ∧ t.epad = false ∧ t.esum = false ∧ dfail t = false ∧
      t.rf = s.rf ∧ KeepsRegs s t ∧ KeepsModulus s t ∧ KeepsRecord s t ∧ KeepsDecoder s t ∧ KeepsCt s t ∧
      KeepsPt s t ∧ KeepsRest s t ∧ t.pass = s.pass

/-! ### Byte passes -/

/-- 40_bigint_primitives.md R103, 42_cuber.md R150: the add-with-carry byte pass gives the bytes of the sum modulo
`256^m` and its carry; of a value with itself, those of `double`, which does not wrap below a modulus with its top bit
clear. -/
def Obligations.AddPassIsAddition : Prop :=
  ∀ (m : Nat) (A X : BigInt m),
    addPass (toBytes A) (toBytes X) = (toBytes (addM A X).1, (addM A X).2.toNat) ∧
    (addM A X).1.toNat = (A.toNat + X.toNat) % 256 ^ m ∧ (addM A X).2.toNat = (A.toNat + X.toNat) / 256 ^ m ∧
    addPass (toBytes A) (toBytes A) = (toBytes (double A).1, (double A).2.toNat) ∧
    (double A).1.toNat = 2 * A.toNat % 256 ^ m ∧ (double A).2.toNat = 2 * A.toNat / 256 ^ m ∧
    (A.toNat < X.toNat → byteAt X 0 < 0x80#8 → (double A).2 = false ∧ (double A).1.toNat = 2 * A.toNat)

/-- 40_bigint_primitives.md R105: `reduce_once` is the subtract-with-borrow byte pass, committed exactly when no borrow
leaves position 0, which is when the value is at least the modulus; it is total. -/
def Obligations.SubPassIsReduceOnce : Prop :=
  ∀ (m : Nat) (B N : BigInt m),
    (reduceOnce B N).2 = decide ((subPass (toBytes B) (toBytes N)).2 = 0) ∧
    toBytes (reduceOnce B N).1 =
      (if (subPass (toBytes B) (toBytes N)).2 = 0 then (subPass (toBytes B) (toBytes N)).1 else toBytes B) ∧
    (N.toNat ≤ B.toNat → reduceOnce B N = (BitVec.ofNat (8 * m) (B.toNat - N.toNat), true)) ∧
    (B.toNat < N.toNat → reduceOnce B N = (B, false)) ∧
    (2 * N.toNat ≤ B.toNat → N.toNat ≤ (reduceOnce B N).1.toNat) ∧ reduceOnce B (clearBig m) = (B, true)

/-! ### Host -/

/-- 44_system_host.md R202, R203: a host write inside the interface exists, and reading the same address returns the
byte. -/
def Obligations.HostWriteThenReadReturnsTheByte : Prop :=
  ∀ (s : State) (sp : Space) (a : Nat) (v : Byte), Memory.wf s.ct = true → Memory.wf s.pt = true →
    (sp = .reg ∧ a / 64 ≤ 7 ∧ a % 64 ≤ 50 ∨ sp = .ct ∧ a < 410 ∨ sp = .pt ∧ a < s.ptLen) →
    ∃ t, hostStep (.hwr sp a v) s = .next t ∧ hostRead t sp a = some (v.setWidth 16)

/-- 44_system_host.md R202: a host write changes exactly the addressed byte: every other location of every space reads
as before, and the hidden state is as before. -/
def Obligations.HostWriteChangesOnlyItsByte : Prop :=
  ∀ (s t : State) (sp : Space) (a : Nat) (v : Byte), Memory.wf s.ct = true → Memory.wf s.pt = true →
    hostStep (.hwr sp a v) s = .next t →
    (∀ (sp' : Space) (b : Nat), (sp', b) ≠ (sp, a) → hostRead t sp' b = hostRead s sp' b) ∧
      t.scratch = s.scratch ∧ t.pass = s.pass ∧ KeepsRest s t

/-- 44_system_host.md R203, 20_memory.md R51 to R54, 10_state.md R29: a host read of every location of REG (windows 0 to
7, and window 8, which is `N`), CSR, CT and PT answers, with the byte or the whole register at it, and changes nothing
of the engine. That the host's values stand in a list, newest first, is the model's choice (entry 1). -/
def Obligations.HostReadReturnsTheLocation : Prop :=
  ∀ s : State,
    (∀ (i : Reg) (k : Nat), k ≤ 50 → HostReads s .reg (64 * i.val + k) ((byteAt (getReg s i) k).setWidth 16)) ∧
    (∀ k : Nat, k ≤ 50 → HostReads s .reg (0x200 + k) ((byteAt s.n k).setWidth 16)) ∧
    HostReads s .csr 0 (statusWord s) ∧ HostReads s .csr 1 (s.v.setWidth 16) ∧
    HostReads s .csr 2 (s.cnt.setWidth 16) ∧ HostReads s .csr 3 (s.acc.setWidth 16) ∧ HostReads s .csr 4 s.cur ∧
    HostReads s .csr 5 s.out ∧ HostReads s .csr 6 s.fcmd ∧
    (∀ a : Nat, a < 410 → HostReads s .ct a ((memRead s.ct a).setWidth 16)) ∧
    (∀ a : Nat, a < s.ptLen → HostReads s .pt a ((memRead s.pt a).setWidth 16))

/-- 20_memory.md R65, 93_implementation_defined.md U3: every host access outside the listed locations is refused by
name. -/
def Obligations.AccessOutsideTheInterfaceIsRefused : Prop :=
  ∀ (s : State) (a : Nat) (v : Byte),
    (50 < a % 64 ∨ 0x240 ≤ a →
      hostStep (.hrd .reg a) s = .refused (.hostReadOutside .reg a)) ∧
    (50 < a % 64 ∨ 0x200 ≤ a →
      hostStep (.hwr .reg a v) s = .refused (.hostWriteOutside .reg a)) ∧
    (7 ≤ a → hostStep (.hrd .csr a) s = .refused (.hostReadOutside .csr a)) ∧
    hostStep (.hwr .csr a v) s = .refused (.hostWriteOutside .csr a) ∧
    (410 ≤ a → hostStep (.hrd .ct a) s = .refused (.hostReadOutside .ct a) ∧
      hostStep (.hwr .ct a v) s = .refused (.hostWriteOutside .ct a)) ∧
    (s.ptLen ≤ a → hostStep (.hrd .pt a) s = .refused (.hostReadOutside .pt a) ∧
      hostStep (.hwr .pt a v) s = .refused (.hostWriteOutside .pt a))

/-- 10_state.md R24, R29, 60_exceptions.md R221: the control and status registers, `STATUS` bit by bit. -/
def Obligations.CsrsReadTheirRegisters : Prop :=
  ∀ s : State,
    (∃ w : Word, hostRead s .csr 0 = some w ∧ w.getLsbD 0 = s.modv ∧ w.getLsbD 1 = s.rf ∧ w.getLsbD 2 = s.estruct ∧
      w.getLsbD 3 = s.epad ∧ w.getLsbD 4 = s.esum ∧ w.getLsbD 5 = (s.estruct || s.epad || s.esum) ∧
      w.getLsbD 6 = s.fault ∧ w.getLsbD 7 = false ∧
      (w.extractLsb' 8 4).toNat = (match s.cause with
        | .none => 0 | .illegal => 1 | .aliased => 2 | .nomod => 3 | .modinv => 4 | .bounds => 5) ∧
      w.extractLsb' 12 4 = 0#4) ∧
    hostRead s .csr 1 = some (s.v.setWidth 16) ∧ hostRead s .csr 2 = some (s.cnt.setWidth 16) ∧
    hostRead s .csr 3 = some (s.acc.setWidth 16) ∧ hostRead s .csr 4 = some s.cur ∧
    hostRead s .csr 5 = some s.out ∧ hostRead s .csr 6 = some s.fcmd

/-- 70_reset_and_hazards.md R251, 10_state.md R35: a reset from any state leaves the values of the table, whatever the
unspecified contents become. That `PT_LEN` stays is the model's choice (entry 5). -/
def Obligations.ResetLeavesTheTable : Prop :=
  ∀ s : State,
    ∃ t, hostStep .reset s = .next t ∧ t.modv = false ∧ t.rf = false ∧ t.estruct = false ∧ t.epad = false ∧
      t.esum = false ∧ t.fault = false ∧ t.cause = .none ∧ t.fcmd = 0#16 ∧ t.cnt = 0#8 ∧ t.acc = 0#8 ∧
      t.cur = 0#16 ∧ t.out = 0#16 ∧ t.dst = .dIdle ∧ statusWord t = 0x0000#16 ∧ t.ptLen = s.ptLen

/-! ### The whole machine -/

/-- The invariant of Safety.lean holds after reset. The contents and `PT_LEN` there are the model's choice (entries 2,
3, 5). -/
def Obligations.ResetStateIsGood : Prop := State.reset.Inv

/-- The invariant of Safety.lean (10_state.md R22, R23, R24, R29, R32; 20_memory.md R53, R54) is kept by every step:
by every command, host access and reset. -/
def Obligations.EveryStepKeepsTheInvariant : Prop :=
  ∀ s t : State, s.Inv → step s = .next t → t.Inv

/-- 20_memory.md R61, 70_reset_and_hazards.md R260: no step stops at an engine access outside CT or PT, and a step whose
host operation keeps to the locations of 20_memory.md R51 to R54 gives a next state. The ranges are those written out
in Safety.lean: reads of REG windows 0 to 8, writes of windows 0 to 7, both at positions 0 to 50; reads of CSR 0 to 6;
CT below 410; PT below `PT_LEN`. -/
def Obligations.NoStepLeavesTheMemories : Prop :=
  ∀ s : State, s.ptLen ≤ 65535 →
    (∀ r, step s ≠ .fault r) ∧
      ((∀ op rest, s.port = op :: rest → op.inInterface s = true) → ∃ t, step s = .next t)

/-- 10_state.md R27, 60_exceptions.md R227: while `FAULT` is 1 every step but a reset keeps the fault record. -/
def Obligations.OnlyResetClearsTheFaultRecord : Prop :=
  ∀ (s t : State), s.ptLen ≤ 65535 → s.fault = true → (∀ rest, s.port ≠ .reset :: rest) → step s = .next t → KeepsRecord s t

/-- 10_state.md R22, R23: no step but a completing `LDN` or a reset changes `N`, `V` or `MODV`. -/
def Obligations.OnlyLdnWritesTheModulus : Prop :=
  ∀ (s t : State), s.ptLen ≤ 65535 → (∀ rest, s.port ≠ .reset :: rest) →
    (∀ w rest rs1, s.port = .cmd w :: rest → decode w ≠ .ok (.ldn rs1)) → step s = .next t → KeepsModulus s t

/-- 10_state.md R25: no step but `RED` or a reset changes `RF`. -/
def Obligations.OnlyRedWritesRf : Prop :=
  ∀ (s t : State), s.ptLen ≤ 65535 → (∀ rest, s.port ≠ .reset :: rest) →
    (∀ w rest rd, s.port = .cmd w :: rest → decode w ≠ .ok (.red rd)) → step s = .next t → t.rf = s.rf

/-- 10_state.md R26: a recorded decode error stays recorded through every step but `CLRERR`, `DECRYPT` and reset, and
no step but `DPASS` and `DECRYPT` records one. -/
def Obligations.DecodeErrorsAreSticky : Prop :=
  ∀ (s t : State), s.ptLen ≤ 65535 → (∀ rest, s.port ≠ .reset :: rest) →
    (∀ w rest, s.port = .cmd w :: rest → decode w ≠ .ok .clrerr ∧ decode w ≠ .ok .decrypt) → step s = .next t →
    ((s.estruct = true → t.estruct = true) ∧ (s.epad = true → t.epad = true) ∧ (s.esum = true → t.esum = true)) ∧
    ((∀ w rest imm, s.port = .cmd w :: rest → decode w ≠ .ok (.dpass imm)) → KeepsErrors s t)

/-- 10_state.md R33, R34, 20_memory.md R50: no command changes CT, and none but `DPASS` and `DECRYPT` changes PT. -/
def Obligations.CommandsKeepTheMemories : Prop :=
  ∀ (s t : State) (i : Instr), s.ptLen ≤ 65535 → exec i s = .next t →
    KeepsCt s t ∧ ((∀ imm, i ≠ .dpass imm) → i ≠ .decrypt → KeepsPt s t)

/-- 10_state.md R21, 30_encoding.md R86: no command writes a general register that its word does not name as the
destination; `LDN`, `SETCUR`, `DPASS`, `DECRYPT`, `CLRERR` and `NOP` write none. -/
def Obligations.OnlyTheNamedRegisterChanges : Prop :=
  ∀ (s t : State) (i : Instr) (r : Reg), s.ptLen ≤ 65535 → exec i s = .next t → getReg t r ≠ getReg s r →
    i = .clr r ∨ i = .one r ∨ (∃ a, i = .cpy r a) ∨ i = .dbl r ∨ i = .red r ∨ (∃ a, i = .tomont r a) ∨
      (∃ a b, i = .mmul r a b) ∨ (∃ a b, i = .mexp r a b) ∨ (∃ a, i = .frommont r a) ∨
      (∃ a b, i = .modexp r a b) ∨ (∃ a b, i = .modmul r a b) ∨ (∃ a, i = .cube r a)

/-- 10_state.md R31, 70_reset_and_hazards.md R255: no command's result depends on the scratch contents it finds: with
other contents it reaches the same state, up to the scratch itself. -/
def Obligations.ScratchContentsNeverMatter : Prop :=
  ∀ (s t' : State) (i : Instr) (x : Scratch), s.ptLen ≤ 65535 → exec i { s with scratch := x } = .next t' →
    ∃ t, exec i s = .next t ∧ t' = { t with scratch := t'.scratch }

/-! ### What the cuber guarantees, and the document's entry points -/

/-- 42_cuber.md R155, every length `m`: on the correctness domain the accumulator is below `N` before every bit, no carry
leaves the doubling or the addition of that bit, and after it the accumulator is what the rule gives; so the product and
the cube are exact, for every multiplier, and with `4N < 256^m` the cube is `mod_exp` with exponent 3 (41_montgomery.md
R132, `N` odd). A first byte with its two top bits clear is enough for both bounds. Outside the domain, with the modulus
condition of 10_state.md R22 still met, the result can differ from the product. -/
def Obligations.CuberCorrectnessDomain : Prop :=
  (∀ (m : Nat) (X Y N : BigInt m), cuberDomain X N →
    (∀ t < 8 * m,
      let acc := modmulAcc X Y N t
      acc.toNat < N.toNat ∧ (double acc).2 = false ∧ (double acc).1.toNat = 2 * acc.toNat ∧
        (addM (double acc).1 X).2 = false ∧ (addM (double acc).1 X).1.toNat = 2 * acc.toNat + X.toNat ∧
        2 * acc.toNat + X.toNat ≤ 3 * N.toNat - 3 ∧
        (modmulAcc X Y N (t + 1)).toNat = (2 * acc.toNat + (msbit Y t).toNat * X.toNat) % N.toNat) ∧
    (modmul X Y N).toNat = X.toNat * Y.toNat % N.toNat ∧ (cube X N).toNat = X.toNat ^ 3 % N.toNat ∧
    (N.toNat % 2 = 1 → 4 * N.toNat < 256 ^ m → cube X N = modExp X (BitVec.ofNat (8 * m) 3) N)) ∧
  (∀ (m : Nat) (N : BigInt m), 0 < m → byteAt N 0 < 0x40#8 → 3 * N.toNat ≤ 256 ^ m ∧ 4 * N.toNat < 256 ^ m) ∧
  ∃ (m : Nat) (X Y N : BigInt m), X.toNat < N.toNat ∧ Y.toNat < N.toNat ∧ byteAt N 0 < 0x80#8 ∧ N.toNat % 2 = 1 ∧
    256 ^ m < 3 * N.toNat ∧ (modmul X Y N).toNat ≠ X.toNat * Y.toNat % N.toNat

/-- 44_system_host.md R206: from every state, what the host obtains from its sequence for `mod_exp` is the 51 bytes of
`mod_exp` of its three arguments, position 0 first, when the modulus is one that `LDN` accepts (41_montgomery.md R121)
and the engine has not faulted; otherwise `LDN` faults or is ignored, no `MODEXP` runs, and they are the bytes that `b3`
held. That the host's operations and values stand in lists is the model's choice (entry 1). -/
def Obligations.ModExpEntryPointReturnsModExp : Prop :=
  ∀ (s : State) (msg exp mod : Big),
    (s.fault = false → byteAt mod 0 < 0x80#8 → mod.toNat % 2 = 1 →
      modExpEntry msg exp mod s = some ((List.range 51).map (byteAt (modExp msg exp mod)))) ∧
    (s.fault = true ∨ 0x80#8 ≤ byteAt mod 0 ∨ mod.toNat % 2 = 0 →
      modExpEntry msg exp mod s = some ((List.range 51).map (byteAt (getReg s 3))))

/-- 44_system_host.md R206: what the host obtains from its sequence for `lynx_decrypt`, with PT of at least 410 bytes,
is PT, `DFAIL` and `FAULT` as the word of `DECRYPT` leaves them with `enc` in CT: the bytes that no pass wrote are what
PT held. With a shorter PT one of the reads lies outside the interface, and there are no outputs. That the host's
operations and values stand in lists is the model's choice (entry 1). -/
def Obligations.LynxDecryptEntryPointReturnsPlainAndFailed : Prop :=
  ∀ (s : State) (enc : Vector Byte 410), s.ptLen ≤ 65535 → Memory.wf s.ct = true → Memory.below 410 s.ct = true →
    (410 ≤ s.ptLen →
      ∃ t, command 0xD000#16 (decryptInput enc s) = .next t ∧
        lynxDecryptEntry enc s =
          some ⟨(List.range 410).map (memRead t.pt), (t.estruct || t.epad || t.esum).toNat, t.fault.toNat⟩) ∧
    (s.ptLen < 410 → lynxDecryptEntry enc s = none)
end

