-- ==== Sys2Proof/Laws/BigInt.lean ====
section
/-! SUPPORT. What each function on `BigInt(m)` does to values: one lemma per function, which later proofs cite. -/

namespace Sys2Proof.Machine

variable {m : Nat}

theorem two_pow_eight_mul (m : Nat) : 2 ^ (8 * m) = 256 ^ m := by
  rw [pow_mul]; norm_num

/-- `val(X) < 256^m` (00_scope.md R7). -/
theorem toNat_lt (X : BigInt m) : X.toNat < 256 ^ m := two_pow_eight_mul m ▸ X.isLt

/-- `val(big_m(n)) = n mod 256^m` (00_scope.md R7). -/
theorem ofNat_val (m n : Nat) : (BitVec.ofNat (8 * m) n).toNat = n % 256 ^ m := by
  rw [BitVec.toNat_ofNat, two_pow_eight_mul]

/-- Working the number out first changes nothing. -/
theorem withValue_eq {α : Type} (X : BigInt m) (k : BigInt m → α) : withValue X k = k X := by
  have h : BitVec.ofNat (8 * m) X.toNat = X := by simp
  unfold withValue
  split <;> rename_i hn
  · rw [← hn, h]
  · rw [← Nat.succ_eq_add_one, ← hn, h]

/-- A loop of the pseudocode is a fold. -/
theorem loop_eq (f : BigInt m → Nat → BigInt m) (ts : List Nat) (acc : BigInt m) :
    loop f ts acc = ts.foldl f acc := by
  induction ts generalizing acc with
  | nil => rfl
  | cons t ts ih => rw [loop, withValue_eq, ih, List.foldl_cons]

/-- The byte at position `k` is the digit of weight `256^(m-1-k)` (00_scope.md R7). -/
theorem byteAt_val (X : BigInt m) (k : Nat) :
    (byteAt X k).toNat = X.toNat / 256 ^ (m - 1 - k) % 256 := by
  simp [byteAt, BitVec.extractLsb'_toNat, Nat.shiftRight_eq_div_pow, two_pow_eight_mul]

/-- `msbit(X, t)` is the bit of weight `2^(8m-1-t)` (00_scope.md R7). -/
theorem msbit_eq_testBit (X : BigInt m) (t : Nat) (ht : t < 8 * m) :
    msbit X t = X.toNat.testBit (8 * m - 1 - t) := by
  have h1 : 8 * (m - 1 - t / 8) + (7 - t % 8) = 8 * m - 1 - t := by omega
  have h2 : 7 - t % 8 < 8 := by omega
  rw [msbit, byteAt, BitVec.getLsbD_extractLsb']
  simp [h2, h1, BitVec.testBit_toNat]

/-- Every bit, counted from the least significant, of `X` with one byte replaced. -/
theorem getLsbD_setByteAt (X : BigInt m) (k : Nat) (v : Byte) (i : Nat) (hi : i < 8 * m) :
    (setByteAt X k v).getLsbD i =
      if 8 * (m - 1 - k) ≤ i ∧ i < 8 * (m - 1 - k) + 8 then v.getLsbD (i - 8 * (m - 1 - k)) else X.getLsbD i := by
  have hff : ∀ j, (0xFF#8).getLsbD j = decide (j < 8) := by
    intro j
    by_cases h : j < 8
    · interval_cases j <;> rfl
    · simp [h, BitVec.getLsbD_of_ge _ _ (Nat.le_of_not_lt h)]
  by_cases h1 : 8 * (m - 1 - k) ≤ i
  · by_cases h2 : i < 8 * (m - 1 - k) + 8
    · simp [setByteAt, hff, hi, h1, h2, show ¬ i < 8 * (m - 1 - k) by omega,
        show i - 8 * (m - 1 - k) < 8 by omega]
    · have h3 : v.getLsbD (i - 8 * (m - 1 - k)) = false := BitVec.getLsbD_of_ge _ _ (by omega)
      simp [setByteAt, hff, hi, h1, h2, h3, show ¬ i - 8 * (m - 1 - k) < 8 by omega]
  · simp [setByteAt, hi, h1, show i < 8 * (m - 1 - k) by omega]

/-- A byte read after a byte write (00_scope.md R7). -/
theorem byteAt_setByteAt (X : BigInt m) (k j : Nat) (hk : k < m) (hj : j < m) (v : Byte) :
    byteAt (setByteAt X k v) j = if j = k then v else byteAt X j := by
  apply BitVec.eq_of_getLsbD_eq
  intro i hi
  have hb : 8 * (m - 1 - j) + i < 8 * m := by omega
  rw [byteAt, BitVec.getLsbD_extractLsb', getLsbD_setByteAt _ _ _ _ hb]
  by_cases h : j = k
  · subst h
    simp [hi]
  · have hne : ¬ (8 * (m - 1 - k) ≤ 8 * (m - 1 - j) + i ∧ 8 * (m - 1 - j) + i < 8 * (m - 1 - k) + 8) := by omega
    simp [h, hne, hi, byteAt]

/-- Two BigInts with the same bytes are equal (00_scope.md R7). -/
theorem eq_of_byteAt_eq (X Y : BigInt m) (h : ∀ k < m, byteAt X k = byteAt Y k) : X = Y := by
  apply BitVec.eq_of_getLsbD_eq
  intro i hi
  have hk : m - 1 - i / 8 < m := by omega
  have := congrArg (fun b : Byte => b.getLsbD (i % 8)) (h _ hk)
  simp only [byteAt, BitVec.getLsbD_extractLsb'] at this
  have h1 : 8 * (m - 1 - (m - 1 - i / 8)) + i % 8 = i := by omega
  simpa [h1, show i % 8 < 8 by omega] using this

/-! ### The primitives -/

/-- `double`: twice the value modulo `256^m` (40_bigint_primitives.md R103). -/
theorem double_val (B : BigInt m) : (double B).1.toNat = 2 * B.toNat % 256 ^ m := ofNat_val _ _

/-- `add_m`: the sum modulo `256^m` (42_cuber.md R150). -/
theorem addM_val (A X : BigInt m) : (addM A X).1.toNat = (A.toNat + X.toNat) % 256 ^ m := ofNat_val _ _

/-- `reduce_once`: subtracts exactly when the value is at least the modulus (40_bigint_primitives.md R105). -/
theorem reduceOnce_val (B N : BigInt m) :
    (reduceOnce B N).1.toNat = if N.toNat ≤ B.toNat then B.toNat - N.toNat else B.toNat := by
  unfold reduceOnce
  split
  · have := toNat_lt B
    rw [ofNat_val, Nat.mod_eq_of_lt (by omega)]
  · rfl

/-- The flag of `reduce_once` (40_bigint_primitives.md R105). -/
theorem reduceOnce_flag (B N : BigInt m) : (reduceOnce B N).2 = decide (N.toNat ≤ B.toNat) := by
  unfold reduceOnce
  split <;> simp_all

/-- One conditional subtraction of a value below `2·val(N)` is the remainder (40_bigint_primitives.md R108 (b)). -/
theorem reduceOnce_mod (B N : BigInt m) (h : B.toNat < 2 * N.toNat) :
    (reduceOnce B N).1.toNat = B.toNat % N.toNat := by
  rw [reduceOnce_val]
  split
  · rw [Nat.mod_eq_sub_mod (by omega), Nat.mod_eq_of_lt (by omega)]
  · rw [Nat.mod_eq_of_lt (by omega)]

/-- Two conditional subtractions of a value below `3·val(N)` are the remainder (40_bigint_primitives.md R108 (d)). -/
theorem reduceOnce_twice_mod (B N : BigInt m) (h : B.toNat < 3 * N.toNat) :
    (reduceOnce (reduceOnce B N).1 N).1.toNat = B.toNat % N.toNat := by
  have hr := reduceOnce_val B N
  rw [reduceOnce_mod _ _ (by rw [hr]; split <;> omega), hr]
  split
  · rw [← Nat.mod_eq_sub_mod (by omega)]
  · rfl

/-- Double and reduce once, on a canonical value: the modular doubling (40_bigint_primitives.md R108 (c)). -/
theorem doubleReduce_mod (A N : BigInt m) (hA : A.toNat < N.toNat) (hN : 2 * N.toNat ≤ 256 ^ m) :
    (doubleReduce N A).toNat = 2 * A.toNat % N.toNat := by
  have hd : (double A).1.toNat = 2 * A.toNat := by
    rw [double_val, Nat.mod_eq_of_lt (by omega)]
  rw [doubleReduce, reduceOnce_mod _ _ (by omega), hd]

/-- `to_montgomery` of a canonical value is `B·R mod N`, canonical (41_montgomery.md R122). -/
theorem toMontgomery_mod (B N : BigInt m) (hB : B.toNat < N.toNat) (hN : 2 * N.toNat ≤ 256 ^ m) :
    (toMontgomery B N).toNat = B.toNat * 256 ^ m % N.toNat := by
  have key : ∀ r, ((List.range r).foldl (fun A _ => doubleReduce N A) B).toNat = B.toNat * 2 ^ r % N.toNat := by
    intro r
    induction r with
    | zero => simp [Nat.mod_eq_of_lt hB]
    | succ r ih =>
      rw [List.range_succ, List.foldl_append, List.foldl_cons, List.foldl_nil,
        doubleReduce_mod _ _ (by rw [ih]; exact Nat.mod_lt _ (by omega)) hN, ih, Nat.mul_mod_mod,
        pow_succ]
      congr 1
      ring
  rw [toMontgomery, loop_eq, key, two_pow_eight_mul]

/-- One multiplier bit on a canonical accumulator (42_cuber.md R155). -/
theorem modmulStep_mod (X N acc : BigInt m) (bit : Bool) (hX : X.toNat < N.toNat) (hacc : acc.toNat < N.toNat)
    (hN : 3 * N.toNat ≤ 256 ^ m) :
    (modmulStep X N acc bit).toNat = (2 * acc.toNat + bit.toNat * X.toNat) % N.toNat := by
  have hd : (double acc).1.toNat = 2 * acc.toNat := by
    rw [double_val, Nat.mod_eq_of_lt (by omega)]
  have hs : (if bit then (addM (double acc).1 X).1 else (double acc).1).toNat
      = 2 * acc.toNat + bit.toNat * X.toNat := by
    cases bit with
    | false => simp [hd]
    | true => simp [addM_val, hd]; exact Nat.mod_eq_of_lt (by omega)
  unfold modmulStep
  rw [reduceOnce_twice_mod _ _ (by rw [hs]; cases bit <;> simp <;> omega), hs]

theorem div_two_pow_step (Y t n : Nat) (ht : t < n) :
    Y / 2 ^ (n - (t + 1)) = 2 * (Y / 2 ^ (n - t)) + (Y.testBit (n - 1 - t)).toNat := by
  have h1 : n - t = (n - (t + 1)) + 1 := by omega
  have h2 : n - 1 - t = n - (t + 1) := by omega
  rw [h1, pow_succ, ← Nat.div_div_eq_div_mul, h2, Nat.toNat_testBit]
  omega

/-- Before the first bit the accumulator is 0 (42_cuber.md R151). -/
theorem modmulAcc_zero (X Y N : BigInt m) : modmulAcc X Y N 0 = clearBig m := by
  simp [modmulAcc, loop_eq]

/-- One more bit is one more `modmulStep` (42_cuber.md R151). -/
theorem modmulAcc_succ (X Y N : BigInt m) (t : Nat) :
    modmulAcc X Y N (t + 1) = modmulStep X N (modmulAcc X Y N t) (msbit Y t) := by
  simp [modmulAcc, loop_eq, List.range_succ]

/-- On the correctness domain the accumulator before bit `t` is the multiplicand times the multiplier's bits so far,
modulo `N` (42_cuber.md R155). -/
theorem modmulAcc_mod (X Y N : BigInt m) (h : cuberDomain X N) (t : Nat) (ht : t ≤ 8 * m) :
    (modmulAcc X Y N t).toNat = X.toNat * (Y.toNat / 2 ^ (8 * m - t)) % N.toNat := by
  obtain ⟨hN, hX⟩ := h
  induction t with
  | zero =>
    have h0 : Y.toNat / 2 ^ (8 * m) = 0 := Nat.div_eq_of_lt Y.isLt
    simp [modmulAcc_zero, clearBig, h0]
  | succ t ih =>
    have ih := ih (by omega)
    rw [modmulAcc_succ, modmulStep_mod _ _ _ _ hX (by rw [ih]; exact Nat.mod_lt _ (by omega)) hN, ih,
      msbit_eq_testBit _ _ (by omega), div_two_pow_step _ _ _ (by omega : t < 8 * m)]
    rw [Nat.add_mod, Nat.mul_mod_mod, ← Nat.add_mod]
    congr 1
    ring

/-- `modmul` on its correctness domain is the product modulo `N`, canonical, for every multiplier
(42_cuber.md R155). -/
theorem modmul_mod (X Y N : BigInt m) (hX : X.toNat < N.toNat) (hN : 3 * N.toNat ≤ 256 ^ m) :
    (modmul X Y N).toNat = X.toNat * Y.toNat % N.toNat := by
  rw [modmul, modmulAcc_mod _ _ _ ⟨hN, hX⟩ _ le_rfl]
  simp

/-! ### Montgomery multiplication -/

/-- A reduction round adds a multiple of `N` that clears the next limb (41_montgomery.md R134 (a)). -/
theorem montRound_val (N : BigInt m) (v : Byte) (T : BigInt (2 * m)) (i : Nat) :
    (montRound N v T i).toNat
      = (T.toNat + (montDigit v T i).toNat * N.toNat * 256 ^ i) % 256 ^ (2 * m) := ofNat_val _ _

theorem montDigit_val (v : Byte) (T : BigInt (2 * m)) (i : Nat) (hi : i < 2 * m) :
    (montDigit v T i).toNat = v.toNat * (T.toNat / 256 ^ i) % 256 := by
  have h : 2 * m - 1 - (2 * m - 1 - i) = i := by omega
  rw [montDigit, BitVec.toNat_mul, byteAt_val, h]
  norm_num [Nat.mul_mod_mod]

/-- `V` is the coefficient of `N`, in numbers (10_state.md R23). -/
theorem coefficient_val (N : BigInt m) (v : Byte) (hv : v * byteAt N (m - 1) + 1#8 = 0#8) :
    (v.toNat * N.toNat + 1) % 256 = 0 := by
  have h := congrArg BitVec.toNat hv
  simp only [BitVec.toNat_add, BitVec.toNat_mul, byteAt_val, Nat.sub_self, pow_zero, Nat.div_one] at h
  have h1 : (v.toNat * (N.toNat % 256) % 256 + 1) % 256 = 0 := by simpa using h
  rw [Nat.mul_mod_mod] at h1
  omega

/-- The buffer after `i` rounds: the product plus `q` times `N` modulo `256^(2m)`, its low `i` limbs clear
(41_montgomery.md R134 (a)). -/
theorem montRounds_spec (B C N : BigInt m) (v : Byte) (hv : v * byteAt N (m - 1) + 1#8 = 0#8) (i : Nat)
    (hi : i ≤ m) :
    ∃ q, q < 256 ^ i ∧
      ((List.range i).foldl (montRound N v) (BitVec.ofNat (8 * (2 * m)) (B.toNat * C.toNat))).toNat
        = (B.toNat * C.toNat + q * N.toNat) % 256 ^ (2 * m) ∧
      256 ^ i ∣ ((List.range i).foldl (montRound N v) (BitVec.ofNat (8 * (2 * m)) (B.toNat * C.toNat))).toNat := by
  induction i with
  | zero => exact ⟨0, by simp, by simpa using ofNat_val (2 * m) (B.toNat * C.toNat), by simp⟩
  | succ i ih =>
    obtain ⟨q, hq, hval, t, ht⟩ := ih (by omega)
    rw [List.range_succ, List.foldl_append, List.foldl_cons, List.foldl_nil]
    generalize (List.range i).foldl (montRound N v) (BitVec.ofNat (8 * (2 * m)) (B.toNat * C.toNat)) = T at *
    have he : (montDigit v T i).toNat = v.toNat * t % 256 := by
      rw [montDigit_val _ _ _ (by omega), ht, Nat.mul_div_cancel_left _ (by positivity)]
    set e := (montDigit v T i).toNat with hedef
    have helt : e < 256 := (montDigit v T i).isLt
    refine ⟨q + e * 256 ^ i, ?_, ?_, ?_⟩
    · calc q + e * 256 ^ i < 256 ^ i + e * 256 ^ i := by omega
        _ = (e + 1) * 256 ^ i := by ring
        _ ≤ 256 * 256 ^ i := Nat.mul_le_mul_right _ (by omega)
        _ = 256 ^ (i + 1) := by ring
    · rw [montRound_val, ← hedef, hval, Nat.mod_add_mod]
      congr 1
      ring
    · rw [montRound_val, ← hedef, ht]
      refine (Nat.dvd_mod_iff (pow_dvd_pow 256 (by omega : i + 1 ≤ 2 * m))).2 ?_
      have hlimb : 256 ∣ t + e * N.toNat := by
        have hc := coefficient_val N v hv
        rw [he]
        apply Nat.dvd_of_mod_eq_zero
        have h1 : (t + v.toNat * t % 256 * N.toNat) % 256 = (t * ((v.toNat * N.toNat + 1) % 256)) % 256 := by
          rw [Nat.mul_mod_mod, Nat.add_mod, Nat.mod_mul_mod, ← Nat.add_mod]
          congr 1
          ring
        rw [h1, hc, Nat.mul_zero, Nat.zero_mod]
      obtain ⟨u, hu⟩ := hlimb
      exact ⟨u, by rw [pow_succ]; linear_combination 256 ^ i * hu⟩

/-- After all rounds the low half is zero (41_montgomery.md R134 (a)), and the high half times `R` is the product
plus `q` times `N`, up to a carry lost from `T` (R134 (b), (d)). -/
theorem montMultiply_spec (B C N : BigInt m) (v : Byte) (hv : v * byteAt N (m - 1) + 1#8 = 0#8) :
    ∃ q, q < 256 ^ m ∧
      (montMultiply B C N v).toNat * 256 ^ m = (B.toNat * C.toNat + q * N.toNat) % 256 ^ (2 * m) ∧
      (montBuffer B C N v).toNat % 256 ^ m = 0 := by
  obtain ⟨q, hq, hval, hdvd⟩ := montRounds_spec B C N v hv m le_rfl
  rw [← loop_eq, ← montBuffer] at hdvd hval
  have hlt : (montBuffer B C N v).toNat / 256 ^ m < 256 ^ m := by
    apply Nat.div_lt_of_lt_mul
    calc (montBuffer B C N v).toNat < 256 ^ (2 * m) := toNat_lt _
      _ = 256 ^ m * 256 ^ m := by rw [← pow_add, two_mul]
  have hA : (montMultiply B C N v).toNat = (montBuffer B C N v).toNat / 256 ^ m := by
    simp [montMultiply, BitVec.extractLsb'_toNat, Nat.shiftRight_eq_div_pow, two_pow_eight_mul, Nat.mod_eq_of_lt hlt]
  exact ⟨q, hq, by rw [hA, Nat.div_mul_cancel hdvd, hval], Nat.mod_eq_zero_of_dvd hdvd⟩

/-- Where no carry leaves `T` the result times `R` is exact (41_montgomery.md R134 (b)). -/
theorem montMultiply_exact (B C N : BigInt m) (v : Byte) (hv : v * byteAt N (m - 1) + 1#8 = 0#8)
    (hfit : B.toNat * C.toNat + (256 ^ m - 1) * N.toNat < 256 ^ (2 * m)) :
    ∃ q, q < 256 ^ m ∧ (montMultiply B C N v).toNat * 256 ^ m = B.toNat * C.toNat + q * N.toNat := by
  obtain ⟨q, hq, h, -⟩ := montMultiply_spec B C N v hv
  refine ⟨q, hq, h.trans (Nat.mod_eq_of_lt (lt_of_le_of_lt ?_ hfit))⟩
  exact Nat.add_le_add_left (Nat.mul_le_mul_right _ (by omega)) _

/-- Operands below `2·val(N)` with `4·val(N) < R`: the Montgomery product, below `2·val(N)`
(41_montgomery.md R134 (c)). -/
theorem montMultiply_bounded (B C N : BigInt m) (v : Byte) (hv : v * byteAt N (m - 1) + 1#8 = 0#8)
    (hN : 4 * N.toNat < 256 ^ m) (hB : B.toNat < 2 * N.toNat) (hC : C.toNat < 2 * N.toNat) :
    (montMultiply B C N v).toNat * 256 ^ m ≡ B.toNat * C.toNat [MOD N.toNat] ∧
      (montMultiply B C N v).toNat < 2 * N.toNat := by
  have hBC : B.toNat * C.toNat < 256 ^ m * N.toNat := by
    have h1 : B.toNat * C.toNat ≤ (2 * N.toNat) * (2 * N.toNat) :=
      Nat.mul_le_mul (by omega) (by omega)
    have h2 : (2 * N.toNat) * (2 * N.toNat) = 4 * N.toNat * N.toNat := by ring
    have h3 : 4 * N.toNat * N.toNat < 256 ^ m * N.toNat := Nat.mul_lt_mul_of_pos_right hN (by omega)
    omega
  have hsub : (256 ^ m - 1) * N.toNat = 256 ^ m * N.toNat - N.toNat := by
    rw [Nat.sub_mul, one_mul]
  have hsq : 2 * (256 ^ m * N.toNat) ≤ 256 ^ (2 * m) := by
    rw [two_mul m, pow_add]
    calc 2 * (256 ^ m * N.toNat) = 256 ^ m * (2 * N.toNat) := by ring
      _ ≤ 256 ^ m * 256 ^ m := Nat.mul_le_mul_left _ (by omega)
  obtain ⟨q, hq, h⟩ := montMultiply_exact B C N v hv (by omega)
  refine ⟨?_, ?_⟩
  · rw [h]
    simp [Nat.ModEq]
  · have hqN : q * N.toNat < 256 ^ m * N.toNat := Nat.mul_lt_mul_of_pos_right hq (by omega)
    have : (montMultiply B C N v).toNat * 256 ^ m < (2 * N.toNat) * 256 ^ m := by
      rw [h]; calc _ < 256 ^ m * N.toNat + 256 ^ m * N.toNat := by omega
        _ = (2 * N.toNat) * 256 ^ m := by ring
    exact Nat.lt_of_mul_lt_mul_right this

/-- `R` is invertible modulo an odd `N`. -/
theorem coprime_radix (N : BigInt m) (hodd : N.toNat % 2 = 1) : Nat.Coprime N.toNat (256 ^ m) := by
  apply Nat.Coprime.pow_right
  rw [show (256 : Nat) = 2 ^ 8 by norm_num]
  exact Nat.Coprime.pow_right _ (Nat.coprime_two_right.2 (Nat.odd_iff.2 hodd))

/-- A modulus with a coefficient is odd (10_state.md R22, R23). -/
theorem odd_of_coefficient (N : BigInt m) (v : Byte) (hv : v * byteAt N (m - 1) + 1#8 = 0#8) :
    N.toNat % 2 = 1 := by
  have h := coefficient_val N v hv
  rcases Nat.mod_two_eq_zero_or_one N.toNat with h0 | h1
  · obtain ⟨k, hk⟩ := Nat.dvd_of_mod_eq_zero h0
    rw [hk, show v.toNat * (2 * k) = 2 * (v.toNat * k) by ring] at h
    omega
  · exact h1

end Sys2Proof.Machine
end

