-- ==== Sys2Proof/Laws/Memory.lean ====
section
/-! SUPPORT. The laws of byte memories: read after write, the canonical form, and that equal contents are equal data. -/

namespace Sys2Proof.Machine

/-- The entries after the first have larger addresses. -/
theorem wf_cons (a : Nat) (v : Byte) (rest : Memory) :
    Memory.wf ((a, v) :: rest) = true ↔
      v ≠ Config.unlistedByte ∧ (∀ c ∈ rest, a < c.1) ∧ Memory.wf rest = true := by
  simp [Memory.wf, and_assoc]

theorem below_iff (size : Nat) (mem : Memory) :
    Memory.below size mem = true ↔ ∀ c ∈ mem, c.1 < size := by
  simp [Memory.below]

/-- An address below every entry is not listed. -/
theorem memRead_of_lt (mem : Memory) (a : Nat) (h : ∀ c ∈ mem, a < c.1) :
    memRead mem a = Config.unlistedByte := by
  induction mem with
  | nil => rfl
  | cons c rest ih =>
    obtain ⟨b, w⟩ := c
    have hb : a < b := h (b, w) (by simp)
    simp only [memRead, if_neg (by omega : ¬ b = a)]
    exact ih fun c hc => h c (by simp [hc])

/-- A read after a write: the written byte at its address, every other byte as before. -/
theorem memRead_memWrite (mem : Memory) (hwf : Memory.wf mem = true) (a b : Nat) (v : Byte) :
    memRead (memWrite mem a v) b = if b = a then v else memRead mem b := by
  induction mem with
  | nil =>
    by_cases hb : b = a
    · subst hb
      by_cases hv : v = Config.unlistedByte <;> simp [memWrite, memRead, hv]
    · have hab : ¬ a = b := fun h => hb h.symm
      by_cases hv : v = Config.unlistedByte <;> simp [memWrite, memRead, hv, hb, hab]
  | cons c rest ih =>
    obtain ⟨d, w⟩ := c
    obtain ⟨-, hlt, hrest⟩ := (wf_cons d w rest).1 hwf
    have hd : memRead rest d = Config.unlistedByte := memRead_of_lt rest d hlt
    have ha : a < d → memRead rest a = Config.unlistedByte := fun h =>
      memRead_of_lt rest a fun c hc => h.trans (hlt c hc)
    by_cases h1 : a < d
    · by_cases hv : v = Config.unlistedByte <;> by_cases hb : b = a <;> by_cases hdb : d = b <;>
        simp_all [memWrite, memRead] <;> omega
    · by_cases h2 : a = d
      · subst h2
        by_cases hb : b = a
        · subst hb
          by_cases hv : v = Config.unlistedByte <;> simp [memWrite, memRead, hv, hd]
        · have hab : ¬ a = b := fun h => hb h.symm
          by_cases hv : v = Config.unlistedByte <;> simp [memWrite, memRead, hv, hb, hab]
      · simp only [memWrite, if_neg h1, if_neg h2, memRead, ih hrest]
        by_cases hb : b = a
        · subst hb; simp [show ¬ d = b from fun h => h2 h.symm]
        · simp [hb]

/-- The addresses a write leaves listed: old ones, or the written one. -/
theorem mem_memWrite (mem : Memory) (a : Nat) (v : Byte) (c : Host.Cell) (h : c ∈ memWrite mem a v) :
    c ∈ mem ∨ c.1 = a := by
  induction mem with
  | nil => by_cases hv : v = Config.unlistedByte <;> simp_all [memWrite]
  | cons d rest ih =>
    obtain ⟨d, w⟩ := d
    simp only [memWrite] at h
    split at h
    · split at h
      · exact .inl h
      · rcases List.mem_cons.1 h with rfl | h
        · exact .inr rfl
        · exact .inl h
    · split at h
      · split at h
        · exact .inl (by simp [h])
        · rcases List.mem_cons.1 h with rfl | h
          · exact .inr rfl
          · exact .inl (by simp [h])
      · rcases List.mem_cons.1 h with rfl | h
        · exact .inl (by simp)
        · rcases ih h with h | h
          · exact .inl (by simp [h])
          · exact .inr h

/-- A write keeps the canonical form. -/
theorem memWrite_wf (mem : Memory) (hwf : Memory.wf mem = true) (a : Nat) (v : Byte) :
    Memory.wf (memWrite mem a v) = true := by
  induction mem with
  | nil => by_cases hv : v = Config.unlistedByte <;> simp_all [memWrite, Memory.wf]
  | cons c rest ih =>
    obtain ⟨d, w⟩ := c
    obtain ⟨hw, hlt, hrest⟩ := (wf_cons d w rest).1 hwf
    simp only [memWrite]
    split_ifs with h1 hv h2 hv
    · exact hwf
    · refine (wf_cons a v _).2 ⟨hv, ?_, hwf⟩
      intro c hc
      rcases List.mem_cons.1 hc with rfl | hc
      · exact h1
      · exact h1.trans (hlt c hc)
    · exact hrest
    · subst h2; exact (wf_cons a v _).2 ⟨hv, hlt, hrest⟩
    · refine (wf_cons d w _).2 ⟨hw, ?_, ih hrest⟩
      intro c hc
      rcases mem_memWrite rest a v c hc with hc | hc
      · exact hlt c hc
      · omega

/-- A write below `size` keeps every listed address below `size`. -/
theorem memWrite_below (size : Nat) (mem : Memory) (h : Memory.below size mem = true) (a : Nat) (ha : a < size)
    (v : Byte) : Memory.below size (memWrite mem a v) = true := by
  rw [below_iff] at h ⊢
  intro c hc
  rcases mem_memWrite mem a v c hc with hc | hc
  · exact h c hc
  · omega

/-- Two canonical memories that read alike everywhere are equal. -/
theorem memory_ext (m1 m2 : Memory) (h1 : Memory.wf m1 = true) (h2 : Memory.wf m2 = true)
    (h : ∀ a, memRead m1 a = memRead m2 a) : m1 = m2 := by
  induction m1 generalizing m2 with
  | nil =>
    cases m2 with
    | nil => rfl
    | cons c rest =>
      obtain ⟨hw, -, -⟩ := (wf_cons c.1 c.2 rest).1 h2
      exact absurd (by simpa [memRead] using (h c.1).symm) hw
  | cons c r1 ih =>
    obtain ⟨hw1, hlt1, hr1⟩ := (wf_cons c.1 c.2 r1).1 h1
    cases m2 with
    | nil => exact absurd (by simpa [memRead] using h c.1) hw1
    | cons d r2 =>
      obtain ⟨a, v⟩ := c
      obtain ⟨b, w⟩ := d
      obtain ⟨hw2, hlt2, hr2⟩ := (wf_cons b w r2).1 h2
      have hab : a = b := by
        rcases Nat.lt_trichotomy a b with hl | he | hl
        · refine absurd ?_ hw1
          have := h a
          simpa [memRead, show ¬ b = a by omega,
            memRead_of_lt r2 a fun c hc => hl.trans (hlt2 c hc)] using this
        · exact he
        · refine absurd ?_ hw2
          have := h b
          simpa [memRead, show ¬ a = b by omega,
            memRead_of_lt r1 b fun c hc => hl.trans (hlt1 c hc)] using this.symm
      subst hab
      have hvw : v = w := by simpa [memRead] using h a
      subst hvw
      have : r1 = r2 := by
        refine ih r2 hr1 hr2 fun x => ?_
        by_cases hx : a = x
        · subst hx
          rw [memRead_of_lt r1 a hlt1, memRead_of_lt r2 a hlt2]
        · simpa [memRead, hx] using h x
      rw [this]

/-- `memOf` is canonical, stays below its size, and reads as its function there. -/
theorem memOf_spec (size : Nat) (f : Nat → Byte) :
    Memory.wf (memOf size f) = true ∧ Memory.below size (memOf size f) = true ∧
      ∀ a, memRead (memOf size f) a = if a < size then f a else Config.unlistedByte := by
  induction size with
  | zero => exact ⟨rfl, rfl, fun a => by simp [memOf, memRead]⟩
  | succ n ih =>
    obtain ⟨hwf, hbl, hrd⟩ := ih
    have hstep : memOf (n + 1) f = memWrite (memOf n f) n (f n) := by
      simp [memOf, List.range_succ]
    rw [hstep]
    refine ⟨memWrite_wf _ hwf _ _, ?_, fun a => ?_⟩
    · refine memWrite_below _ _ ?_ _ (by omega) _
      rw [below_iff] at hbl ⊢
      exact fun c hc => (hbl c hc).trans (by omega)
    · rw [memRead_memWrite _ hwf, hrd]
      by_cases h : a = n
      · subst h; simp
      · by_cases h2 : a < n
        · simp [h, h2, show a < n + 1 by omega]
        · simp [h, h2, show ¬ a < n + 1 by omega]

end Sys2Proof.Machine
end

