-- ==== Sys2Proof/Laws/State.lean ====
section
/-! SUPPORT. One lemma per field of State for each named update, so that no later proof unfolds a record update. -/

namespace Sys2Proof.Machine

variable (s : State)

/-! ### `setReg` -/

@[simp] theorem setReg_regs (i : Reg) (X : Big) : (setReg s i X).regs = s.regs.set i X := rfl
@[simp] theorem setReg_n (i : Reg) (X : Big) : (setReg s i X).n = s.n := rfl
@[simp] theorem setReg_v (i : Reg) (X : Big) : (setReg s i X).v = s.v := rfl
@[simp] theorem setReg_modv (i : Reg) (X : Big) : (setReg s i X).modv = s.modv := rfl
@[simp] theorem setReg_rf (i : Reg) (X : Big) : (setReg s i X).rf = s.rf := rfl
@[simp] theorem setReg_estruct (i : Reg) (X : Big) : (setReg s i X).estruct = s.estruct := rfl
@[simp] theorem setReg_epad (i : Reg) (X : Big) : (setReg s i X).epad = s.epad := rfl
@[simp] theorem setReg_esum (i : Reg) (X : Big) : (setReg s i X).esum = s.esum := rfl
@[simp] theorem setReg_fault (i : Reg) (X : Big) : (setReg s i X).fault = s.fault := rfl
@[simp] theorem setReg_cause (i : Reg) (X : Big) : (setReg s i X).cause = s.cause := rfl
@[simp] theorem setReg_fcmd (i : Reg) (X : Big) : (setReg s i X).fcmd = s.fcmd := rfl
@[simp] theorem setReg_cnt (i : Reg) (X : Big) : (setReg s i X).cnt = s.cnt := rfl
@[simp] theorem setReg_acc (i : Reg) (X : Big) : (setReg s i X).acc = s.acc := rfl
@[simp] theorem setReg_cur (i : Reg) (X : Big) : (setReg s i X).cur = s.cur := rfl
@[simp] theorem setReg_out (i : Reg) (X : Big) : (setReg s i X).out = s.out := rfl
@[simp] theorem setReg_scratch (i : Reg) (X : Big) : (setReg s i X).scratch = s.scratch := rfl
@[simp] theorem setReg_dst (i : Reg) (X : Big) : (setReg s i X).dst = s.dst := rfl
@[simp] theorem setReg_pass (i : Reg) (X : Big) : (setReg s i X).pass = s.pass := rfl
@[simp] theorem setReg_ct (i : Reg) (X : Big) : (setReg s i X).ct = s.ct := rfl
@[simp] theorem setReg_pt (i : Reg) (X : Big) : (setReg s i X).pt = s.pt := rfl
@[simp] theorem setReg_ptLen (i : Reg) (X : Big) : (setReg s i X).ptLen = s.ptLen := rfl
@[simp] theorem setReg_port (i : Reg) (X : Big) : (setReg s i X).port = s.port := rfl
@[simp] theorem setReg_hostLog (i : Reg) (X : Big) : (setReg s i X).hostLog = s.hostLog := rfl
@[simp] theorem setReg_free (i : Reg) (X : Big) : (setReg s i X).free = s.free := rfl

/-! ### `setModulus` -/

@[simp] theorem setModulus_regs (X : Big) (v : Byte) : (setModulus s X v).regs = s.regs := rfl
@[simp] theorem setModulus_n (X : Big) (v : Byte) : (setModulus s X v).n = X := rfl
@[simp] theorem setModulus_v (X : Big) (v : Byte) : (setModulus s X v).v = v := rfl
@[simp] theorem setModulus_modv (X : Big) (v : Byte) : (setModulus s X v).modv = true := rfl
@[simp] theorem setModulus_rf (X : Big) (v : Byte) : (setModulus s X v).rf = s.rf := rfl
@[simp] theorem setModulus_estruct (X : Big) (v : Byte) : (setModulus s X v).estruct = s.estruct := rfl
@[simp] theorem setModulus_epad (X : Big) (v : Byte) : (setModulus s X v).epad = s.epad := rfl
@[simp] theorem setModulus_esum (X : Big) (v : Byte) : (setModulus s X v).esum = s.esum := rfl
@[simp] theorem setModulus_fault (X : Big) (v : Byte) : (setModulus s X v).fault = s.fault := rfl
@[simp] theorem setModulus_cause (X : Big) (v : Byte) : (setModulus s X v).cause = s.cause := rfl
@[simp] theorem setModulus_fcmd (X : Big) (v : Byte) : (setModulus s X v).fcmd = s.fcmd := rfl
@[simp] theorem setModulus_cnt (X : Big) (v : Byte) : (setModulus s X v).cnt = s.cnt := rfl
@[simp] theorem setModulus_acc (X : Big) (v : Byte) : (setModulus s X v).acc = s.acc := rfl
@[simp] theorem setModulus_cur (X : Big) (v : Byte) : (setModulus s X v).cur = s.cur := rfl
@[simp] theorem setModulus_out (X : Big) (v : Byte) : (setModulus s X v).out = s.out := rfl
@[simp] theorem setModulus_scratch (X : Big) (v : Byte) : (setModulus s X v).scratch = s.scratch := rfl
@[simp] theorem setModulus_dst (X : Big) (v : Byte) : (setModulus s X v).dst = s.dst := rfl
@[simp] theorem setModulus_pass (X : Big) (v : Byte) : (setModulus s X v).pass = s.pass := rfl
@[simp] theorem setModulus_ct (X : Big) (v : Byte) : (setModulus s X v).ct = s.ct := rfl
@[simp] theorem setModulus_pt (X : Big) (v : Byte) : (setModulus s X v).pt = s.pt := rfl
@[simp] theorem setModulus_ptLen (X : Big) (v : Byte) : (setModulus s X v).ptLen = s.ptLen := rfl
@[simp] theorem setModulus_port (X : Big) (v : Byte) : (setModulus s X v).port = s.port := rfl
@[simp] theorem setModulus_hostLog (X : Big) (v : Byte) : (setModulus s X v).hostLog = s.hostLog := rfl
@[simp] theorem setModulus_free (X : Big) (v : Byte) : (setModulus s X v).free = s.free := rfl

/-! ### `setCur` -/

@[simp] theorem setCur_regs (a : Word) : (setCur s a).regs = s.regs := rfl
@[simp] theorem setCur_n (a : Word) : (setCur s a).n = s.n := rfl
@[simp] theorem setCur_v (a : Word) : (setCur s a).v = s.v := rfl
@[simp] theorem setCur_modv (a : Word) : (setCur s a).modv = s.modv := rfl
@[simp] theorem setCur_rf (a : Word) : (setCur s a).rf = s.rf := rfl
@[simp] theorem setCur_estruct (a : Word) : (setCur s a).estruct = s.estruct := rfl
@[simp] theorem setCur_epad (a : Word) : (setCur s a).epad = s.epad := rfl
@[simp] theorem setCur_esum (a : Word) : (setCur s a).esum = s.esum := rfl
@[simp] theorem setCur_fault (a : Word) : (setCur s a).fault = s.fault := rfl
@[simp] theorem setCur_cause (a : Word) : (setCur s a).cause = s.cause := rfl
@[simp] theorem setCur_fcmd (a : Word) : (setCur s a).fcmd = s.fcmd := rfl
@[simp] theorem setCur_cnt (a : Word) : (setCur s a).cnt = s.cnt := rfl
@[simp] theorem setCur_acc (a : Word) : (setCur s a).acc = s.acc := rfl
@[simp] theorem setCur_cur (a : Word) : (setCur s a).cur = a := rfl
@[simp] theorem setCur_out (a : Word) : (setCur s a).out = s.out := rfl
@[simp] theorem setCur_scratch (a : Word) : (setCur s a).scratch = s.scratch := rfl
@[simp] theorem setCur_dst (a : Word) : (setCur s a).dst = s.dst := rfl
@[simp] theorem setCur_pass (a : Word) : (setCur s a).pass = s.pass := rfl
@[simp] theorem setCur_ct (a : Word) : (setCur s a).ct = s.ct := rfl
@[simp] theorem setCur_pt (a : Word) : (setCur s a).pt = s.pt := rfl
@[simp] theorem setCur_ptLen (a : Word) : (setCur s a).ptLen = s.ptLen := rfl
@[simp] theorem setCur_port (a : Word) : (setCur s a).port = s.port := rfl
@[simp] theorem setCur_hostLog (a : Word) : (setCur s a).hostLog = s.hostLog := rfl
@[simp] theorem setCur_free (a : Word) : (setCur s a).free = s.free := rfl

/-! ### `clobberScratch` -/

@[simp] theorem clobberScratch_regs : (clobberScratch s).regs = s.regs := rfl
@[simp] theorem clobberScratch_n : (clobberScratch s).n = s.n := rfl
@[simp] theorem clobberScratch_v : (clobberScratch s).v = s.v := rfl
@[simp] theorem clobberScratch_modv : (clobberScratch s).modv = s.modv := rfl
@[simp] theorem clobberScratch_rf : (clobberScratch s).rf = s.rf := rfl
@[simp] theorem clobberScratch_estruct : (clobberScratch s).estruct = s.estruct := rfl
@[simp] theorem clobberScratch_epad : (clobberScratch s).epad = s.epad := rfl
@[simp] theorem clobberScratch_esum : (clobberScratch s).esum = s.esum := rfl
@[simp] theorem clobberScratch_fault : (clobberScratch s).fault = s.fault := rfl
@[simp] theorem clobberScratch_cause : (clobberScratch s).cause = s.cause := rfl
@[simp] theorem clobberScratch_fcmd : (clobberScratch s).fcmd = s.fcmd := rfl
@[simp] theorem clobberScratch_cnt : (clobberScratch s).cnt = s.cnt := rfl
@[simp] theorem clobberScratch_acc : (clobberScratch s).acc = s.acc := rfl
@[simp] theorem clobberScratch_cur : (clobberScratch s).cur = s.cur := rfl
@[simp] theorem clobberScratch_out : (clobberScratch s).out = s.out := rfl
@[simp] theorem clobberScratch_scratch : (clobberScratch s).scratch = freeScratch s.free := rfl
@[simp] theorem clobberScratch_dst : (clobberScratch s).dst = s.dst := rfl
@[simp] theorem clobberScratch_pass : (clobberScratch s).pass = s.pass := rfl
@[simp] theorem clobberScratch_ct : (clobberScratch s).ct = s.ct := rfl
@[simp] theorem clobberScratch_pt : (clobberScratch s).pt = s.pt := rfl
@[simp] theorem clobberScratch_ptLen : (clobberScratch s).ptLen = s.ptLen := rfl
@[simp] theorem clobberScratch_port : (clobberScratch s).port = s.port := rfl
@[simp] theorem clobberScratch_hostLog : (clobberScratch s).hostLog = s.hostLog := rfl
@[simp] theorem clobberScratch_free : (clobberScratch s).free = s.free + 1 := rfl

/-! ### `setPt` -/

@[simp] theorem setPt_regs (a : Nat) (v : Byte) : (setPt s a v).regs = s.regs := rfl
@[simp] theorem setPt_n (a : Nat) (v : Byte) : (setPt s a v).n = s.n := rfl
@[simp] theorem setPt_v (a : Nat) (v : Byte) : (setPt s a v).v = s.v := rfl
@[simp] theorem setPt_modv (a : Nat) (v : Byte) : (setPt s a v).modv = s.modv := rfl
@[simp] theorem setPt_rf (a : Nat) (v : Byte) : (setPt s a v).rf = s.rf := rfl
@[simp] theorem setPt_estruct (a : Nat) (v : Byte) : (setPt s a v).estruct = s.estruct := rfl
@[simp] theorem setPt_epad (a : Nat) (v : Byte) : (setPt s a v).epad = s.epad := rfl
@[simp] theorem setPt_esum (a : Nat) (v : Byte) : (setPt s a v).esum = s.esum := rfl
@[simp] theorem setPt_fault (a : Nat) (v : Byte) : (setPt s a v).fault = s.fault := rfl
@[simp] theorem setPt_cause (a : Nat) (v : Byte) : (setPt s a v).cause = s.cause := rfl
@[simp] theorem setPt_fcmd (a : Nat) (v : Byte) : (setPt s a v).fcmd = s.fcmd := rfl
@[simp] theorem setPt_cnt (a : Nat) (v : Byte) : (setPt s a v).cnt = s.cnt := rfl
@[simp] theorem setPt_acc (a : Nat) (v : Byte) : (setPt s a v).acc = s.acc := rfl
@[simp] theorem setPt_cur (a : Nat) (v : Byte) : (setPt s a v).cur = s.cur := rfl
@[simp] theorem setPt_out (a : Nat) (v : Byte) : (setPt s a v).out = s.out := rfl
@[simp] theorem setPt_scratch (a : Nat) (v : Byte) : (setPt s a v).scratch = s.scratch := rfl
@[simp] theorem setPt_dst (a : Nat) (v : Byte) : (setPt s a v).dst = s.dst := rfl
@[simp] theorem setPt_pass (a : Nat) (v : Byte) : (setPt s a v).pass = s.pass := rfl
@[simp] theorem setPt_ct (a : Nat) (v : Byte) : (setPt s a v).ct = s.ct := rfl
@[simp] theorem setPt_pt (a : Nat) (v : Byte) : (setPt s a v).pt = memWrite s.pt a v := rfl
@[simp] theorem setPt_ptLen (a : Nat) (v : Byte) : (setPt s a v).ptLen = s.ptLen := rfl
@[simp] theorem setPt_port (a : Nat) (v : Byte) : (setPt s a v).port = s.port := rfl
@[simp] theorem setPt_hostLog (a : Nat) (v : Byte) : (setPt s a v).hostLog = s.hostLog := rfl
@[simp] theorem setPt_free (a : Nat) (v : Byte) : (setPt s a v).free = s.free := rfl

/-! ### `setCt` -/

@[simp] theorem setCt_regs (a : Nat) (v : Byte) : (setCt s a v).regs = s.regs := rfl
@[simp] theorem setCt_n (a : Nat) (v : Byte) : (setCt s a v).n = s.n := rfl
@[simp] theorem setCt_v (a : Nat) (v : Byte) : (setCt s a v).v = s.v := rfl
@[simp] theorem setCt_modv (a : Nat) (v : Byte) : (setCt s a v).modv = s.modv := rfl
@[simp] theorem setCt_rf (a : Nat) (v : Byte) : (setCt s a v).rf = s.rf := rfl
@[simp] theorem setCt_estruct (a : Nat) (v : Byte) : (setCt s a v).estruct = s.estruct := rfl
@[simp] theorem setCt_epad (a : Nat) (v : Byte) : (setCt s a v).epad = s.epad := rfl
@[simp] theorem setCt_esum (a : Nat) (v : Byte) : (setCt s a v).esum = s.esum := rfl
@[simp] theorem setCt_fault (a : Nat) (v : Byte) : (setCt s a v).fault = s.fault := rfl
@[simp] theorem setCt_cause (a : Nat) (v : Byte) : (setCt s a v).cause = s.cause := rfl
@[simp] theorem setCt_fcmd (a : Nat) (v : Byte) : (setCt s a v).fcmd = s.fcmd := rfl
@[simp] theorem setCt_cnt (a : Nat) (v : Byte) : (setCt s a v).cnt = s.cnt := rfl
@[simp] theorem setCt_acc (a : Nat) (v : Byte) : (setCt s a v).acc = s.acc := rfl
@[simp] theorem setCt_cur (a : Nat) (v : Byte) : (setCt s a v).cur = s.cur := rfl
@[simp] theorem setCt_out (a : Nat) (v : Byte) : (setCt s a v).out = s.out := rfl
@[simp] theorem setCt_scratch (a : Nat) (v : Byte) : (setCt s a v).scratch = s.scratch := rfl
@[simp] theorem setCt_dst (a : Nat) (v : Byte) : (setCt s a v).dst = s.dst := rfl
@[simp] theorem setCt_pass (a : Nat) (v : Byte) : (setCt s a v).pass = s.pass := rfl
@[simp] theorem setCt_ct (a : Nat) (v : Byte) : (setCt s a v).ct = memWrite s.ct a v := rfl
@[simp] theorem setCt_pt (a : Nat) (v : Byte) : (setCt s a v).pt = s.pt := rfl
@[simp] theorem setCt_ptLen (a : Nat) (v : Byte) : (setCt s a v).ptLen = s.ptLen := rfl
@[simp] theorem setCt_port (a : Nat) (v : Byte) : (setCt s a v).port = s.port := rfl
@[simp] theorem setCt_hostLog (a : Nat) (v : Byte) : (setCt s a v).hostLog = s.hostLog := rfl
@[simp] theorem setCt_free (a : Nat) (v : Byte) : (setCt s a v).free = s.free := rfl

/-! ### `setRf` -/

@[simp] theorem setRf_regs (f : Bool) : (setRf s f).regs = s.regs := rfl
@[simp] theorem setRf_n (f : Bool) : (setRf s f).n = s.n := rfl
@[simp] theorem setRf_v (f : Bool) : (setRf s f).v = s.v := rfl
@[simp] theorem setRf_modv (f : Bool) : (setRf s f).modv = s.modv := rfl
@[simp] theorem setRf_rf (f : Bool) : (setRf s f).rf = f := rfl
@[simp] theorem setRf_estruct (f : Bool) : (setRf s f).estruct = s.estruct := rfl
@[simp] theorem setRf_epad (f : Bool) : (setRf s f).epad = s.epad := rfl
@[simp] theorem setRf_esum (f : Bool) : (setRf s f).esum = s.esum := rfl
@[simp] theorem setRf_fault (f : Bool) : (setRf s f).fault = s.fault := rfl
@[simp] theorem setRf_cause (f : Bool) : (setRf s f).cause = s.cause := rfl
@[simp] theorem setRf_fcmd (f : Bool) : (setRf s f).fcmd = s.fcmd := rfl
@[simp] theorem setRf_cnt (f : Bool) : (setRf s f).cnt = s.cnt := rfl
@[simp] theorem setRf_acc (f : Bool) : (setRf s f).acc = s.acc := rfl
@[simp] theorem setRf_cur (f : Bool) : (setRf s f).cur = s.cur := rfl
@[simp] theorem setRf_out (f : Bool) : (setRf s f).out = s.out := rfl
@[simp] theorem setRf_scratch (f : Bool) : (setRf s f).scratch = s.scratch := rfl
@[simp] theorem setRf_dst (f : Bool) : (setRf s f).dst = s.dst := rfl
@[simp] theorem setRf_pass (f : Bool) : (setRf s f).pass = s.pass := rfl
@[simp] theorem setRf_ct (f : Bool) : (setRf s f).ct = s.ct := rfl
@[simp] theorem setRf_pt (f : Bool) : (setRf s f).pt = s.pt := rfl
@[simp] theorem setRf_ptLen (f : Bool) : (setRf s f).ptLen = s.ptLen := rfl
@[simp] theorem setRf_port (f : Bool) : (setRf s f).port = s.port := rfl
@[simp] theorem setRf_hostLog (f : Bool) : (setRf s f).hostLog = s.hostLog := rfl
@[simp] theorem setRf_free (f : Bool) : (setRf s f).free = s.free := rfl

/-! ### `clearErrors` -/

@[simp] theorem clearErrors_regs : (clearErrors s).regs = s.regs := rfl
@[simp] theorem clearErrors_n : (clearErrors s).n = s.n := rfl
@[simp] theorem clearErrors_v : (clearErrors s).v = s.v := rfl
@[simp] theorem clearErrors_modv : (clearErrors s).modv = s.modv := rfl
@[simp] theorem clearErrors_rf : (clearErrors s).rf = s.rf := rfl
@[simp] theorem clearErrors_estruct : (clearErrors s).estruct = false := rfl
@[simp] theorem clearErrors_epad : (clearErrors s).epad = false := rfl
@[simp] theorem clearErrors_esum : (clearErrors s).esum = false := rfl
@[simp] theorem clearErrors_fault : (clearErrors s).fault = s.fault := rfl
@[simp] theorem clearErrors_cause : (clearErrors s).cause = s.cause := rfl
@[simp] theorem clearErrors_fcmd : (clearErrors s).fcmd = s.fcmd := rfl
@[simp] theorem clearErrors_cnt : (clearErrors s).cnt = s.cnt := rfl
@[simp] theorem clearErrors_acc : (clearErrors s).acc = s.acc := rfl
@[simp] theorem clearErrors_cur : (clearErrors s).cur = s.cur := rfl
@[simp] theorem clearErrors_out : (clearErrors s).out = s.out := rfl
@[simp] theorem clearErrors_scratch : (clearErrors s).scratch = s.scratch := rfl
@[simp] theorem clearErrors_dst : (clearErrors s).dst = s.dst := rfl
@[simp] theorem clearErrors_pass : (clearErrors s).pass = s.pass := rfl
@[simp] theorem clearErrors_ct : (clearErrors s).ct = s.ct := rfl
@[simp] theorem clearErrors_pt : (clearErrors s).pt = s.pt := rfl
@[simp] theorem clearErrors_ptLen : (clearErrors s).ptLen = s.ptLen := rfl
@[simp] theorem clearErrors_port : (clearErrors s).port = s.port := rfl
@[simp] theorem clearErrors_hostLog : (clearErrors s).hostLog = s.hostLog := rfl
@[simp] theorem clearErrors_free : (clearErrors s).free = s.free := rfl

/-! ### `recordStruct` -/

@[simp] theorem recordStruct_regs (f : Bool) : (recordStruct s f).regs = s.regs := rfl
@[simp] theorem recordStruct_n (f : Bool) : (recordStruct s f).n = s.n := rfl
@[simp] theorem recordStruct_v (f : Bool) : (recordStruct s f).v = s.v := rfl
@[simp] theorem recordStruct_modv (f : Bool) : (recordStruct s f).modv = s.modv := rfl
@[simp] theorem recordStruct_rf (f : Bool) : (recordStruct s f).rf = s.rf := rfl
@[simp] theorem recordStruct_estruct (f : Bool) : (recordStruct s f).estruct = (s.estruct || f) := rfl
@[simp] theorem recordStruct_epad (f : Bool) : (recordStruct s f).epad = s.epad := rfl
@[simp] theorem recordStruct_esum (f : Bool) : (recordStruct s f).esum = s.esum := rfl
@[simp] theorem recordStruct_fault (f : Bool) : (recordStruct s f).fault = s.fault := rfl
@[simp] theorem recordStruct_cause (f : Bool) : (recordStruct s f).cause = s.cause := rfl
@[simp] theorem recordStruct_fcmd (f : Bool) : (recordStruct s f).fcmd = s.fcmd := rfl
@[simp] theorem recordStruct_cnt (f : Bool) : (recordStruct s f).cnt = s.cnt := rfl
@[simp] theorem recordStruct_acc (f : Bool) : (recordStruct s f).acc = s.acc := rfl
@[simp] theorem recordStruct_cur (f : Bool) : (recordStruct s f).cur = s.cur := rfl
@[simp] theorem recordStruct_out (f : Bool) : (recordStruct s f).out = s.out := rfl
@[simp] theorem recordStruct_scratch (f : Bool) : (recordStruct s f).scratch = s.scratch := rfl
@[simp] theorem recordStruct_dst (f : Bool) : (recordStruct s f).dst = s.dst := rfl
@[simp] theorem recordStruct_pass (f : Bool) : (recordStruct s f).pass = s.pass := rfl
@[simp] theorem recordStruct_ct (f : Bool) : (recordStruct s f).ct = s.ct := rfl
@[simp] theorem recordStruct_pt (f : Bool) : (recordStruct s f).pt = s.pt := rfl
@[simp] theorem recordStruct_ptLen (f : Bool) : (recordStruct s f).ptLen = s.ptLen := rfl
@[simp] theorem recordStruct_port (f : Bool) : (recordStruct s f).port = s.port := rfl
@[simp] theorem recordStruct_hostLog (f : Bool) : (recordStruct s f).hostLog = s.hostLog := rfl
@[simp] theorem recordStruct_free (f : Bool) : (recordStruct s f).free = s.free := rfl

/-! ### `recordPad` -/

@[simp] theorem recordPad_regs (f : Bool) : (recordPad s f).regs = s.regs := rfl
@[simp] theorem recordPad_n (f : Bool) : (recordPad s f).n = s.n := rfl
@[simp] theorem recordPad_v (f : Bool) : (recordPad s f).v = s.v := rfl
@[simp] theorem recordPad_modv (f : Bool) : (recordPad s f).modv = s.modv := rfl
@[simp] theorem recordPad_rf (f : Bool) : (recordPad s f).rf = s.rf := rfl
@[simp] theorem recordPad_estruct (f : Bool) : (recordPad s f).estruct = s.estruct := rfl
@[simp] theorem recordPad_epad (f : Bool) : (recordPad s f).epad = (s.epad || f) := rfl
@[simp] theorem recordPad_esum (f : Bool) : (recordPad s f).esum = s.esum := rfl
@[simp] theorem recordPad_fault (f : Bool) : (recordPad s f).fault = s.fault := rfl
@[simp] theorem recordPad_cause (f : Bool) : (recordPad s f).cause = s.cause := rfl
@[simp] theorem recordPad_fcmd (f : Bool) : (recordPad s f).fcmd = s.fcmd := rfl
@[simp] theorem recordPad_cnt (f : Bool) : (recordPad s f).cnt = s.cnt := rfl
@[simp] theorem recordPad_acc (f : Bool) : (recordPad s f).acc = s.acc := rfl
@[simp] theorem recordPad_cur (f : Bool) : (recordPad s f).cur = s.cur := rfl
@[simp] theorem recordPad_out (f : Bool) : (recordPad s f).out = s.out := rfl
@[simp] theorem recordPad_scratch (f : Bool) : (recordPad s f).scratch = s.scratch := rfl
@[simp] theorem recordPad_dst (f : Bool) : (recordPad s f).dst = s.dst := rfl
@[simp] theorem recordPad_pass (f : Bool) : (recordPad s f).pass = s.pass := rfl
@[simp] theorem recordPad_ct (f : Bool) : (recordPad s f).ct = s.ct := rfl
@[simp] theorem recordPad_pt (f : Bool) : (recordPad s f).pt = s.pt := rfl
@[simp] theorem recordPad_ptLen (f : Bool) : (recordPad s f).ptLen = s.ptLen := rfl
@[simp] theorem recordPad_port (f : Bool) : (recordPad s f).port = s.port := rfl
@[simp] theorem recordPad_hostLog (f : Bool) : (recordPad s f).hostLog = s.hostLog := rfl
@[simp] theorem recordPad_free (f : Bool) : (recordPad s f).free = s.free := rfl

/-! ### `recordSum` -/

@[simp] theorem recordSum_regs (f : Bool) : (recordSum s f).regs = s.regs := rfl
@[simp] theorem recordSum_n (f : Bool) : (recordSum s f).n = s.n := rfl
@[simp] theorem recordSum_v (f : Bool) : (recordSum s f).v = s.v := rfl
@[simp] theorem recordSum_modv (f : Bool) : (recordSum s f).modv = s.modv := rfl
@[simp] theorem recordSum_rf (f : Bool) : (recordSum s f).rf = s.rf := rfl
@[simp] theorem recordSum_estruct (f : Bool) : (recordSum s f).estruct = s.estruct := rfl
@[simp] theorem recordSum_epad (f : Bool) : (recordSum s f).epad = s.epad := rfl
@[simp] theorem recordSum_esum (f : Bool) : (recordSum s f).esum = (s.esum || f) := rfl
@[simp] theorem recordSum_fault (f : Bool) : (recordSum s f).fault = s.fault := rfl
@[simp] theorem recordSum_cause (f : Bool) : (recordSum s f).cause = s.cause := rfl
@[simp] theorem recordSum_fcmd (f : Bool) : (recordSum s f).fcmd = s.fcmd := rfl
@[simp] theorem recordSum_cnt (f : Bool) : (recordSum s f).cnt = s.cnt := rfl
@[simp] theorem recordSum_acc (f : Bool) : (recordSum s f).acc = s.acc := rfl
@[simp] theorem recordSum_cur (f : Bool) : (recordSum s f).cur = s.cur := rfl
@[simp] theorem recordSum_out (f : Bool) : (recordSum s f).out = s.out := rfl
@[simp] theorem recordSum_scratch (f : Bool) : (recordSum s f).scratch = s.scratch := rfl
@[simp] theorem recordSum_dst (f : Bool) : (recordSum s f).dst = s.dst := rfl
@[simp] theorem recordSum_pass (f : Bool) : (recordSum s f).pass = s.pass := rfl
@[simp] theorem recordSum_ct (f : Bool) : (recordSum s f).ct = s.ct := rfl
@[simp] theorem recordSum_pt (f : Bool) : (recordSum s f).pt = s.pt := rfl
@[simp] theorem recordSum_ptLen (f : Bool) : (recordSum s f).ptLen = s.ptLen := rfl
@[simp] theorem recordSum_port (f : Bool) : (recordSum s f).port = s.port := rfl
@[simp] theorem recordSum_hostLog (f : Bool) : (recordSum s f).hostLog = s.hostLog := rfl
@[simp] theorem recordSum_free (f : Bool) : (recordSum s f).free = s.free := rfl

/-! ### `setAccOut` -/

@[simp] theorem setAccOut_regs (a : Byte) (o : Word) : (setAccOut s a o).regs = s.regs := rfl
@[simp] theorem setAccOut_n (a : Byte) (o : Word) : (setAccOut s a o).n = s.n := rfl
@[simp] theorem setAccOut_v (a : Byte) (o : Word) : (setAccOut s a o).v = s.v := rfl
@[simp] theorem setAccOut_modv (a : Byte) (o : Word) : (setAccOut s a o).modv = s.modv := rfl
@[simp] theorem setAccOut_rf (a : Byte) (o : Word) : (setAccOut s a o).rf = s.rf := rfl
@[simp] theorem setAccOut_estruct (a : Byte) (o : Word) : (setAccOut s a o).estruct = s.estruct := rfl
@[simp] theorem setAccOut_epad (a : Byte) (o : Word) : (setAccOut s a o).epad = s.epad := rfl
@[simp] theorem setAccOut_esum (a : Byte) (o : Word) : (setAccOut s a o).esum = s.esum := rfl
@[simp] theorem setAccOut_fault (a : Byte) (o : Word) : (setAccOut s a o).fault = s.fault := rfl
@[simp] theorem setAccOut_cause (a : Byte) (o : Word) : (setAccOut s a o).cause = s.cause := rfl
@[simp] theorem setAccOut_fcmd (a : Byte) (o : Word) : (setAccOut s a o).fcmd = s.fcmd := rfl
@[simp] theorem setAccOut_cnt (a : Byte) (o : Word) : (setAccOut s a o).cnt = s.cnt := rfl
@[simp] theorem setAccOut_acc (a : Byte) (o : Word) : (setAccOut s a o).acc = a := rfl
@[simp] theorem setAccOut_cur (a : Byte) (o : Word) : (setAccOut s a o).cur = s.cur := rfl
@[simp] theorem setAccOut_out (a : Byte) (o : Word) : (setAccOut s a o).out = o := rfl
@[simp] theorem setAccOut_scratch (a : Byte) (o : Word) : (setAccOut s a o).scratch = s.scratch := rfl
@[simp] theorem setAccOut_dst (a : Byte) (o : Word) : (setAccOut s a o).dst = s.dst := rfl
@[simp] theorem setAccOut_pass (a : Byte) (o : Word) : (setAccOut s a o).pass = s.pass := rfl
@[simp] theorem setAccOut_ct (a : Byte) (o : Word) : (setAccOut s a o).ct = s.ct := rfl
@[simp] theorem setAccOut_pt (a : Byte) (o : Word) : (setAccOut s a o).pt = s.pt := rfl
@[simp] theorem setAccOut_ptLen (a : Byte) (o : Word) : (setAccOut s a o).ptLen = s.ptLen := rfl
@[simp] theorem setAccOut_port (a : Byte) (o : Word) : (setAccOut s a o).port = s.port := rfl
@[simp] theorem setAccOut_hostLog (a : Byte) (o : Word) : (setAccOut s a o).hostLog = s.hostLog := rfl
@[simp] theorem setAccOut_free (a : Byte) (o : Word) : (setAccOut s a o).free = s.free := rfl

/-! ### `advanceCounter` -/

@[simp] theorem advanceCounter_regs : (advanceCounter s).regs = s.regs := rfl
@[simp] theorem advanceCounter_n : (advanceCounter s).n = s.n := rfl
@[simp] theorem advanceCounter_v : (advanceCounter s).v = s.v := rfl
@[simp] theorem advanceCounter_modv : (advanceCounter s).modv = s.modv := rfl
@[simp] theorem advanceCounter_rf : (advanceCounter s).rf = s.rf := rfl
@[simp] theorem advanceCounter_estruct : (advanceCounter s).estruct = s.estruct := rfl
@[simp] theorem advanceCounter_epad : (advanceCounter s).epad = s.epad := rfl
@[simp] theorem advanceCounter_esum : (advanceCounter s).esum = s.esum := rfl
@[simp] theorem advanceCounter_fault : (advanceCounter s).fault = s.fault := rfl
@[simp] theorem advanceCounter_cause : (advanceCounter s).cause = s.cause := rfl
@[simp] theorem advanceCounter_fcmd : (advanceCounter s).fcmd = s.fcmd := rfl
@[simp] theorem advanceCounter_cnt : (advanceCounter s).cnt = s.cnt + 1#8 := rfl
@[simp] theorem advanceCounter_acc : (advanceCounter s).acc = s.acc := rfl
@[simp] theorem advanceCounter_cur : (advanceCounter s).cur = s.cur := rfl
@[simp] theorem advanceCounter_out : (advanceCounter s).out = s.out := rfl
@[simp] theorem advanceCounter_scratch : (advanceCounter s).scratch = s.scratch := rfl
@[simp] theorem advanceCounter_dst : (advanceCounter s).dst = s.dst := rfl
@[simp] theorem advanceCounter_pass : (advanceCounter s).pass = s.pass := rfl
@[simp] theorem advanceCounter_ct : (advanceCounter s).ct = s.ct := rfl
@[simp] theorem advanceCounter_pt : (advanceCounter s).pt = s.pt := rfl
@[simp] theorem advanceCounter_ptLen : (advanceCounter s).ptLen = s.ptLen := rfl
@[simp] theorem advanceCounter_port : (advanceCounter s).port = s.port := rfl
@[simp] theorem advanceCounter_hostLog : (advanceCounter s).hostLog = s.hostLog := rfl
@[simp] theorem advanceCounter_free : (advanceCounter s).free = s.free := rfl

/-! ### `setPass` -/

@[simp] theorem setPass_regs (p : Fin 2) : (setPass s p).regs = s.regs := rfl
@[simp] theorem setPass_n (p : Fin 2) : (setPass s p).n = s.n := rfl
@[simp] theorem setPass_v (p : Fin 2) : (setPass s p).v = s.v := rfl
@[simp] theorem setPass_modv (p : Fin 2) : (setPass s p).modv = s.modv := rfl
@[simp] theorem setPass_rf (p : Fin 2) : (setPass s p).rf = s.rf := rfl
@[simp] theorem setPass_estruct (p : Fin 2) : (setPass s p).estruct = s.estruct := rfl
@[simp] theorem setPass_epad (p : Fin 2) : (setPass s p).epad = s.epad := rfl
@[simp] theorem setPass_esum (p : Fin 2) : (setPass s p).esum = s.esum := rfl
@[simp] theorem setPass_fault (p : Fin 2) : (setPass s p).fault = s.fault := rfl
@[simp] theorem setPass_cause (p : Fin 2) : (setPass s p).cause = s.cause := rfl
@[simp] theorem setPass_fcmd (p : Fin 2) : (setPass s p).fcmd = s.fcmd := rfl
@[simp] theorem setPass_cnt (p : Fin 2) : (setPass s p).cnt = s.cnt := rfl
@[simp] theorem setPass_acc (p : Fin 2) : (setPass s p).acc = s.acc := rfl
@[simp] theorem setPass_cur (p : Fin 2) : (setPass s p).cur = s.cur := rfl
@[simp] theorem setPass_out (p : Fin 2) : (setPass s p).out = s.out := rfl
@[simp] theorem setPass_scratch (p : Fin 2) : (setPass s p).scratch = s.scratch := rfl
@[simp] theorem setPass_dst (p : Fin 2) : (setPass s p).dst = s.dst := rfl
@[simp] theorem setPass_pass (p : Fin 2) : (setPass s p).pass = p := rfl
@[simp] theorem setPass_ct (p : Fin 2) : (setPass s p).ct = s.ct := rfl
@[simp] theorem setPass_pt (p : Fin 2) : (setPass s p).pt = s.pt := rfl
@[simp] theorem setPass_ptLen (p : Fin 2) : (setPass s p).ptLen = s.ptLen := rfl
@[simp] theorem setPass_port (p : Fin 2) : (setPass s p).port = s.port := rfl
@[simp] theorem setPass_hostLog (p : Fin 2) : (setPass s p).hostLog = s.hostLog := rfl
@[simp] theorem setPass_free (p : Fin 2) : (setPass s p).free = s.free := rfl

/-! ### `giveHost` -/

@[simp] theorem giveHost_regs (x : Word) : (giveHost s x).regs = s.regs := rfl
@[simp] theorem giveHost_n (x : Word) : (giveHost s x).n = s.n := rfl
@[simp] theorem giveHost_v (x : Word) : (giveHost s x).v = s.v := rfl
@[simp] theorem giveHost_modv (x : Word) : (giveHost s x).modv = s.modv := rfl
@[simp] theorem giveHost_rf (x : Word) : (giveHost s x).rf = s.rf := rfl
@[simp] theorem giveHost_estruct (x : Word) : (giveHost s x).estruct = s.estruct := rfl
@[simp] theorem giveHost_epad (x : Word) : (giveHost s x).epad = s.epad := rfl
@[simp] theorem giveHost_esum (x : Word) : (giveHost s x).esum = s.esum := rfl
@[simp] theorem giveHost_fault (x : Word) : (giveHost s x).fault = s.fault := rfl
@[simp] theorem giveHost_cause (x : Word) : (giveHost s x).cause = s.cause := rfl
@[simp] theorem giveHost_fcmd (x : Word) : (giveHost s x).fcmd = s.fcmd := rfl
@[simp] theorem giveHost_cnt (x : Word) : (giveHost s x).cnt = s.cnt := rfl
@[simp] theorem giveHost_acc (x : Word) : (giveHost s x).acc = s.acc := rfl
@[simp] theorem giveHost_cur (x : Word) : (giveHost s x).cur = s.cur := rfl
@[simp] theorem giveHost_out (x : Word) : (giveHost s x).out = s.out := rfl
@[simp] theorem giveHost_scratch (x : Word) : (giveHost s x).scratch = s.scratch := rfl
@[simp] theorem giveHost_dst (x : Word) : (giveHost s x).dst = s.dst := rfl
@[simp] theorem giveHost_pass (x : Word) : (giveHost s x).pass = s.pass := rfl
@[simp] theorem giveHost_ct (x : Word) : (giveHost s x).ct = s.ct := rfl
@[simp] theorem giveHost_pt (x : Word) : (giveHost s x).pt = s.pt := rfl
@[simp] theorem giveHost_ptLen (x : Word) : (giveHost s x).ptLen = s.ptLen := rfl
@[simp] theorem giveHost_port (x : Word) : (giveHost s x).port = s.port := rfl
@[simp] theorem giveHost_hostLog (x : Word) : (giveHost s x).hostLog = x :: s.hostLog := rfl
@[simp] theorem giveHost_free (x : Word) : (giveHost s x).free = s.free := rfl

/-! ### `setPort` -/

@[simp] theorem setPort_regs (ops : List HostOp) : (setPort s ops).regs = s.regs := rfl
@[simp] theorem setPort_n (ops : List HostOp) : (setPort s ops).n = s.n := rfl
@[simp] theorem setPort_v (ops : List HostOp) : (setPort s ops).v = s.v := rfl
@[simp] theorem setPort_modv (ops : List HostOp) : (setPort s ops).modv = s.modv := rfl
@[simp] theorem setPort_rf (ops : List HostOp) : (setPort s ops).rf = s.rf := rfl
@[simp] theorem setPort_estruct (ops : List HostOp) : (setPort s ops).estruct = s.estruct := rfl
@[simp] theorem setPort_epad (ops : List HostOp) : (setPort s ops).epad = s.epad := rfl
@[simp] theorem setPort_esum (ops : List HostOp) : (setPort s ops).esum = s.esum := rfl
@[simp] theorem setPort_fault (ops : List HostOp) : (setPort s ops).fault = s.fault := rfl
@[simp] theorem setPort_cause (ops : List HostOp) : (setPort s ops).cause = s.cause := rfl
@[simp] theorem setPort_fcmd (ops : List HostOp) : (setPort s ops).fcmd = s.fcmd := rfl
@[simp] theorem setPort_cnt (ops : List HostOp) : (setPort s ops).cnt = s.cnt := rfl
@[simp] theorem setPort_acc (ops : List HostOp) : (setPort s ops).acc = s.acc := rfl
@[simp] theorem setPort_cur (ops : List HostOp) : (setPort s ops).cur = s.cur := rfl
@[simp] theorem setPort_out (ops : List HostOp) : (setPort s ops).out = s.out := rfl
@[simp] theorem setPort_scratch (ops : List HostOp) : (setPort s ops).scratch = s.scratch := rfl
@[simp] theorem setPort_dst (ops : List HostOp) : (setPort s ops).dst = s.dst := rfl
@[simp] theorem setPort_pass (ops : List HostOp) : (setPort s ops).pass = s.pass := rfl
@[simp] theorem setPort_ct (ops : List HostOp) : (setPort s ops).ct = s.ct := rfl
@[simp] theorem setPort_pt (ops : List HostOp) : (setPort s ops).pt = s.pt := rfl
@[simp] theorem setPort_ptLen (ops : List HostOp) : (setPort s ops).ptLen = s.ptLen := rfl
@[simp] theorem setPort_port (ops : List HostOp) : (setPort s ops).port = ops := rfl
@[simp] theorem setPort_hostLog (ops : List HostOp) : (setPort s ops).hostLog = s.hostLog := rfl
@[simp] theorem setPort_free (ops : List HostOp) : (setPort s ops).free = s.free := rfl

/-! ### `raiseFault` -/

@[simp] theorem raiseFault_regs (c : Cause) (w : Word) : (raiseFault c w s).regs = s.regs := rfl
@[simp] theorem raiseFault_n (c : Cause) (w : Word) : (raiseFault c w s).n = s.n := rfl
@[simp] theorem raiseFault_v (c : Cause) (w : Word) : (raiseFault c w s).v = s.v := rfl
@[simp] theorem raiseFault_modv (c : Cause) (w : Word) : (raiseFault c w s).modv = s.modv := rfl
@[simp] theorem raiseFault_rf (c : Cause) (w : Word) : (raiseFault c w s).rf = s.rf := rfl
@[simp] theorem raiseFault_estruct (c : Cause) (w : Word) : (raiseFault c w s).estruct = s.estruct := rfl
@[simp] theorem raiseFault_epad (c : Cause) (w : Word) : (raiseFault c w s).epad = s.epad := rfl
@[simp] theorem raiseFault_esum (c : Cause) (w : Word) : (raiseFault c w s).esum = s.esum := rfl
@[simp] theorem raiseFault_fault (c : Cause) (w : Word) : (raiseFault c w s).fault = true := rfl
@[simp] theorem raiseFault_cause (c : Cause) (w : Word) : (raiseFault c w s).cause = c := rfl
@[simp] theorem raiseFault_fcmd (c : Cause) (w : Word) : (raiseFault c w s).fcmd = w := rfl
@[simp] theorem raiseFault_cnt (c : Cause) (w : Word) : (raiseFault c w s).cnt = s.cnt := rfl
@[simp] theorem raiseFault_acc (c : Cause) (w : Word) : (raiseFault c w s).acc = s.acc := rfl
@[simp] theorem raiseFault_cur (c : Cause) (w : Word) : (raiseFault c w s).cur = s.cur := rfl
@[simp] theorem raiseFault_out (c : Cause) (w : Word) : (raiseFault c w s).out = s.out := rfl
@[simp] theorem raiseFault_scratch (c : Cause) (w : Word) : (raiseFault c w s).scratch = s.scratch := rfl
@[simp] theorem raiseFault_dst (c : Cause) (w : Word) : (raiseFault c w s).dst = s.dst := rfl
@[simp] theorem raiseFault_pass (c : Cause) (w : Word) : (raiseFault c w s).pass = s.pass := rfl
@[simp] theorem raiseFault_ct (c : Cause) (w : Word) : (raiseFault c w s).ct = s.ct := rfl
@[simp] theorem raiseFault_pt (c : Cause) (w : Word) : (raiseFault c w s).pt = s.pt := rfl
@[simp] theorem raiseFault_ptLen (c : Cause) (w : Word) : (raiseFault c w s).ptLen = s.ptLen := rfl
@[simp] theorem raiseFault_port (c : Cause) (w : Word) : (raiseFault c w s).port = s.port := rfl
@[simp] theorem raiseFault_hostLog (c : Cause) (w : Word) : (raiseFault c w s).hostLog = s.hostLog := rfl
@[simp] theorem raiseFault_free (c : Cause) (w : Word) : (raiseFault c w s).free = s.free := rfl

/-! ### `startPass` -/

@[simp] theorem startPass_regs (off : Word) (c0 : Byte) : (startPass off c0 s).regs = s.regs := rfl
@[simp] theorem startPass_n (off : Word) (c0 : Byte) : (startPass off c0 s).n = s.n := rfl
@[simp] theorem startPass_v (off : Word) (c0 : Byte) : (startPass off c0 s).v = s.v := rfl
@[simp] theorem startPass_modv (off : Word) (c0 : Byte) : (startPass off c0 s).modv = s.modv := rfl
@[simp] theorem startPass_rf (off : Word) (c0 : Byte) : (startPass off c0 s).rf = s.rf := rfl
@[simp] theorem startPass_estruct (off : Word) (c0 : Byte) : (startPass off c0 s).estruct = s.estruct := rfl
@[simp] theorem startPass_epad (off : Word) (c0 : Byte) : (startPass off c0 s).epad = s.epad := rfl
@[simp] theorem startPass_esum (off : Word) (c0 : Byte) : (startPass off c0 s).esum = s.esum := rfl
@[simp] theorem startPass_fault (off : Word) (c0 : Byte) : (startPass off c0 s).fault = s.fault := rfl
@[simp] theorem startPass_cause (off : Word) (c0 : Byte) : (startPass off c0 s).cause = s.cause := rfl
@[simp] theorem startPass_fcmd (off : Word) (c0 : Byte) : (startPass off c0 s).fcmd = s.fcmd := rfl
@[simp] theorem startPass_cnt (off : Word) (c0 : Byte) : (startPass off c0 s).cnt = c0 := rfl
@[simp] theorem startPass_acc (off : Word) (c0 : Byte) : (startPass off c0 s).acc = 0#8 := rfl
@[simp] theorem startPass_cur (off : Word) (c0 : Byte) : (startPass off c0 s).cur = s.cur + 1#16 := rfl
@[simp] theorem startPass_out (off : Word) (c0 : Byte) : (startPass off c0 s).out = off := rfl
@[simp] theorem startPass_scratch (off : Word) (c0 : Byte) : (startPass off c0 s).scratch = s.scratch := rfl
@[simp] theorem startPass_dst (off : Word) (c0 : Byte) : (startPass off c0 s).dst = s.dst := rfl
@[simp] theorem startPass_pass (off : Word) (c0 : Byte) : (startPass off c0 s).pass = s.pass := rfl
@[simp] theorem startPass_ct (off : Word) (c0 : Byte) : (startPass off c0 s).ct = s.ct := rfl
@[simp] theorem startPass_pt (off : Word) (c0 : Byte) : (startPass off c0 s).pt = s.pt := rfl
@[simp] theorem startPass_ptLen (off : Word) (c0 : Byte) : (startPass off c0 s).ptLen = s.ptLen := rfl
@[simp] theorem startPass_port (off : Word) (c0 : Byte) : (startPass off c0 s).port = s.port := rfl
@[simp] theorem startPass_hostLog (off : Word) (c0 : Byte) : (startPass off c0 s).hostLog = s.hostLog := rfl
@[simp] theorem startPass_free (off : Word) (c0 : Byte) : (startPass off c0 s).free = s.free := rfl

/-! ### `startDecrypt` -/

@[simp] theorem startDecrypt_regs : (startDecrypt s).regs = s.regs := rfl
@[simp] theorem startDecrypt_n : (startDecrypt s).n = s.n := rfl
@[simp] theorem startDecrypt_v : (startDecrypt s).v = s.v := rfl
@[simp] theorem startDecrypt_modv : (startDecrypt s).modv = s.modv := rfl
@[simp] theorem startDecrypt_rf : (startDecrypt s).rf = s.rf := rfl
@[simp] theorem startDecrypt_estruct : (startDecrypt s).estruct = false := rfl
@[simp] theorem startDecrypt_epad : (startDecrypt s).epad = false := rfl
@[simp] theorem startDecrypt_esum : (startDecrypt s).esum = false := rfl
@[simp] theorem startDecrypt_fault : (startDecrypt s).fault = s.fault := rfl
@[simp] theorem startDecrypt_cause : (startDecrypt s).cause = s.cause := rfl
@[simp] theorem startDecrypt_fcmd : (startDecrypt s).fcmd = s.fcmd := rfl
@[simp] theorem startDecrypt_cnt : (startDecrypt s).cnt = s.cnt := rfl
@[simp] theorem startDecrypt_acc : (startDecrypt s).acc = s.acc := rfl
@[simp] theorem startDecrypt_cur : (startDecrypt s).cur = 0#16 := rfl
@[simp] theorem startDecrypt_out : (startDecrypt s).out = s.out := rfl
@[simp] theorem startDecrypt_scratch : (startDecrypt s).scratch = s.scratch := rfl
@[simp] theorem startDecrypt_dst : (startDecrypt s).dst = s.dst := rfl
@[simp] theorem startDecrypt_pass : (startDecrypt s).pass = 0 := rfl
@[simp] theorem startDecrypt_ct : (startDecrypt s).ct = s.ct := rfl
@[simp] theorem startDecrypt_pt : (startDecrypt s).pt = s.pt := rfl
@[simp] theorem startDecrypt_ptLen : (startDecrypt s).ptLen = s.ptLen := rfl
@[simp] theorem startDecrypt_port : (startDecrypt s).port = s.port := rfl
@[simp] theorem startDecrypt_hostLog : (startDecrypt s).hostLog = s.hostLog := rfl
@[simp] theorem startDecrypt_free : (startDecrypt s).free = s.free := rfl

/-! ### `goState` -/

@[simp] theorem goState_regs (d : DecoderState) : (goState d s).regs = s.regs := rfl
@[simp] theorem goState_n (d : DecoderState) : (goState d s).n = s.n := rfl
@[simp] theorem goState_v (d : DecoderState) : (goState d s).v = s.v := rfl
@[simp] theorem goState_modv (d : DecoderState) : (goState d s).modv = s.modv := rfl
@[simp] theorem goState_rf (d : DecoderState) : (goState d s).rf = s.rf := rfl
@[simp] theorem goState_estruct (d : DecoderState) : (goState d s).estruct = s.estruct := rfl
@[simp] theorem goState_epad (d : DecoderState) : (goState d s).epad = s.epad := rfl
@[simp] theorem goState_esum (d : DecoderState) : (goState d s).esum = s.esum := rfl
@[simp] theorem goState_fault (d : DecoderState) : (goState d s).fault = s.fault := rfl
@[simp] theorem goState_cause (d : DecoderState) : (goState d s).cause = s.cause := rfl
@[simp] theorem goState_fcmd (d : DecoderState) : (goState d s).fcmd = s.fcmd := rfl
@[simp] theorem goState_cnt (d : DecoderState) : (goState d s).cnt = s.cnt := rfl
@[simp] theorem goState_acc (d : DecoderState) : (goState d s).acc = s.acc := rfl
@[simp] theorem goState_cur (d : DecoderState) : (goState d s).cur = s.cur := rfl
@[simp] theorem goState_out (d : DecoderState) : (goState d s).out = s.out := rfl
@[simp] theorem goState_scratch (d : DecoderState) : (goState d s).scratch = s.scratch := rfl
@[simp] theorem goState_dst (d : DecoderState) : (goState d s).dst = d := rfl
@[simp] theorem goState_pass (d : DecoderState) : (goState d s).pass = s.pass := rfl
@[simp] theorem goState_ct (d : DecoderState) : (goState d s).ct = s.ct := rfl
@[simp] theorem goState_pt (d : DecoderState) : (goState d s).pt = s.pt := rfl
@[simp] theorem goState_ptLen (d : DecoderState) : (goState d s).ptLen = s.ptLen := rfl
@[simp] theorem goState_port (d : DecoderState) : (goState d s).port = s.port := rfl
@[simp] theorem goState_hostLog (d : DecoderState) : (goState d s).hostLog = s.hostLog := rfl
@[simp] theorem goState_free (d : DecoderState) : (goState d s).free = s.free := rfl

/-! ### `setChunk` -/

@[simp] theorem setChunk_regs (E : Big) : (setChunk s E).regs = s.regs := rfl
@[simp] theorem setChunk_n (E : Big) : (setChunk s E).n = s.n := rfl
@[simp] theorem setChunk_v (E : Big) : (setChunk s E).v = s.v := rfl
@[simp] theorem setChunk_modv (E : Big) : (setChunk s E).modv = s.modv := rfl
@[simp] theorem setChunk_rf (E : Big) : (setChunk s E).rf = s.rf := rfl
@[simp] theorem setChunk_estruct (E : Big) : (setChunk s E).estruct = s.estruct := rfl
@[simp] theorem setChunk_epad (E : Big) : (setChunk s E).epad = s.epad := rfl
@[simp] theorem setChunk_esum (E : Big) : (setChunk s E).esum = s.esum := rfl
@[simp] theorem setChunk_fault (E : Big) : (setChunk s E).fault = s.fault := rfl
@[simp] theorem setChunk_cause (E : Big) : (setChunk s E).cause = s.cause := rfl
@[simp] theorem setChunk_fcmd (E : Big) : (setChunk s E).fcmd = s.fcmd := rfl
@[simp] theorem setChunk_cnt (E : Big) : (setChunk s E).cnt = s.cnt := rfl
@[simp] theorem setChunk_acc (E : Big) : (setChunk s E).acc = s.acc := rfl
@[simp] theorem setChunk_cur (E : Big) : (setChunk s E).cur = s.cur := rfl
@[simp] theorem setChunk_out (E : Big) : (setChunk s E).out = s.out := rfl
@[simp] theorem setChunk_scratch_t (E : Big) : (setChunk s E).scratch.t = s.scratch.t := rfl
@[simp] theorem setChunk_scratch_s0 (E : Big) : (setChunk s E).scratch.s0 = s.scratch.s0 := rfl
@[simp] theorem setChunk_scratch_s1 (E : Big) : (setChunk s E).scratch.s1 = E := rfl
@[simp] theorem setChunk_scratch_s2 (E : Big) : (setChunk s E).scratch.s2 = s.scratch.s2 := rfl
@[simp] theorem setChunk_scratch_s3 (E : Big) : (setChunk s E).scratch.s3 = s.scratch.s3 := rfl
@[simp] theorem setChunk_dst (E : Big) : (setChunk s E).dst = s.dst := rfl
@[simp] theorem setChunk_pass (E : Big) : (setChunk s E).pass = s.pass := rfl
@[simp] theorem setChunk_ct (E : Big) : (setChunk s E).ct = s.ct := rfl
@[simp] theorem setChunk_pt (E : Big) : (setChunk s E).pt = s.pt := rfl
@[simp] theorem setChunk_ptLen (E : Big) : (setChunk s E).ptLen = s.ptLen := rfl
@[simp] theorem setChunk_port (E : Big) : (setChunk s E).port = s.port := rfl
@[simp] theorem setChunk_hostLog (E : Big) : (setChunk s E).hostLog = s.hostLog := rfl
@[simp] theorem setChunk_free (E : Big) : (setChunk s E).free = s.free := rfl

/-! ### `setSquare` -/

@[simp] theorem setSquare_regs (S : Big) : (setSquare s S).regs = s.regs := rfl
@[simp] theorem setSquare_n (S : Big) : (setSquare s S).n = s.n := rfl
@[simp] theorem setSquare_v (S : Big) : (setSquare s S).v = s.v := rfl
@[simp] theorem setSquare_modv (S : Big) : (setSquare s S).modv = s.modv := rfl
@[simp] theorem setSquare_rf (S : Big) : (setSquare s S).rf = s.rf := rfl
@[simp] theorem setSquare_estruct (S : Big) : (setSquare s S).estruct = s.estruct := rfl
@[simp] theorem setSquare_epad (S : Big) : (setSquare s S).epad = s.epad := rfl
@[simp] theorem setSquare_esum (S : Big) : (setSquare s S).esum = s.esum := rfl
@[simp] theorem setSquare_fault (S : Big) : (setSquare s S).fault = s.fault := rfl
@[simp] theorem setSquare_cause (S : Big) : (setSquare s S).cause = s.cause := rfl
@[simp] theorem setSquare_fcmd (S : Big) : (setSquare s S).fcmd = s.fcmd := rfl
@[simp] theorem setSquare_cnt (S : Big) : (setSquare s S).cnt = s.cnt := rfl
@[simp] theorem setSquare_acc (S : Big) : (setSquare s S).acc = s.acc := rfl
@[simp] theorem setSquare_cur (S : Big) : (setSquare s S).cur = s.cur := rfl
@[simp] theorem setSquare_out (S : Big) : (setSquare s S).out = s.out := rfl
@[simp] theorem setSquare_scratch_t (S : Big) : (setSquare s S).scratch.t = s.scratch.t := rfl
@[simp] theorem setSquare_scratch_s0 (S : Big) : (setSquare s S).scratch.s0 = S := rfl
@[simp] theorem setSquare_scratch_s1 (S : Big) : (setSquare s S).scratch.s1 = s.scratch.s1 := rfl
@[simp] theorem setSquare_scratch_s2 (S : Big) : (setSquare s S).scratch.s2 = s.scratch.s2 := rfl
@[simp] theorem setSquare_scratch_s3 (S : Big) : (setSquare s S).scratch.s3 = s.scratch.s3 := rfl
@[simp] theorem setSquare_dst (S : Big) : (setSquare s S).dst = s.dst := rfl
@[simp] theorem setSquare_pass (S : Big) : (setSquare s S).pass = s.pass := rfl
@[simp] theorem setSquare_ct (S : Big) : (setSquare s S).ct = s.ct := rfl
@[simp] theorem setSquare_pt (S : Big) : (setSquare s S).pt = s.pt := rfl
@[simp] theorem setSquare_ptLen (S : Big) : (setSquare s S).ptLen = s.ptLen := rfl
@[simp] theorem setSquare_port (S : Big) : (setSquare s S).port = s.port := rfl
@[simp] theorem setSquare_hostLog (S : Big) : (setSquare s S).hostLog = s.hostLog := rfl
@[simp] theorem setSquare_free (S : Big) : (setSquare s S).free = s.free := rfl

/-! ### `setCube` -/

@[simp] theorem setCube_regs (P : Big) : (setCube s P).regs = s.regs := rfl
@[simp] theorem setCube_n (P : Big) : (setCube s P).n = s.n := rfl
@[simp] theorem setCube_v (P : Big) : (setCube s P).v = s.v := rfl
@[simp] theorem setCube_modv (P : Big) : (setCube s P).modv = s.modv := rfl
@[simp] theorem setCube_rf (P : Big) : (setCube s P).rf = s.rf := rfl
@[simp] theorem setCube_estruct (P : Big) : (setCube s P).estruct = s.estruct := rfl
@[simp] theorem setCube_epad (P : Big) : (setCube s P).epad = s.epad := rfl
@[simp] theorem setCube_esum (P : Big) : (setCube s P).esum = s.esum := rfl
@[simp] theorem setCube_fault (P : Big) : (setCube s P).fault = s.fault := rfl
@[simp] theorem setCube_cause (P : Big) : (setCube s P).cause = s.cause := rfl
@[simp] theorem setCube_fcmd (P : Big) : (setCube s P).fcmd = s.fcmd := rfl
@[simp] theorem setCube_cnt (P : Big) : (setCube s P).cnt = s.cnt := rfl
@[simp] theorem setCube_acc (P : Big) : (setCube s P).acc = s.acc := rfl
@[simp] theorem setCube_cur (P : Big) : (setCube s P).cur = s.cur := rfl
@[simp] theorem setCube_out (P : Big) : (setCube s P).out = s.out := rfl
@[simp] theorem setCube_scratch_t (P : Big) : (setCube s P).scratch.t = s.scratch.t := rfl
@[simp] theorem setCube_scratch_s0 (P : Big) : (setCube s P).scratch.s0 = s.scratch.s0 := rfl
@[simp] theorem setCube_scratch_s1 (P : Big) : (setCube s P).scratch.s1 = s.scratch.s1 := rfl
@[simp] theorem setCube_scratch_s2 (P : Big) : (setCube s P).scratch.s2 = P := rfl
@[simp] theorem setCube_scratch_s3 (P : Big) : (setCube s P).scratch.s3 = s.scratch.s3 := rfl
@[simp] theorem setCube_dst (P : Big) : (setCube s P).dst = s.dst := rfl
@[simp] theorem setCube_pass (P : Big) : (setCube s P).pass = s.pass := rfl
@[simp] theorem setCube_ct (P : Big) : (setCube s P).ct = s.ct := rfl
@[simp] theorem setCube_pt (P : Big) : (setCube s P).pt = s.pt := rfl
@[simp] theorem setCube_ptLen (P : Big) : (setCube s P).ptLen = s.ptLen := rfl
@[simp] theorem setCube_port (P : Big) : (setCube s P).port = s.port := rfl
@[simp] theorem setCube_hostLog (P : Big) : (setCube s P).hostLog = s.hostLog := rfl
@[simp] theorem setCube_free (P : Big) : (setCube s P).free = s.free := rfl

/-! ### Reading a general register -/

/-- A register read after a register write (10_state.md R20). -/
@[simp] theorem getReg_setReg (i j : Reg) (X : Big) : getReg (setReg s i X) j = if j = i then X else getReg s j := by
  by_cases h : j = i
  · subst h
    simp [getReg]
  · have hv : ¬ i.val = j.val := fun e => h (Fin.ext e.symm)
    simp [getReg, h, hv]

@[simp] theorem getReg_setModulus (X : Big) (v : Byte) (j : Reg) : getReg (setModulus s X v) j = getReg s j := rfl
@[simp] theorem getReg_setCur (a : Word) (j : Reg) : getReg (setCur s a) j = getReg s j := rfl
@[simp] theorem getReg_clobberScratch (j : Reg) : getReg (clobberScratch s) j = getReg s j := rfl
@[simp] theorem getReg_setPt (a : Nat) (v : Byte) (j : Reg) : getReg (setPt s a v) j = getReg s j := rfl
@[simp] theorem getReg_setCt (a : Nat) (v : Byte) (j : Reg) : getReg (setCt s a v) j = getReg s j := rfl
@[simp] theorem getReg_setRf (f : Bool) (j : Reg) : getReg (setRf s f) j = getReg s j := rfl
@[simp] theorem getReg_clearErrors (j : Reg) : getReg (clearErrors s) j = getReg s j := rfl
@[simp] theorem getReg_recordStruct (f : Bool) (j : Reg) : getReg (recordStruct s f) j = getReg s j := rfl
@[simp] theorem getReg_recordPad (f : Bool) (j : Reg) : getReg (recordPad s f) j = getReg s j := rfl
@[simp] theorem getReg_recordSum (f : Bool) (j : Reg) : getReg (recordSum s f) j = getReg s j := rfl
@[simp] theorem getReg_setAccOut (a : Byte) (o : Word) (j : Reg) : getReg (setAccOut s a o) j = getReg s j := rfl
@[simp] theorem getReg_advanceCounter (j : Reg) : getReg (advanceCounter s) j = getReg s j := rfl
@[simp] theorem getReg_setPass (p : Fin 2) (j : Reg) : getReg (setPass s p) j = getReg s j := rfl
@[simp] theorem getReg_giveHost (x : Word) (j : Reg) : getReg (giveHost s x) j = getReg s j := rfl
@[simp] theorem getReg_setPort (ops : List HostOp) (j : Reg) : getReg (setPort s ops) j = getReg s j := rfl
@[simp] theorem getReg_raiseFault (c : Cause) (w : Word) (j : Reg) : getReg (raiseFault c w s) j = getReg s j := rfl
@[simp] theorem getReg_startPass (off : Word) (c0 : Byte) (j : Reg) : getReg (startPass off c0 s) j = getReg s j := rfl
@[simp] theorem getReg_startDecrypt (j : Reg) : getReg (startDecrypt s) j = getReg s j := rfl
@[simp] theorem getReg_goState (d : DecoderState) (j : Reg) : getReg (goState d s) j = getReg s j := rfl
@[simp] theorem getReg_setChunk (E : Big) (j : Reg) : getReg (setChunk s E) j = getReg s j := rfl
@[simp] theorem getReg_setSquare (S : Big) (j : Reg) : getReg (setSquare s S) j = getReg s j := rfl
@[simp] theorem getReg_setCube (P : Big) (j : Reg) : getReg (setCube s P) j = getReg s j := rfl

end Sys2Proof.Machine
end

