-- ==== Sys2Proof/Laws/Ops.lean ====
section
/-! SUPPORT. What each shared operation of Machine/Ops.lean, Operands.lean, Flags.lean and Host.lean can do, said once. -/

namespace Sys2Proof.Machine

/-! ### Checks and operand forms -/

/-- A command completes in the state it is given, its scratch made free (00_scope.md R9). -/
theorem complete_eq (s : State) : complete s = .next (clobberScratch s) := rfl

/-- Taking a fault is a next state (60_exceptions.md R225). -/
theorem raise_eq (c : Cause) (i : Instr) (s : State) : raise c i s = .next (raiseFault c (encode i) s) := rfl

theorem aliasChecked_of_alias (i : Instr) (s : State) (body : State → Result) :
    aliasChecked i true s body = raise .aliased i s := rfl

theorem aliasChecked_of_distinct (i : Instr) (s : State) (body : State → Result) :
    aliasChecked i false s body = body s := rfl

theorem modulusChecked_of_loaded (i : Instr) (s : State) (body : State → Result) (h : s.modv = true) :
    modulusChecked i s body = body s := by simp [modulusChecked, h]

theorem modulusChecked_of_none (i : Instr) (s : State) (body : State → Result) (h : s.modv = false) :
    modulusChecked i s body = raise .nomod i s := by simp [modulusChecked, h]

/-- All that a format DS command with the modulus can do (30_encoding.md R92). -/
theorem unaryModular_eq (i : Instr) (rd rs1 : Reg) (f : Big → Big → Byte → Big) (s : State) :
    unaryModular i rd rs1 f s =
      if rd = rs1 then raise .aliased i s
      else if s.modv then complete (setReg s rd (f (getReg s rs1) s.n s.v))
      else raise .nomod i s := by
  by_cases h : rd = rs1 <;> simp [unaryModular, aliasChecked, modulusChecked, aliases1, h]

/-- All that a format DSS command can do (30_encoding.md R92). -/
theorem binaryModular_eq (i : Instr) (rd rs1 rs2 : Reg) (f : Big → Big → Big → Byte → Big) (s : State) :
    binaryModular i rd rs1 rs2 f s =
      if rd = rs1 ∨ rd = rs2 then raise .aliased i s
      else if s.modv then complete (setReg s rd (f (getReg s rs1) (getReg s rs2) s.n s.v))
      else raise .nomod i s := by
  by_cases h1 : rd = rs1 <;> by_cases h2 : rd = rs2 <;>
    simp [binaryModular, aliasChecked, modulusChecked, aliases2, h1, h2]

/-! ### Engine accesses -/

theorem ctRead_ok (s : State) (a : Nat) (h : a < Config.ctLen) : ctRead s a = .ok (memRead s.ct a) := if_pos h

theorem ptWrite_ok (s : State) (a : Nat) (v : Byte) (h : a < s.ptLen) : ptWrite s a v = .ok (setPt s a v) := if_pos h

/-! ### Host operations -/

/-- The register a REG address names, when it names one (20_memory.md R51). -/
theorem regWindow_eq (i : Reg) (k : Nat) (hk : k < 64) : regWindow (64 * i.val + k) = some i := by
  have hi := i.isLt
  have h : (64 * i.val + k) / 64 = i.val := by omega
  simp [regWindow, h]

/-- All that one host operation can do (44_system_host.md R202 to R204). -/
theorem hostStep_cases (op : HostOp) (s : State) :
    (∃ sp a v s', op = .hwr sp a v ∧ hostWrite s sp a v = some s' ∧ hostStep op s = .next s') ∨
    (∃ sp a v, op = .hwr sp a v ∧ hostWrite s sp a v = none ∧ hostStep op s = .refused (.hostWriteOutside sp a)) ∨
    (∃ sp a x, op = .hrd sp a ∧ hostRead s sp a = some x ∧ hostStep op s = .next (giveHost s x)) ∨
    (∃ sp a, op = .hrd sp a ∧ hostRead s sp a = none ∧ hostStep op s = .refused (.hostReadOutside sp a)) ∨
    (∃ w, op = .cmd w ∧ hostStep op s = command w s) ∨
    (op = .reset ∧ hostStep op s = .next (hostReset s)) := by
  cases op with
  | hwr sp a v =>
    cases h : hostWrite s sp a v with
    | none => exact .inr (.inl ⟨sp, a, v, rfl, h, by simp [hostStep, h]⟩)
    | some s' => exact .inl ⟨sp, a, v, s', rfl, h, by simp [hostStep, h]⟩
  | hrd sp a =>
    cases h : hostRead s sp a with
    | none => exact .inr (.inr (.inr (.inl ⟨sp, a, rfl, h, by simp [hostStep, h]⟩)))
    | some x => exact .inr (.inr (.inl ⟨sp, a, x, rfl, h, by simp [hostStep, h]⟩))
  | cmd w => exact .inr (.inr (.inr (.inr (.inl ⟨w, rfl, rfl⟩))))
  | reset => exact .inr (.inr (.inr (.inr (.inr ⟨rfl, rfl⟩))))

/-- All that a host write inside the interface can do (44_system_host.md R202). -/
theorem hostWrite_cases (s s' : State) (sp : Space) (a : Nat) (v : Byte) (h : hostWrite s sp a v = some s') :
    (sp = .reg ∧ a % 64 ≤ 50 ∧ ∃ i, regWindow a = some i ∧
      s' = setReg s i (setByteAt (getReg s i) (a % 64) v)) ∨
    (sp = .ct ∧ a < Config.ctLen ∧ s' = setCt s a v) ∨
    (sp = .pt ∧ a < s.ptLen ∧ s' = setPt s a v) := by
  cases sp with
  | reg =>
    simp only [hostWrite] at h
    split at h
    · rename_i hk
      cases hw : regWindow a with
      | none => simp [hw] at h
      | some i => exact .inl ⟨rfl, hk, i, rfl, by simpa [hw] using h.symm⟩
    · cases h
  | csr => cases h
  | ct =>
    simp only [hostWrite] at h
    split at h
    · rename_i hk
      exact .inr (.inl ⟨rfl, hk, by simpa using h.symm⟩)
    · cases h
  | pt =>
    simp only [hostWrite] at h
    split at h
    · rename_i hk
      exact .inr (.inr ⟨rfl, hk, by simpa using h.symm⟩)
    · cases h

/-- All that a host read inside the interface can return (44_system_host.md R203). -/
theorem hostRead_cases (s : State) (sp : Space) (a : Nat) (x : Word) (h : hostRead s sp a = some x) :
    (sp = .reg ∧ a % 64 ≤ 50 ∧ ∃ i, regWindow a = some i ∧ x = (byteAt (getReg s i) (a % 64)).setWidth 16) ∨
    (sp = .reg ∧ a % 64 ≤ 50 ∧ a / 64 = 8 ∧ x = (byteAt s.n (a % 64)).setWidth 16) ∨
    (sp = .csr ∧ csrRead s a = some x) ∨
    (sp = .ct ∧ a < Config.ctLen ∧ x = (memRead s.ct a).setWidth 16) ∨
    (sp = .pt ∧ a < s.ptLen ∧ x = (memRead s.pt a).setWidth 16) := by
  cases sp with
  | reg =>
    simp only [hostRead, regSpaceRead] at h
    split at h
    · rename_i hk
      cases hw : regWindow a with
      | some i => exact .inl ⟨rfl, hk, i, rfl, by simpa [hw] using h.symm⟩
      | none =>
        by_cases h8 : a / 64 = 8
        · exact .inr (.inl ⟨rfl, hk, h8, by simpa [hw, h8] using h.symm⟩)
        · simp [hw, h8] at h
    · cases h
  | csr => exact .inr (.inr (.inl ⟨rfl, h⟩))
  | ct =>
    simp only [hostRead] at h
    split at h
    · rename_i hk
      exact .inr (.inr (.inr (.inl ⟨rfl, hk, by simpa using h.symm⟩)))
    · cases h
  | pt =>
    simp only [hostRead] at h
    split at h
    · rename_i hk
      exact .inr (.inr (.inr (.inr ⟨rfl, hk, by simpa using h.symm⟩)))
    · cases h

/-- All that a presented word can do (30_encoding.md R92 steps 1, 2). -/
theorem command_cases (w : Word) (s : State) :
    (s.fault = true ∧ command w s = .next s) ∨
    (s.fault = false ∧ (∃ e, decode w = .error e) ∧ command w s = .next (raiseFault .illegal w s)) ∨
    (s.fault = false ∧ ∃ i, decode w = .ok i ∧ command w s = exec i s) := by
  cases hf : s.fault with
  | true => exact .inl ⟨rfl, by simp [command, hf]⟩
  | false =>
    cases hd : decode w with
    | error e => exact .inr (.inl ⟨rfl, ⟨e, rfl⟩, by simp [command, hf, hd]⟩)
    | ok i => exact .inr (.inr ⟨rfl, i, rfl, by simp [command, hf, hd]⟩)

/-- All that a step can do: idle, or the host's next operation. -/
theorem nextHostOp_cases (s : State) :
    (s.port = [] ∧ nextHostOp s = .next s) ∨
    ∃ op rest, s.port = op :: rest ∧ nextHostOp s = hostStep op (setPort s rest) := by
  cases h : s.port with
  | nil => exact .inl ⟨rfl, by simp [nextHostOp, h]⟩
  | cons op rest => exact .inr ⟨op, rest, rfl, by simp [nextHostOp, h]⟩

end Sys2Proof.Machine
end

