-- ==== Sys2Proof/Laws/Decoder.lean ====
section
/-! SUPPORT. What a decode pass does: inside its bounds every engine access exists, so the pass is a total function of
the state, given here once without the stops. -/

namespace Sys2Proof.Machine

/-! ### Loading a chunk -/

/-- The chunk at a stream address, byte-reversed (43_chunk_decoder.md R171). -/
def chunkAt (ct : Memory) (a : Nat) : Big :=
  (List.range 51).foldl (fun E k => setByteAt E (50 - k) (memRead ct (a + k))) (clearBig 51)

/-- Stream byte `k` of a chunk is at position `50 - k` (20_memory.md R56). -/
theorem byteAt_chunkAt (ct : Memory) (a k : Nat) (hk : k ≤ 50) :
    byteAt (chunkAt ct a) (50 - k) = memRead ct (a + k) := by
  have key : ∀ r, r ≤ 51 → ∀ k, k < r →
      byteAt ((List.range r).foldl (fun E k => setByteAt E (50 - k) (memRead ct (a + k))) (clearBig 51)) (50 - k)
        = memRead ct (a + k) := by
    intro r
    induction r with
    | zero => intro _ k hk; omega
    | succ r ih =>
      intro hr k hk
      rw [List.range_succ, List.foldl_append, List.foldl_cons, List.foldl_nil,
        byteAt_setByteAt _ _ _ (by omega) (by omega)]
      by_cases h : k = r
      · subst h; simp
      · rw [if_neg (by omega)]
        exact ih (by omega) k (by omega)
  exact key 51 le_rfl k (by omega)

/-- Inside CT the load succeeds and gives the chunk at `CUR` (43_chunk_decoder.md R171). -/
theorem loadBytes_ok (s : State) (h : s.cur.toNat + 51 ≤ Config.ctLen) :
    loadBytes s = .ok (chunkAt s.ct s.cur.toNat) := by
  have key : ∀ l : List Nat, (∀ k ∈ l, k < 51) → ∀ E : Big,
      l.foldlM (fun E k => do
        let b ← ctRead s (s.cur.toNat + k)
        return setByteAt E (50 - k) b) E
      = (.ok (l.foldl (fun E k => setByteAt E (50 - k) (memRead s.ct (s.cur.toNat + k))) E) : Except Fault Big) := by
    intro l
    induction l with
    | nil => intro _ E; rfl
    | cons k l ih =>
      intro hl E
      have hk : k < 51 := hl k (by simp)
      rw [List.foldlM_cons, ctRead_ok s _ (by omega)]
      exact ih (fun k hk => hl k (by simp [hk])) _
  exact key _ (fun k hk => List.mem_range.1 hk) _

/-! ### Folding -/

/-- One payload byte folded, without the stop. -/
def foldByteState (s : State) (p : Byte) : State :=
  setAccOut (setPt s s.out.toNat (s.acc + p)) (s.acc + p) (s.out + 1#16)

theorem foldByte_ok (s : State) (p : Byte) (h : s.out.toNat < s.ptLen) : foldByte s p = .ok (foldByteState s p) := by
  simp only [foldByte, ptWrite_ok s _ _ h]
  rfl

@[simp] theorem foldByteState_acc (s : State) (p : Byte) : (foldByteState s p).acc = s.acc + p := rfl
@[simp] theorem foldByteState_out (s : State) (p : Byte) : (foldByteState s p).out = s.out + 1#16 := rfl
@[simp] theorem foldByteState_pt (s : State) (p : Byte) :
    (foldByteState s p).pt = memWrite s.pt s.out.toNat (s.acc + p) := rfl
@[simp] theorem foldByteState_ptLen (s : State) (p : Byte) : (foldByteState s p).ptLen = s.ptLen := rfl

/-- Only `ACC`, `OUT` and PT change in a fold. -/
theorem foldBytes_frame (l : List Byte) (s : State) :
    l.foldl foldByteState s =
      { s with acc := (l.foldl foldByteState s).acc, out := (l.foldl foldByteState s).out
               pt := (l.foldl foldByteState s).pt } := by
  induction l generalizing s with
  | nil => rfl
  | cons p l ih =>
    rw [List.foldl_cons, ih (foldByteState s p)]
    rfl

/-- What the fold of a list of payload bytes leaves: the running sums from `OUT` on (43_chunk_decoder.md R174). -/
theorem foldBytes_spec (l : List Byte) (s : State) (hwf : Memory.wf s.pt = true)
    (hfit : s.out.toNat + l.length ≤ 65535) :
    (l.foldl foldByteState s).acc = s.acc + l.sum ∧
    (l.foldl foldByteState s).out.toNat = s.out.toNat + l.length ∧
    Memory.wf (l.foldl foldByteState s).pt = true ∧
    (∀ a, memRead (l.foldl foldByteState s).pt a =
      if s.out.toNat ≤ a ∧ a < s.out.toNat + l.length then s.acc + (l.take (a - s.out.toNat + 1)).sum
      else memRead s.pt a) := by
  induction l generalizing s with
  | nil => exact ⟨by simp, by simp, hwf, fun a => by rw [if_neg (by simp)]; rfl⟩
  | cons p l ih =>
    have hlen : (p :: l).length = l.length + 1 := rfl
    have ho : (foldByteState s p).out.toNat = s.out.toNat + 1 := by
      simp [BitVec.toNat_add]; omega
    obtain ⟨hacc, hout, hpt, hrd⟩ := ih (foldByteState s p) (memWrite_wf _ hwf _ _) (by omega)
    refine ⟨?_, by rw [List.foldl_cons, hout, ho]; omega, hpt, fun a => ?_⟩
    · rw [List.foldl_cons, hacc, foldByteState_acc, List.sum_cons, BitVec.add_assoc]
    · rw [List.foldl_cons, hrd, ho, foldByteState_pt, memRead_memWrite _ hwf, foldByteState_acc]
      by_cases h1 : a = s.out.toNat
      · subst h1
        simp
      · by_cases h2 : s.out.toNat + 1 ≤ a ∧ a < s.out.toNat + 1 + l.length
        · rw [if_pos h2, if_pos (by omega)]
          rw [show a - s.out.toNat + 1 = (a - (s.out.toNat + 1) + 1) + 1 by omega, List.take_succ_cons,
            List.sum_cons, BitVec.add_assoc]
        · rw [if_neg h2, if_neg h1, if_neg (by omega)]

/-- A fold keeps PT inside `PT_LEN`. -/
theorem foldBytes_below (l : List Byte) (s : State) (hbl : Memory.below s.ptLen s.pt = true)
    (hpt : s.out.toNat + l.length ≤ s.ptLen) (hfit : s.out.toNat + l.length ≤ 65535) :
    Memory.below s.ptLen (l.foldl foldByteState s).pt = true := by
  induction l generalizing s with
  | nil => exact hbl
  | cons p l ih =>
    have hlen : (p :: l).length = l.length + 1 := rfl
    have ho : (foldByteState s p).out.toNat = s.out.toNat + 1 := by
      simp [BitVec.toNat_add]; omega
    exact ih (foldByteState s p) (memWrite_below _ _ hbl _ (by omega) _) (by rw [ho]; simp only [foldByteState_ptLen]; omega) (by omega)

/-- Inside PT the fold succeeds. -/
theorem foldBytes_ok (l : List Byte) (s : State) (hpt : s.out.toNat + l.length ≤ s.ptLen)
    (hfit : s.out.toNat + l.length ≤ 65535) :
    l.foldlM foldByte s = .ok (l.foldl foldByteState s) := by
  induction l generalizing s with
  | nil => rfl
  | cons p l ih =>
    have hlen : (p :: l).length = l.length + 1 := rfl
    have ho : (foldByteState s p).out.toNat = s.out.toNat + 1 := by
      simp [BitVec.toNat_add]; omega
    rw [List.foldlM_cons, foldByte_ok s p (by omega)]
    exact ih (foldByteState s p) (by rw [ho]; simp only [foldByteState_ptLen]; omega) (by omega)

@[simp] theorem payload_length (P : Big) : (payload P).length = 50 := by simp [payload]

/-! ### One chunk -/

/-- The payload that the chunk at `CUR` gives (43_chunk_decoder.md R173, R174). -/
def chunkPayload (s : State) : List Byte := payload (cube (chunkAt s.ct s.cur.toNat) s.n)

@[simp] theorem chunkPayload_length (s : State) : (chunkPayload s).length = 50 := payload_length _

/-- The state in which the fold of a chunk starts: `CUR` advanced, the two checks made. -/
def foldInput (s : State) : State :=
  checkPad (cube (chunkAt s.ct s.cur.toNat) s.n)
    (checkStruct (chunkAt s.ct s.cur.toNat) (setCur s (s.cur + 51#16)))

theorem foldInput_eq (s : State) :
    foldInput s =
      { s with cur := s.cur + 51#16
               estruct := s.estruct || structViolation (chunkAt s.ct s.cur.toNat) s.n
               epad := s.epad || padViolation (cube (chunkAt s.ct s.cur.toNat) s.n) } := by
  simp only [foldInput, checkPad, checkStruct, recordPad, recordStruct, setCur]

@[simp] theorem foldInput_acc (s : State) : (foldInput s).acc = s.acc := by rw [foldInput_eq]
@[simp] theorem foldInput_out (s : State) : (foldInput s).out = s.out := by rw [foldInput_eq]
@[simp] theorem foldInput_pt (s : State) : (foldInput s).pt = s.pt := by rw [foldInput_eq]
@[simp] theorem foldInput_ptLen (s : State) : (foldInput s).ptLen = s.ptLen := by rw [foldInput_eq]

/-- One chunk of a pass, without the stops (43_chunk_decoder.md R178 steps 2a to 2e). -/
def chunkState (s : State) : State := advanceCounter ((chunkPayload s).foldl foldByteState (foldInput s))

/-- Inside both memories a chunk succeeds. -/
theorem decodeChunk_ok (s : State) (hct : s.cur.toNat + 51 ≤ Config.ctLen) (hpt : s.out.toNat + 50 ≤ s.ptLen)
    (hfit : s.out.toNat + 50 ≤ 65535) : decodeChunk s = .ok (chunkState s) := by
  have hload : loadChunk s = .ok (chunkAt s.ct s.cur.toNat, setCur s (s.cur + 51#16)) := by
    simp only [loadChunk, loadBytes_ok s hct]
    rfl
  have hfold : (chunkPayload s).foldlM foldByte (foldInput s) = .ok _ :=
    foldBytes_ok _ _ (by simpa using hpt) (by simpa using hfit)
  simp only [decodeChunk, hload]
  change (do
    let s2 ← (chunkPayload s).foldlM foldByte (foldInput s)
    return advanceCounter s2) = _
  rw [hfold]
  rfl

/-- Only these parts of the state change in a chunk. -/
theorem chunkState_frame (s : State) :
    chunkState s =
      { s with cur := s.cur + 51#16, cnt := s.cnt + 1#8, acc := (chunkState s).acc, out := (chunkState s).out
               pt := (chunkState s).pt
               estruct := s.estruct || structViolation (chunkAt s.ct s.cur.toNat) s.n
               epad := s.epad || padViolation (cube (chunkAt s.ct s.cur.toNat) s.n) } := by
  have h := foldBytes_frame (chunkPayload s) (foldInput s)
  unfold chunkState
  generalize (chunkPayload s).foldl foldByteState (foldInput s) = t at *
  rw [h, foldInput_eq]
  rfl

@[simp] theorem chunkState_cnt (s : State) : (chunkState s).cnt = s.cnt + 1#8 := by
  have h := congrArg State.cnt (chunkState_frame s)
  exact h
@[simp] theorem chunkState_cur (s : State) : (chunkState s).cur = s.cur + 51#16 := by
  have h := congrArg State.cur (chunkState_frame s)
  exact h
@[simp] theorem chunkState_ct (s : State) : (chunkState s).ct = s.ct := by
  have h := congrArg State.ct (chunkState_frame s)
  exact h
@[simp] theorem chunkState_n (s : State) : (chunkState s).n = s.n := by
  have h := congrArg State.n (chunkState_frame s)
  exact h
@[simp] theorem chunkState_ptLen (s : State) : (chunkState s).ptLen = s.ptLen := by
  have h := congrArg State.ptLen (chunkState_frame s)
  exact h
@[simp] theorem chunkState_free (s : State) : (chunkState s).free = s.free := by
  have h := congrArg State.free (chunkState_frame s)
  exact h

/-- What a chunk leaves in `ACC`, `OUT` and PT (43_chunk_decoder.md R174). -/
theorem chunkState_spec (s : State) (hwf : Memory.wf s.pt = true) (hfit : s.out.toNat + 50 ≤ 65535) :
    (chunkState s).acc = s.acc + (chunkPayload s).sum ∧
    (chunkState s).out.toNat = s.out.toNat + 50 ∧
    Memory.wf (chunkState s).pt = true ∧
    (∀ a, memRead (chunkState s).pt a =
      if s.out.toNat ≤ a ∧ a < s.out.toNat + 50 then s.acc + ((chunkPayload s).take (a - s.out.toNat + 1)).sum
      else memRead s.pt a) := by
  have h := foldBytes_spec (chunkPayload s) (foldInput s) (by simpa using hwf) (by simpa using hfit)
  simpa only [chunkState, advanceCounter_acc, advanceCounter_out, advanceCounter_pt, chunkPayload_length,
    foldInput_acc, foldInput_out, foldInput_pt] using h

/-- A chunk keeps PT inside `PT_LEN`. -/
theorem chunkState_below (s : State) (hbl : Memory.below s.ptLen s.pt = true) (hpt : s.out.toNat + 50 ≤ s.ptLen)
    (hfit : s.out.toNat + 50 ≤ 65535) : Memory.below s.ptLen (chunkState s).pt = true := by
  have h := foldBytes_below (chunkPayload s) (foldInput s) (by simpa using hbl) (by simpa using hpt)
    (by simpa using hfit)
  simpa only [chunkState, advanceCounter_pt, foldInput_ptLen] using h

/-! ### A pass -/

/-- `OUT` after a chunk. -/
theorem chunkState_out_val (s : State) (hfit : s.out.toNat + 50 ≤ 65535) :
    (chunkState s).out.toNat = s.out.toNat + 50 := by
  have key : ∀ (l : List Byte) (t : State), t.out.toNat + l.length ≤ 65535 →
      (l.foldl foldByteState t).out.toNat = t.out.toNat + l.length := by
    intro l
    induction l with
    | nil => intro t _; rfl
    | cons p l ih =>
      intro t ht
      have hlen : (p :: l).length = l.length + 1 := rfl
      have ho : (foldByteState t p).out.toNat = t.out.toNat + 1 := by
        simp [BitVec.toNat_add]; omega
      rw [List.foldl_cons, ih _ (by omega), ho]
      omega
  simpa only [chunkState, advanceCounter_out, chunkPayload_length, foldInput_out] using
    key (chunkPayload s) (foldInput s) (by simpa using hfit)

/-- The number of chunks still to come, from the counter (43_chunk_decoder.md R175). -/
theorem chunkCount_pos (c : Byte) : 1 ≤ chunkCount c := by
  have := c.isLt
  unfold chunkCount
  omega

/-- Inside both memories the loop runs `256 - CNT` chunks and stops (43_chunk_decoder.md R175). -/
theorem decodeChunks_ok (k : Nat) (s : State) (hk : chunkCount s.cnt ≤ k)
    (hct : s.cur.toNat + 51 * chunkCount s.cnt ≤ Config.ctLen)
    (hpt : s.out.toNat + 50 * chunkCount s.cnt ≤ s.ptLen)
    (hfit : s.out.toNat + 50 * chunkCount s.cnt ≤ 65535) :
    decodeChunks k s = .ok (chunkState^[chunkCount s.cnt] s) := by
  induction k generalizing s with
  | zero => have := chunkCount_pos s.cnt; omega
  | succ k ih =>
    have hpos := chunkCount_pos s.cnt
    have hcnt : (s.cnt + 1#8).toNat = (s.cnt.toNat + 1) % 256 := by simp [BitVec.toNat_add]
    have hlt := s.cnt.isLt
    rw [decodeChunks, decodeChunk_ok s (by omega) (by omega) (by omega)]
    change (if (chunkState s).cnt = 0#8 then Except.ok (chunkState s) else decodeChunks k (chunkState s)) = _
    rw [chunkState_cnt]
    by_cases h : s.cnt + 1#8 = 0#8
    · have h0 : (s.cnt.toNat + 1) % 256 = 0 := by rw [← hcnt, h]; rfl
      have h1 : chunkCount s.cnt = 1 := by unfold chunkCount; omega
      rw [if_pos h, h1]
      rfl
    · have h0 : (s.cnt.toNat + 1) % 256 ≠ 0 := by
        intro h0
        exact h (BitVec.eq_of_toNat_eq (by rw [hcnt, h0]; rfl))
      have h1 : chunkCount s.cnt = chunkCount (s.cnt + 1#8) + 1 := by
        unfold chunkCount
        rw [hcnt]
        omega
      have hcur : (chunkState s).cur.toNat = s.cur.toNat + 51 := by
        rw [chunkState_cur, BitVec.toNat_add]
        have : Config.ctLen = 410 := rfl
        simp
        omega
      have ho := chunkState_out_val s (by omega)
      rw [if_neg h, ih (chunkState s) (by rw [chunkState_cnt]; omega) (by rw [chunkState_cnt, hcur]; omega)
        (by rw [chunkState_cnt, ho, chunkState_ptLen]; omega) (by rw [chunkState_cnt, ho]; omega),
        chunkState_cnt, h1, Function.iterate_succ_apply]

/-- The state after a pass, without the stops (43_chunk_decoder.md R178). -/
def passState (off : Word) (s : State) : State :=
  let c0 := memRead s.ct s.cur.toNat
  checkSum (chunkState^[chunkCount c0] (startPass off c0 s))

/-- The bounds check in arithmetic (43_chunk_decoder.md R177). -/
theorem passBoundsOk_iff (off : Word) (s : State) :
    passBoundsOk off s = true ↔
      s.cur.toNat < 410 ∧ s.cur.toNat + 1 + 51 * chunkCount (memRead s.ct s.cur.toNat) ≤ 410 ∧
        off.toNat + 50 * chunkCount (memRead s.ct s.cur.toNat) ≤ s.ptLen := by
  by_cases h : s.cur.toNat < 410 <;> simp [passBoundsOk, ctRead, h]

/-- A pass inside its bounds succeeds (20_memory.md R61). -/
theorem runPass_ok (off : Word) (s : State) (hb : passBoundsOk off s = true) (hlen : s.ptLen ≤ 65535) :
    runPass off s = .ok (passState off s) := by
  obtain ⟨h1, h2, h3⟩ := (passBoundsOk_iff off s).1 hb
  have hcur : (s.cur + 1#16).toNat = s.cur.toNat + 1 := by
    rw [BitVec.toNat_add]
    simp
    omega
  simp only [runPass, ctRead_ok s _ h1]
  change (do
    let s' ← decodeChunks 256 (startPass off (memRead s.ct s.cur.toNat) s)
    return checkSum s') = _
  rw [decodeChunks_ok 256 _ (by simp [chunkCount]) (by simp only [startPass_cur, startPass_cnt, hcur]; omega)
    (by simp only [startPass_out, startPass_cnt, startPass_ptLen]; omega)
    (by simp only [startPass_out, startPass_cnt]; omega)]
  rfl

/-- All that a pass inside a command can do (43_chunk_decoder.md R178). -/
theorem decodePass_eq (i : Instr) (off : Word) (s : State) (body : State → Result) (hlen : s.ptLen ≤ 65535) :
    decodePass i off s body =
      if passBoundsOk off s then body (clobberScratch (passState off s)) else raise .bounds i s := by
  unfold decodePass
  split
  · rename_i hb
    rw [runPass_ok off s hb hlen]
  · rfl

/-! ### What a pass leaves alone -/

/-- Only these parts of the state change in any number of chunks. -/
theorem chunks_frame (k : Nat) (s : State) :
    chunkState^[k] s =
      { s with cur := (chunkState^[k] s).cur, cnt := (chunkState^[k] s).cnt, acc := (chunkState^[k] s).acc
               out := (chunkState^[k] s).out, pt := (chunkState^[k] s).pt
               estruct := (chunkState^[k] s).estruct, epad := (chunkState^[k] s).epad } := by
  induction k with
  | zero => rfl
  | succ k ih =>
    rw [Function.iterate_succ_apply', chunkState_frame]
    generalize chunkState^[k] s = t at *
    rw [ih]

/-- Only these parts of the state change in a pass. -/
theorem passState_frame (off : Word) (s : State) :
    passState off s =
      { s with cur := (passState off s).cur, cnt := (passState off s).cnt, acc := (passState off s).acc
               out := (passState off s).out, pt := (passState off s).pt
               estruct := (passState off s).estruct, epad := (passState off s).epad
               esum := (passState off s).esum } := by
  have h := chunks_frame (chunkCount (memRead s.ct s.cur.toNat)) (startPass off (memRead s.ct s.cur.toNat) s)
  simp only [passState]
  generalize chunkState^[chunkCount (memRead s.ct s.cur.toNat)] (startPass off (memRead s.ct s.cur.toNat) s) = t at *
  rw [h]
  rfl

@[simp] theorem passState_ptLen (off : Word) (s : State) : (passState off s).ptLen = s.ptLen := by
  have h := congrArg State.ptLen (passState_frame off s)
  exact h

@[simp] theorem passState_n (off : Word) (s : State) : (passState off s).n = s.n := by
  have h := congrArg State.n (passState_frame off s)
  exact h

@[simp] theorem passState_ct (off : Word) (s : State) : (passState off s).ct = s.ct := by
  have h := congrArg State.ct (passState_frame off s)
  exact h

@[simp] theorem passState_modv (off : Word) (s : State) : (passState off s).modv = s.modv := by
  have h := congrArg State.modv (passState_frame off s)
  exact h

@[simp] theorem passState_fault (off : Word) (s : State) : (passState off s).fault = s.fault := by
  have h := congrArg State.fault (passState_frame off s)
  exact h

@[simp] theorem passState_free (off : Word) (s : State) : (passState off s).free = s.free := by
  have h := congrArg State.free (passState_frame off s)
  exact h

end Sys2Proof.Machine
end

