-- ==== Sys2Proof/Laws/Exec.lean ====
section
/-! SUPPORT. All that a command can do, said once: the forms of the next state, with the condition of each. -/

namespace Sys2Proof.Machine

/-- The ways in which a command ends (30_encoding.md R92 steps 3 to 5). -/
inductive ExecEnd (i : Instr) (s : State) : State → Prop where
  /-- A fault found before any effect. -/
  | faults (c : Cause) : c ≠ .none → ExecEnd i s (raiseFault c (encode i) s)
  /-- `NOP`. -/
  | idle : i = .nop → ExecEnd i s s
  /-- A command whose one effect is its destination register. -/
  | register (rd : Reg) (X : Big) :
      (i = .clr rd ∨ i = .one rd ∨ (∃ a, i = .cpy rd a) ∨ i = .dbl rd ∨ (∃ a, i = .tomont rd a) ∨
        (∃ a b, i = .mmul rd a b) ∨ (∃ a b, i = .mexp rd a b) ∨ (∃ a, i = .frommont rd a) ∨
        (∃ a b, i = .modexp rd a b) ∨ (∃ a b, i = .modmul rd a b) ∨ (∃ a, i = .cube rd a)) →
      ExecEnd i s (clobberScratch (setReg s rd X))
  /-- `RED`. -/
  | reduced (rd : Reg) (X : Big) (f : Bool) : i = .red rd → ExecEnd i s (clobberScratch (setRf (setReg s rd X) f))
  /-- `LDN`. -/
  | loaded (rs1 : Reg) : i = .ldn rs1 → modulusInvalid (getReg s rs1) = false →
      ExecEnd i s (clobberScratch (setModulus s (getReg s rs1) (deriveCoefficient (getReg s rs1))))
  /-- `SETCUR`. -/
  | moved (imm : Word) : i = .setcur imm → ExecEnd i s (clobberScratch (setCur s imm))
  /-- `CLRERR`. -/
  | cleared : i = .clrerr → ExecEnd i s (clobberScratch (clearErrors s))
  /-- `DPASS`. -/
  | passed (imm : Word) : i = .dpass imm → s.modv = true → passBoundsOk imm s = true →
      ExecEnd i s (clobberScratch (passState imm s))
  /-- `DECRYPT` whose first pass does not fit. -/
  | firstOutside : i = .decrypt → s.modv = true → passBoundsOk Config.off1 (startDecrypt s) = false →
      ExecEnd i s (raiseFault .bounds (encode i) (startDecrypt s))
  /-- `DECRYPT` whose second pass does not fit. -/
  | secondOutside (s1 : State) : i = .decrypt → s.modv = true → passBoundsOk Config.off1 (startDecrypt s) = true →
      s1 = setPass (clobberScratch (passState Config.off1 (startDecrypt s))) 1 → passBoundsOk Config.off2 s1 = false →
      ExecEnd i s (raiseFault .bounds (encode i) s1)
  /-- `DECRYPT`. -/
  | decrypted (s1 : State) : i = .decrypt → s.modv = true → passBoundsOk Config.off1 (startDecrypt s) = true →
      s1 = setPass (clobberScratch (passState Config.off1 (startDecrypt s))) 1 → passBoundsOk Config.off2 s1 = true →
      ExecEnd i s (clobberScratch (passState Config.off2 s1))

theorem unaryModular_end (i : Instr) (rd rs1 : Reg) (f : Big → Big → Byte → Big) (s : State)
    (hi : i = .tomont rd rs1 ∨ i = .frommont rd rs1 ∨ i = .cube rd rs1) :
    ∃ t, unaryModular i rd rs1 f s = .next t ∧ ExecEnd i s t := by
  rw [unaryModular_eq]
  split_ifs
  · exact ⟨_, rfl, .faults _ (by decide)⟩
  · refine ⟨_, rfl, .register rd _ ?_⟩
    rcases hi with rfl | rfl | rfl <;> simp
  · exact ⟨_, rfl, .faults _ (by decide)⟩

theorem binaryModular_end (i : Instr) (rd rs1 rs2 : Reg) (f : Big → Big → Big → Byte → Big) (s : State)
    (hi : i = .mmul rd rs1 rs2 ∨ i = .mexp rd rs1 rs2 ∨ i = .modexp rd rs1 rs2 ∨ i = .modmul rd rs1 rs2) :
    ∃ t, binaryModular i rd rs1 rs2 f s = .next t ∧ ExecEnd i s t := by
  rw [binaryModular_eq]
  split_ifs
  · exact ⟨_, rfl, .faults _ (by decide)⟩
  · refine ⟨_, rfl, .register rd _ ?_⟩
    rcases hi with rfl | rfl | rfl | rfl <;> simp
  · exact ⟨_, rfl, .faults _ (by decide)⟩

/-- Every command ends in a next state, in one of the ways of `ExecEnd` (00_scope.md R9, 20_memory.md R61). -/
theorem exec_end (i : Instr) (s : State) (hlen : s.ptLen ≤ 65535) : ∃ t, exec i s = .next t ∧ ExecEnd i s t := by
  cases i with
  | nop => exact ⟨_, rfl, .idle rfl⟩
  | clr rd => exact ⟨_, rfl, .register rd _ (by simp)⟩
  | one rd => exact ⟨_, rfl, .register rd _ (by simp)⟩
  | cpy rd rs1 => exact ⟨_, rfl, .register rd _ (by simp)⟩
  | dbl rd => exact ⟨_, rfl, .register rd _ (by simp)⟩
  | red rd =>
    simp only [exec, execRed, modulusChecked]
    split
    · exact ⟨_, rfl, .reduced rd _ _ rfl⟩
    · exact ⟨_, rfl, .faults _ (by decide)⟩
  | ldn rs1 =>
    simp only [exec, execLdn]
    split
    · exact ⟨_, rfl, .faults _ (by decide)⟩
    · rename_i h
      exact ⟨_, rfl, .loaded rs1 rfl (by simpa using h)⟩
  | tomont rd rs1 => exact unaryModular_end (.tomont rd rs1) rd rs1 (fun B N _ => toMontgomery B N) s (.inl rfl)
  | mmul rd rs1 rs2 => exact binaryModular_end (.mmul rd rs1 rs2) rd rs1 rs2 (fun B C N v => montMultiply B C N v) s (.inl rfl)
  | mexp rd rs1 rs2 => exact binaryModular_end (.mexp rd rs1 rs2) rd rs1 rs2 (fun B d N v => montExponentiate B d N v) s (.inr (.inl rfl))
  | frommont rd rs1 => exact unaryModular_end (.frommont rd rs1) rd rs1 (fun A N v => fromMontgomery A N v) s (.inr (.inl rfl))
  | modexp rd rs1 rs2 => exact binaryModular_end (.modexp rd rs1 rs2) rd rs1 rs2 (fun B d N v => modExpWith v B d N) s (.inr (.inr (.inl rfl)))
  | modmul rd rs1 rs2 => exact binaryModular_end (.modmul rd rs1 rs2) rd rs1 rs2 (fun X Y N _ => modmul X Y N) s (.inr (.inr (.inr rfl)))
  | cube rd rs1 => exact unaryModular_end (.cube rd rs1) rd rs1 (fun E N _ => cube E N) s (.inr (.inr rfl))
  | setcur imm => exact ⟨_, rfl, .moved imm rfl⟩
  | dpass imm =>
    simp only [exec, execDpass, modulusChecked]
    split
    · rename_i hm
      rw [decodePass_eq _ _ _ _ hlen]
      split
      · rename_i hb
        exact ⟨_, rfl, .passed imm rfl hm hb⟩
      · exact ⟨_, rfl, .faults _ (by decide)⟩
    · exact ⟨_, rfl, .faults _ (by decide)⟩
  | decrypt =>
    simp only [exec, execDecrypt, modulusChecked]
    split
    · rename_i hm
      rw [decodePass_eq _ _ _ _ (by simpa using hlen)]
      split
      · rename_i hb
        rw [decodePass_eq _ _ _ _ (by simpa using hlen)]
        split
        · rename_i hb2
          exact ⟨_, rfl, .decrypted _ rfl hm hb rfl hb2⟩
        · rename_i hb2
          exact ⟨_, rfl, .secondOutside _ rfl hm hb rfl (by simpa using hb2)⟩
      · rename_i hb
        exact ⟨_, rfl, .firstOutside rfl hm (by simpa using hb)⟩
    · exact ⟨_, rfl, .faults _ (by decide)⟩
  | clrerr => exact ⟨_, rfl, .cleared rfl⟩

/-- The end of a command from its next state. -/
theorem exec_end_of_next (i : Instr) (s t : State) (hlen : s.ptLen ≤ 65535) (h : exec i s = .next t) :
    ExecEnd i s t := by
  obtain ⟨t', h', he⟩ := exec_end i s hlen
  rw [h] at h'
  cases h'
  exact he

end Sys2Proof.Machine
end

