-- ==== Sys2Proof/Laws/PerInstr.lean ====
section
/-! SUPPORT. Statements about every command, one lemma per constructor of `Instr`. -/

namespace Sys2Proof.Laws

/-- The word of a command carries its opcode and has 0 in every bit that its format fixes at 0 (30_encoding.md R81,
R82, R86). -/
def WordShape.Statement (i : Instr) : Prop :=
  opField (encode i) = i.opcode ∧ encode i &&& i.format.mustBeZero = 0#16

theorem WordShape.nop : WordShape.Statement .nop := by unfold WordShape.Statement; decide

theorem WordShape.clr (rd : Reg) : WordShape.Statement (.clr rd) := by
  unfold WordShape.Statement; revert rd; decide

theorem WordShape.one (rd : Reg) : WordShape.Statement (.one rd) := by
  unfold WordShape.Statement; revert rd; decide

theorem WordShape.cpy (rd rs1 : Reg) : WordShape.Statement (.cpy rd rs1) := by
  unfold WordShape.Statement; revert rd rs1; decide +kernel

theorem WordShape.dbl (rd : Reg) : WordShape.Statement (.dbl rd) := by
  unfold WordShape.Statement; revert rd; decide

theorem WordShape.red (rd : Reg) : WordShape.Statement (.red rd) := by
  unfold WordShape.Statement; revert rd; decide

theorem WordShape.ldn (rs1 : Reg) : WordShape.Statement (.ldn rs1) := by
  unfold WordShape.Statement; revert rs1; decide

theorem WordShape.tomont (rd rs1 : Reg) : WordShape.Statement (.tomont rd rs1) := by
  unfold WordShape.Statement; revert rd rs1; decide +kernel

theorem WordShape.mmul (rd rs1 rs2 : Reg) : WordShape.Statement (.mmul rd rs1 rs2) := by
  unfold WordShape.Statement; revert rd rs1 rs2; decide +kernel

theorem WordShape.mexp (rd rs1 rs2 : Reg) : WordShape.Statement (.mexp rd rs1 rs2) := by
  unfold WordShape.Statement; revert rd rs1 rs2; decide +kernel

theorem WordShape.frommont (rd rs1 : Reg) : WordShape.Statement (.frommont rd rs1) := by
  unfold WordShape.Statement; revert rd rs1; decide +kernel

theorem WordShape.modexp (rd rs1 rs2 : Reg) : WordShape.Statement (.modexp rd rs1 rs2) := by
  unfold WordShape.Statement; revert rd rs1 rs2; decide +kernel

theorem WordShape.modmul (rd rs1 rs2 : Reg) : WordShape.Statement (.modmul rd rs1 rs2) := by
  unfold WordShape.Statement; revert rd rs1 rs2; decide +kernel

theorem WordShape.cube (rd rs1 : Reg) : WordShape.Statement (.cube rd rs1) := by
  unfold WordShape.Statement; revert rd rs1; decide +kernel

/-- The opcode of an immediate word is in its top five bits. -/
theorem opField_immWord (op : Nat) (hop : op < 32) (imm : Word) : opField (immWord op imm) = op := by
  have h : (op * 2048 + imm.toNat % 2048) % 65536 = op * 2048 + imm.toNat % 2048 := Nat.mod_eq_of_lt (by omega)
  simp only [opField, immWord, BitVec.extractLsb'_toNat, BitVec.toNat_ofNat, Nat.shiftRight_eq_div_pow]
  norm_num [h]
  omega

theorem WordShape.setcur (imm : Word) : WordShape.Statement (.setcur imm) :=
  ⟨opField_immWord _ (by decide) imm, by simp [Instr.format, Format.mustBeZero]⟩

theorem WordShape.dpass (imm : Word) : WordShape.Statement (.dpass imm) :=
  ⟨opField_immWord _ (by decide) imm, by simp [Instr.format, Format.mustBeZero]⟩

theorem WordShape.decrypt : WordShape.Statement .decrypt := by unfold WordShape.Statement; decide

theorem WordShape.clrerr : WordShape.Statement .clrerr := by unfold WordShape.Statement; decide

end Sys2Proof.Laws
end

