-- ==== Sys2Proof/Laws/Sequences.lean ====
section
/-! SUPPORT. What a sequence of host operations does, one operation at a time. -/

namespace Sys2Proof.Machine

/-- Two runs of steps, one after the other. -/
theorem stepTimes_add (j k : Nat) (s t : State) (h : stepTimes j s = .next t) :
    stepTimes (j + k) s = stepTimes k t := by
  induction j generalizing s with
  | zero =>
    cases h
    rw [Nat.zero_add]
  | succ j ih =>
    rw [show j + 1 + k = (j + k) + 1 by omega]
    simp only [stepTimes] at h ⊢
    split at h
    · exact ih _ h
    · cases h
    · cases h

/-- No operation does nothing. -/
theorem hostPerform_nil (s : State) : hostPerform [] s = .next s := rfl

/-- The first operation of a sequence, with the others pending, and then the others (44_system_host.md R202 to R204). -/
theorem hostPerform_cons (op : HostOp) (ops : List HostOp) (s : State) :
    hostPerform (op :: ops) s =
      match hostStep op (setPort s (ops ++ s.port)) with
      | .next t => stepTimes ops.length t
      | .fault r => .fault r
      | .refused r => .refused r := rfl

/-- A first operation that gives a next state and leaves the pending ones, and then the sequence of the others. -/
theorem hostPerform_next (op : HostOp) (ops : List HostOp) (s t : State)
    (h : hostStep op (setPort s (ops ++ s.port)) = .next t) (hp : t.port = ops ++ s.port) :
    hostPerform (op :: ops) s = hostPerform ops (setPort t s.port) := by
  rw [hostPerform_cons, h]
  change _ = stepTimes ops.length (setPort t (ops ++ s.port))
  rw [← hp]
  rfl

/-- A write inside the interface, and then the others (44_system_host.md R202). -/
theorem hostPerform_write (sp : Space) (a : Nat) (v : Byte) (ops : List HostOp) (s t : State)
    (h : hostWrite (setPort s (ops ++ s.port)) sp a v = some t) (hp : t.port = ops ++ s.port) :
    hostPerform (.hwr sp a v :: ops) s = hostPerform ops (setPort t s.port) :=
  hostPerform_next _ _ _ _ (by simp only [hostStep, h]) hp

/-- A read that answers puts its value first in the host's list (44_system_host.md R203). -/
theorem hostPerform_read (sp : Space) (a : Nat) (x : Word) (ops : List HostOp) (s : State)
    (h : hostRead s sp a = some x) :
    hostPerform (.hrd sp a :: ops) s = hostPerform ops (giveHost s x) := by
  have h' : hostRead (setPort s (ops ++ s.port)) sp a = some x := by cases sp <;> exact h
  have hs : hostStep (.hrd sp a) (setPort s (ops ++ s.port)) = .next (giveHost (setPort s (ops ++ s.port)) x) := by
    simp only [hostStep, h']
  exact hostPerform_next _ _ _ _ hs rfl

/-- The newest value is the last of the values read. -/
theorem lastReads_giveHost (k : Nat) (s : State) (x : Word) :
    lastReads (k + 1) (giveHost s x) = lastReads k s ++ [x] := by
  simp [lastReads, giveHost]

end Sys2Proof.Machine
end

