-- ==== Sys2Proof/Laws/Step.lean ====
section
/-! SUPPORT. All that a step can do, said once. -/

namespace Sys2Proof.Machine

/-- The ways in which a step ends (44_system_host.md R202 to R205, 30_encoding.md R92). -/
theorem step_end (s t : State) (hlen : s.ptLen ≤ 65535) (h : step s = .next t) :
    (s.port = [] ∧ t = s) ∨
    ∃ op rest, s.port = op :: rest ∧
      ((∃ sp a v, op = .hwr sp a v ∧ hostWrite (setPort s rest) sp a v = some t) ∨
       (∃ sp a x, op = .hrd sp a ∧ hostRead (setPort s rest) sp a = some x ∧ t = giveHost (setPort s rest) x) ∨
       (∃ w, op = .cmd w ∧ s.fault = true ∧ t = setPort s rest) ∨
       (∃ w e, op = .cmd w ∧ s.fault = false ∧ decode w = .error e ∧ t = raiseFault .illegal w (setPort s rest)) ∨
       (∃ w i, op = .cmd w ∧ s.fault = false ∧ decode w = .ok i ∧ ExecEnd i (setPort s rest) t) ∨
       (op = .reset ∧ t = hostReset (setPort s rest))) := by
  unfold step at h
  rcases nextHostOp_cases s with ⟨hp, hn⟩ | ⟨op, rest, hp, hn⟩
  · rw [hn] at h
    cases h
    exact .inl ⟨hp, rfl⟩
  refine .inr ⟨op, rest, hp, ?_⟩
  rw [hn] at h
  rcases hostStep_cases op (setPort s rest) with ⟨sp, a, v, s', ho, hw, hs⟩ | ⟨sp, a, v, ho, hw, hs⟩ |
    ⟨sp, a, x, ho, hw, hs⟩ | ⟨sp, a, ho, hw, hs⟩ | ⟨w, ho, hs⟩ | ⟨ho, hs⟩ <;> rw [h] at hs
  · cases hs
    exact .inl ⟨sp, a, v, ho, hw⟩
  · cases hs
  · cases hs
    exact .inr (.inl ⟨sp, a, x, ho, hw, rfl⟩)
  · cases hs
  · rcases command_cases w (setPort s rest) with ⟨hf, hc⟩ | ⟨hf, ⟨e, he⟩, hc⟩ | ⟨hf, i, hi, hc⟩ <;> rw [hc] at hs
    · cases hs
      exact .inr (.inr (.inl ⟨w, ho, hf, rfl⟩))
    · cases hs
      exact .inr (.inr (.inr (.inl ⟨w, e, ho, hf, he, rfl⟩)))
    · exact .inr (.inr (.inr (.inr (.inl ⟨w, i, ho, hf, hi, exec_end_of_next _ _ _ hlen hs.symm⟩))))
  · cases hs
    exact .inr (.inr (.inr (.inr (.inr ⟨ho, rfl⟩))))

end Sys2Proof.Machine
end

