-- ==== Sys2Proof/Tests/Slice0.lean ====
section
/-! SUPPORT. The model's own tests: fixed values from 95_test_vectors.md (named in each comment) or worked out by hand
from the rules, and for every obligation with hypotheses a state and operands that meet them. -/

namespace Sys2Proof.Tests

open Sys2Proof Sys2Proof.Machine

/-! ### Helpers -/

/-- The outcome is a next state with the property. -/
def nextHas (o : Result) (p : State → Bool) : Bool :=
  match o with
  | .next t => p t
  | .fault _ => false
  | .refused _ => false

/-- The reset state with a loaded modulus. -/
def loaded (n : Nat) : State := setModulus State.reset (BitVec.ofNat _ n) (deriveCoefficient (BitVec.ofNat _ n : Big))

/-- The state with `b1` and `b2` holding the given values. -/
def withOperands (s : State) (x y : Nat) : State := setReg (setReg s 1 (BitVec.ofNat _ x)) 2 (BitVec.ofNat _ y)

/-- The state with the given CT contents. -/
def withCt (s : State) (ct : Memory) : State := { s with ct := ct }

/-- The state with the given host operations pending. -/
def withPort (s : State) (ops : List HostOp) : State := { s with port := ops }

/-- The state with the given `PT_LEN`. -/
def withPtLen (s : State) (k : Nat) : State := { s with ptLen := k }

/-- A register of the state holds the value. -/
def holds (s : State) (r : Reg) (x : Nat) : Bool := (getReg s r).toNat == x

/-- `N1` of 95_test_vectors.md section 2. -/
def n1 : Nat := 0x2b0102030405060708090a0b0c0d0e0f101112131415161718191a1b1c1d1e1f202122232425262728292a2b2c2d2e2f3033c7

/-! ### Well-formedness: an immediate beyond 11 bits is refused -/

theorem test_wellFormed_refuses_setcur_2048 : Instr.wellFormed (.setcur 2048#16) = false := by decide
theorem test_wellFormed_refuses_dpass_65535 : Instr.wellFormed (.dpass 65535#16) = false := by decide
theorem test_wellFormed_accepts_dpass_2047 : Instr.wellFormed (.dpass 2047#16) = true := by decide

/-! ### Decoding: each command's word, bit by bit from 30_encoding.md R81 to R86 (95_test_vectors.md V18) -/

theorem test_decode_nop : decode 0b0000000000000000#16 = .ok (.nop) := by decide
theorem test_decode_clr : decode 0b0000111100000000#16 = .ok (.clr 7) := by decide
theorem test_decode_one : decode 0b0001001100000000#16 = .ok (.one 3) := by decide
theorem test_decode_cpy : decode 0b0001101000100000#16 = .ok (.cpy 2 1) := by decide
theorem test_decode_dbl : decode 0b0010000100000000#16 = .ok (.dbl 1) := by decide
theorem test_decode_red : decode 0b0010100100000000#16 = .ok (.red 1) := by decide
theorem test_decode_ldn : decode 0b0011000010100000#16 = .ok (.ldn 5) := by decide
theorem test_decode_tomont : decode 0b0100001000100000#16 = .ok (.tomont 2 1) := by decide
theorem test_decode_mmul : decode 0b0100101100101000#16 = .ok (.mmul 3 1 2) := by decide
theorem test_decode_mexp : decode 0b0101001100101000#16 = .ok (.mexp 3 1 2) := by decide
theorem test_decode_frommont : decode 0b0101110001100000#16 = .ok (.frommont 4 3) := by decide
theorem test_decode_modexp : decode 0b0110011111010100#16 = .ok (.modexp 7 6 5) := by decide
theorem test_decode_modmul : decode 0b1000001100101000#16 = .ok (.modmul 3 1 2) := by decide
theorem test_decode_cube : decode 0b1000101000100000#16 = .ok (.cube 2 1) := by decide
theorem test_decode_setcur : decode 0b1100000100000000#16 = .ok (.setcur 256#16) := by decide
theorem test_decode_dpass : decode 0b1100100101101000#16 = .ok (.dpass 360#16) := by decide
theorem test_decode_decrypt : decode 0b1101000000000000#16 = .ok (.decrypt) := by decide
theorem test_decode_clrerr : decode 0b1101100000000000#16 = .ok (.clrerr) := by decide

/-- Illegal words of 95_test_vectors.md V18, V20: a must-be-zero bit, and a reserved opcode. -/
theorem test_decode_illegal : decode 0x0801#16 = .error (.mustBeZeroBit .d) ∧ decode 0x4901#16 = .error (.mustBeZeroBit .dss) ∧
    decode 0xD001#16 = .error (.mustBeZeroBit .z) ∧ decode 0x3800#16 = .error (.reservedOpcode 7) := by decide

/-! ### One step of each command -/

/-- 95_test_vectors.md V20: `NOP` completes from reset. -/
theorem test_nop : nextHas (step (State.reset.withFetchWord 16 0x0000)) (fun t => statusWord t == 0#16 && t.fcmd == 0#16) = true := by
  decide +kernel

/-- 40_bigint_primitives.md R100. -/
theorem test_clr : nextHas (execClr 2 (setReg State.reset 2 (BitVec.allOnes 408))) (fun t => holds t 2 0) = true := by
  decide +kernel

/-- 40_bigint_primitives.md R101: position 50 holds 0x01. -/
theorem test_one : nextHas (execOne 7 State.reset) (fun t => byteAt (getReg t 7) 50 == 1#8 && holds t 7 1) = true := by
  decide +kernel

/-- 40_bigint_primitives.md R102: `CPY b1, b2` copies towards `b1`. -/
theorem test_cpy : nextHas (execCpy 1 2 (withOperands State.reset 5 7)) (fun t => holds t 1 7 && holds t 2 7) = true := by
  decide +kernel

/-- 95_test_vectors.md V2: the carry crosses two byte boundaries. -/
theorem test_dbl : nextHas (execDbl 1 (withOperands State.reset 0xFF80 0)) (fun t => holds t 1 0x1FF00) = true := by
  decide +kernel

/-- 95_test_vectors.md V2: `R - 1` wraps to `R - 2`. -/
theorem test_dbl_wraps :
    nextHas (execDbl 1 (withOperands State.reset (256 ^ 51 - 1) 0)) (fun t => holds t 1 (256 ^ 51 - 2)) = true := by
  decide +kernel

/-- 95_test_vectors.md V4: `2·N1` leaves `N1` with `RF` 1. -/
theorem test_red_twice_the_modulus :
    nextHas (execRed 1 (withOperands (loaded n1) (2 * n1) 0)) (fun t => holds t 1 n1 && statusWord t == 3#16) = true := by
  decide +kernel

/-- 95_test_vectors.md V4: `N1 - 1` is unchanged with `RF` 0. -/
theorem test_red_below :
    nextHas (execRed 1 (withOperands (loaded n1) (n1 - 1) 0)) (fun t => holds t 1 (n1 - 1) && !t.rf) = true := by
  decide +kernel

/-- 95_test_vectors.md V5: `LDN` of `N1` gives `V` = 0x09. -/
theorem test_ldn :
    nextHas (execLdn 1 (withOperands State.reset n1 0)) (fun t => t.v == 9#8 && t.n.toNat == n1 && statusWord t == 1#16) = true := by
  decide +kernel

/-- 95_test_vectors.md V5: an even modulus faults and keeps the old one. -/
theorem test_ldn_even :
    nextHas (execLdn 5 (setReg (loaded n1) 5 (BitVec.ofNat _ (n1 - 1))))
      (fun t => statusWord t == 0x0441#16 && t.v == 9#8 && t.fcmd == 0x30A0#16) = true := by decide +kernel

/-- 95_test_vectors.md V6: 2 in Montgomery form. -/
theorem test_tomont :
    nextHas (execTomont 2 1 (withOperands (loaded n1) 2 0)) (fun t => holds t 2
      0x26f4e9ded3c8bdb2a79c91867b70655a4f44392e23180d01f6ebe0d5cabfb4a99e93887d72675c51463b30251a0f03f8edc673) = true := by
  decide +kernel

/-- 95_test_vectors.md V7: `2·N1 - 1` squared. -/
theorem test_mmul :
    nextHas (execMmul 3 1 2 (withOperands (loaded n1) (2 * n1 - 1) (2 * n1 - 1))) (fun t => holds t 3
      0x2a1934ea97b22bafa57e3696d37a38eb24c3630c040295054afe853849a528e5144edbfc0e7cfcc94cc4af9948e453a7aabe2a) = true := by
  decide +kernel

/-- 41_montgomery.md R125, the example with `m` = 2. -/
theorem test_montMultiply_two_bytes :
    (montMultiply (BitVec.ofNat _ 0x1234 : BigInt 2) (BitVec.ofNat _ 0x0ABC : BigInt 2) (BitVec.ofNat _ 0x3B2D : BigInt 2) 0x5B#8).toNat = 0x3540 := by
  decide +kernel

/-- 41_montgomery.md R127, the example with `m` = 1. -/
theorem test_mexp_one_byte :
    (montExponentiate (BitVec.ofNat _ 41 : BigInt 1) (BitVec.ofNat _ 3 : BigInt 1) (BitVec.ofNat _ 59 : BigInt 1) 0x0D#8).toNat = 22 := by decide +kernel

/-- The engine of `MEXP`: with exponent 0 and `N` = 59, `256^51 mod 59` = 4 (computed with integers). -/
theorem test_mexp :
    nextHas (execMexp 3 1 2 (withOperands (loaded 59) 3 0)) (fun t => (getReg t 3).toNat % 59 == 4) = true := by
  decide +kernel

/-- 95_test_vectors.md V9: `2·N1 - 1` leaves the domain. -/
theorem test_frommont :
    nextHas (execFrommont 4 1 (withOperands (loaded n1) (2 * n1 - 1) 0)) (fun t => holds t 4
      0x00e7cd186c52da57628ad3743892d523eb4daf0710128111cd1a94e2d277f53a0bd2462715a8295ddb647a91e348da8785759d) = true := by
  decide +kernel

/-- 95_test_vectors.md V12: at `m` = 1, outside the domain, the rules give 36 (not 37). -/
theorem test_modexp_one_byte :
    (modExp (BitVec.ofNat _ 17 : BigInt 1) (BitVec.ofNat _ 128 : BigInt 1) (BitVec.ofNat _ 99 : BigInt 1)).toNat = 36 := by decide +kernel

/-- 95_test_vectors.md V10: `(N1 - 1)^3` is `N1 - 1`. -/
theorem test_modexp :
    nextHas (execModexp 3 1 2 (withOperands (loaded n1) (n1 - 1) 3)) (fun t => holds t 3 (n1 - 1)) = true := by
  decide +kernel

/-- 95_test_vectors.md V13: `(N1 - 1)·2`. -/
theorem test_modmul :
    nextHas (execModmul 3 1 2 (withOperands (loaded n1) (n1 - 1) 2)) (fun t => holds t 3 (n1 - 2)) = true := by
  decide +kernel

/-- 95_test_vectors.md V14: the chunk of bytes 0xFF, outside the contract. -/
theorem test_cube :
    nextHas (execCube 2 1 (withOperands (loaded n1) (256 ^ 51 - 1) 0)) (fun t => holds t 2
      0x297e662f715a2cdf073f46a9a9b1bcf3e9b970406f1edfff934db2375cce5fedb86683ca7199534fcabd014bf4045347139831) = true := by
  decide +kernel

/-- 43_chunk_decoder.md R179. -/
theorem test_setcur :
    nextHas (step (State.reset.withFetchWord 16 0xC7FF)) (fun t => t.cur == 2047#16 && t.out == 0#16) = true := by
  decide +kernel

/-- The end of the image of 95_test_vectors.md V15 with a counter byte for its last chunk (V17 h). -/
def lastChunk : Memory :=
  [(358, 255#8), (359, 240#8), (360, 69#8), (361, 93#8), (362, 7#8), (363, 172#8), (364, 149#8), (365, 122#8), (366, 160#8), (367, 98#8)] ++
  [(368, 230#8), (369, 3#8), (370, 116#8), (371, 7#8), (372, 48#8), (373, 91#8), (374, 234#8), (375, 227#8), (376, 95#8), (377, 154#8)] ++
  [(378, 185#8), (379, 98#8), (380, 127#8), (381, 48#8), (382, 148#8), (383, 13#8), (384, 33#8), (385, 250#8), (386, 95#8), (387, 178#8)] ++
  [(388, 12#8), (389, 171#8), (390, 156#8), (391, 177#8), (392, 176#8), (393, 180#8), (394, 171#8), (395, 209#8), (396, 70#8), (397, 166#8)] ++
  [(398, 28#8), (399, 191#8), (400, 71#8), (401, 123#8), (402, 139#8), (403, 12#8), (404, 41#8), (405, 79#8), (406, 14#8), (407, 231#8)] ++
  [(408, 134#8), (409, 14#8)]

/-- 95_test_vectors.md V17 h: the pass that exactly fits both memories. -/
theorem test_dpass_fits :
    nextHas (execDpass 360#16 (setCur (withCt (loaded n1) lastChunk) 358#16))
      (fun t => statusWord t == 0x0031#16 && t.acc == 190#8 && t.cnt == 0#8 && t.cur == 410#16 && t.out == 410#16) = true := by
  decide +kernel

/-- 95_test_vectors.md V17 i: one PT byte too many. -/
theorem test_dpass_bounds :
    nextHas (execDpass 361#16 (setCur (withCt (loaded n1) lastChunk) 358#16))
      (fun t => statusWord t == 0x0541#16 && t.cur == 358#16 && t.out == 0#16 && t.fcmd == 0xC969#16) = true := by
  decide +kernel

/-- Two sections of one all-zero chunk, by hand from 43_chunk_decoder.md R172 to R176: both heads are 0 and both cubes
lack the marker, and both sums are 0. -/
theorem test_decrypt :
    nextHas (execDecrypt (withCt (loaded n1) [(0, 0xFF#8), (52, 0xFF#8)]))
      (fun t => statusWord t == 0x002D#16 && t.acc == 0#8 && t.cur == 104#16 && t.out == 306#16) = true := by
  decide +kernel

/-- 95_test_vectors.md V17 e: 256 chunks asked for. -/
theorem test_decrypt_bounds :
    nextHas (execDecrypt (loaded n1))
      (fun t => statusWord t == 0x0541#16 && t.cur == 0#16 && t.pt == [] && t.fcmd == 0xD000#16) = true := by decide +kernel

/-- 44_system_host.md R201. -/
theorem test_clrerr :
    nextHas (execClrerr (recordSum (recordPad (loaded n1) true) true)) (fun t => statusWord t == 1#16) = true := by
  decide +kernel

/-- 95_test_vectors.md V20: the priority of the causes, from reset. -/
theorem test_fault_priority :
    nextHas (command 0x4921#16 State.reset) (fun t => statusWord t == 0x0140#16 && t.fcmd == 0x4921#16) = true ∧
    nextHas (command 0x4920#16 State.reset) (fun t => statusWord t == 0x0240#16 && t.fcmd == 0x4920#16) = true ∧
    nextHas (command 0x4A20#16 State.reset) (fun t => statusWord t == 0x0340#16 && t.fcmd == 0x4A20#16) = true := by
  decide +kernel

/-! ### The host -/

/-- 44_system_host.md R206: the host sequence for `mod_exp` has 206 operations, with the two words of the rule. -/
theorem test_hostModExp :
    (hostModExp 5#408 3#408 59#408).length = 206 ∧ (hostModExp 5#408 3#408 59#408)[51]? = some (.cmd 0x3000#16) ∧
      (hostModExp 5#408 3#408 59#408)[154]? = some (.cmd 0x6328#16) := by decide +kernel

/-- 44_system_host.md R206: the host sequence for `lynx_decrypt`. -/
theorem test_hostLynxDecrypt :
    (hostLynxDecrypt (Vector.replicate 410 0#8))[410]? = some (.cmd 0xD000#16) ∧
      (hostLynxDecrypt (Vector.replicate 410 0#8)).length = 822 := by decide +kernel

/-- 44_system_host.md R206, 93_implementation_defined.md U3: with PT of 1 byte the second `HRD` of PT lies outside. -/
theorem test_hostPerform : readsOf [.hwr .pt 0 7#8, .hrd .csr 0, .hrd .pt 0] 2 (withPtLen (loaded 59) 1) = some [1#16, 7#16] ∧
    readsOf [.hrd .pt 0, .hrd .pt 1] 2 (withPtLen (loaded 59) 1) = none := by decide +kernel

/-- 44_system_host.md R206: `failed` and `FAULT` of the `STATUS` values 0x002D and 0x0541. -/
theorem test_lynxOutput : lynxOutput [0x002D#16, 9#16] = some ⟨[9#8], 1, 0⟩ ∧ lynxOutput [0x0541#16] = some ⟨[], 0, 1⟩ := by
  decide

/-- 30_encoding.md R91. -/
theorem test_expand : expand (.msqr 3 1) = [.mmul 3 1 1] ∧ (expand .pass1 ++ expand .pass2).map encode =
    [0xC000#16, 0xC800#16, 0xC900#16] := by decide

/-- 20_memory.md R51: position 50 of `b7` is REG address 498, and window 8 is `N`. -/
theorem test_reg_space :
    nextHas (hostStep (.hwr .reg 498 0xAB#8) (loaded 59))
      (fun t => holds t 7 0xAB && hostRead t .reg 562 == some 59#16 && (hostWrite t .reg 562 0#8).isNone) = true := by
  decide +kernel

/-- The canonical form holds of the memories after reset, and a write of the unlisted value removes its entry. -/
theorem test_memory_canonical :
    Memory.wf State.reset.ct = true ∧ Memory.wf State.reset.pt = true ∧
      memWrite (memWrite [] 5 1#8) 5 0#8 = [] ∧ Memory.wf [(5, 0#8)] = false ∧ Memory.wf [(5, 1#8), (3, 1#8)] = false := by
  decide

/-! ### Witnesses: for each obligation with hypotheses, a state and operands that meet them -/

/-- `1` and `2` hold small canonical values, and the modulus 59 satisfies `4·N < R`. -/
def good : State := withOperands (loaded 59) 5 3

theorem witness_DecodeOfEncode : Instr.wellFormed (.mmul 7 7 7) = true ∧ Instr.wellFormed (.setcur 0#16) = true ∧
    Instr.wellFormed (.dpass 2047#16) = true := by decide

theorem witness_DecodedWord : decode 0xCFFF#16 = .ok (.dpass 2047#16) := by decide

theorem witness_ReservedOpcode : State.reset.fault = false ∧
    opField 0x3800#16 ∈ [7, 13, 14, 15, 18, 19, 20, 21, 22, 23, 28, 29, 30, 31] ∧
    opField 0xFFFF#16 ∈ [7, 13, 14, 15, 18, 19, 20, 21, 22, 23, 28, 29, 30, 31] := by decide

theorem witness_MustBeZeroBit : State.reset.fault = false ∧ Instr.opcode (.clr 0) = opField 0x0801#16 ∧
    0x0801#16 &&& (Instr.format (.clr 0)).mustBeZero ≠ 0#16 ∧ Instr.opcode .decrypt = opField 0xD400#16 ∧
    0xD400#16 &&& (Instr.format .decrypt).mustBeZero ≠ 0#16 := by decide

theorem witness_StepRuns : (withPort State.reset [.cmd 0x0A00#16, .reset]).port = .cmd 0x0A00#16 :: [.reset] ∧
    (withPort State.reset [.cmd 0x0A00#16, .reset]).fault = false ∧ decode 0x0A00#16 = .ok (.clr 2) := by decide

theorem witness_FaultedEngine :
    (withPort (raiseFault .aliased 0x4920#16 State.reset) [.cmd 0x0900#16]).port = .cmd 0x0900#16 :: [] ∧
    (withPort (raiseFault .aliased 0x4920#16 State.reset) [.cmd 0x0900#16]).fault = true := by decide

theorem witness_IdleStep : State.reset.port = [] := rfl

theorem witness_PtLen : State.reset.ptLen ≤ 65535 ∧ (withPtLen State.reset 65535).ptLen ≤ 65535 := by decide

/-- Both cases of `RED` with a modulus, at the boundary, and the case without. -/
theorem witness_Red : (loaded 59).modv = true ∧
    (loaded 59).n.toNat ≤ (getReg (withOperands (loaded 59) 59 0) 1).toNat ∧
    (getReg (withOperands (loaded 59) 58 0) 1).toNat < (loaded 59).n.toNat ∧ State.reset.modv = false := by decide +kernel

theorem witness_Coefficient : (BitVec.ofNat _ 59 : BigInt 1).toNat % 2 = 1 ∧ (loaded n1).n.toNat % 2 = 1 := by decide +kernel

/-- The smallest and the largest modulus that `LDN` accepts. -/
theorem witness_LdnLoads : byteAt (getReg (withOperands State.reset 1 (2 ^ 407 - 1)) 1) 0 < 0x80#8 ∧
    (getReg (withOperands State.reset 1 (2 ^ 407 - 1)) 1).toNat % 2 = 1 ∧
    byteAt (getReg (withOperands State.reset 1 (2 ^ 407 - 1)) 2) 0 < 0x80#8 ∧
    (getReg (withOperands State.reset 1 (2 ^ 407 - 1)) 2).toNat % 2 = 1 := by decide +kernel

theorem witness_LdnRefuses : 0x80#8 ≤ byteAt (getReg (withOperands State.reset (2 ^ 407 + 1) 58) 1) 0 ∧
    (getReg (withOperands State.reset (2 ^ 407 + 1) 58) 2).toNat % 2 = 0 := by decide +kernel

/-- The hypotheses of the two-operand and three-operand commands with a modulus, TOMONT to CUBE. -/
theorem witness_ModularCommands : (3 : Reg) ≠ 1 ∧ (3 : Reg) ≠ 2 ∧ good.modv = true ∧ modulusValid good.n good.v = true ∧
    byteAt good.n 0 < 0x80#8 ∧ 4 * good.n.toNat < 256 ^ 51 ∧ 3 * good.n.toNat ≤ 256 ^ 51 ∧
    (getReg good 1).toNat < good.n.toNat ∧ (getReg good 2).toNat < good.n.toNat := by decide +kernel

/-- A base in Montgomery form: `20 = 5·256^51 mod 59`, with `x` = 5. -/
theorem witness_Mexp : (3 : Reg) ≠ 1 ∧ (3 : Reg) ≠ 2 ∧ (withOperands (loaded 59) 20 3).modv = true ∧
    modulusValid (loaded 59).n (loaded 59).v = true ∧ 4 * (loaded 59).n.toNat < 256 ^ 51 ∧
    (getReg (withOperands (loaded 59) 20 3) 1).toNat < 2 * (loaded 59).n.toNat ∧
    (getReg (withOperands (loaded 59) 20 3) 1).toNat % (loaded 59).n.toNat = 5 * 256 ^ 51 % (loaded 59).n.toNat := by
  decide +kernel

/-- Both domains of 41_montgomery.md R134 (c), each at its largest operands, with `m` = 1. -/
theorem witness_MontMultiply : 0x0D#8 * byteAt (BitVec.ofNat _ 59 : BigInt 1) (1 - 1) + 1#8 = 0#8 ∧
    (BitVec.ofNat _ 58 : BigInt 1).toNat < (BitVec.ofNat _ 59 : BigInt 1).toNat ∧ 2 * (BitVec.ofNat _ 59 : BigInt 1).toNat < 256 ^ 1 ∧
    (BitVec.ofNat _ 117 : BigInt 1).toNat < 2 * (BitVec.ofNat _ 59 : BigInt 1).toNat ∧ 4 * (BitVec.ofNat _ 59 : BigInt 1).toNat < 256 ^ 1 := by decide

theorem witness_CuberEqualsModExp : (BitVec.ofNat (8 * 51) 59).toNat % 2 = 1 ∧
    4 * (BitVec.ofNat (8 * 51) 59).toNat < 256 ^ 51 ∧
    (BitVec.ofNat (8 * 51) 58).toNat < (BitVec.ofNat (8 * 51) 59).toNat := by decide +kernel

theorem witness_Aliased : (1 : Reg) = 1 ∨ (1 : Reg) = 0 := .inl rfl

theorem witness_MissingModulus : State.reset.modv = false ∧ (2 : Reg) ≠ 1 ∧ (2 : Reg) ≠ 0 := by decide

theorem witness_Setcur : (410#16 : Word).toNat < 2048 ∧ (2047#16 : Word).toNat < 2048 ∧ 410 ≤ (410#16 : Word).toNat ∧
    (loaded 59).modv = true := by decide +kernel

/-- A section of one chunk at the end of CT whose output ends at the end of PT (V17 h). -/
def lastSection : State := setCur (withCt (loaded 59) [(358, 0xFF#8)]) 358#16

theorem witness_Dpass : lastSection.modv = true ∧ lastSection.ptLen ≤ 65535 ∧ Memory.wf lastSection.pt = true ∧
    lastSection.cur.toNat < 410 ∧
    lastSection.cur.toNat + 1 + 51 * sectionChunks lastSection lastSection.cur.toNat ≤ 410 ∧
    (360#16 : Word).toNat + 50 * sectionChunks lastSection lastSection.cur.toNat ≤ lastSection.ptLen ∧
    lastSection.dst = .dIdle := by decide +kernel

/-- The three ways out of bounds, each by one. -/
theorem witness_DpassOutOfBounds : lastSection.modv = true ∧ 410 ≤ (setCur lastSection 410#16).cur.toNat ∧
    410 < (setCur (withCt (loaded 59) [(359, 0xFF#8)]) 359#16).cur.toNat + 1 +
      51 * sectionChunks (setCur (withCt (loaded 59) [(359, 0xFF#8)]) 359#16) 359 ∧
    lastSection.ptLen < (361#16 : Word).toNat + 50 * sectionChunks lastSection lastSection.cur.toNat := by decide +kernel

/-- The counter bytes of an image of 5 and 3 chunks, which fills CT exactly. -/
def fullImage : State := withCt (loaded 59) [(0, 0xFB#8), (256, 0xFD#8)]

theorem witness_Decrypt : fullImage.modv = true ∧ fullImage.ptLen ≤ 65535 ∧ Memory.wf fullImage.pt = true ∧
    5 = sectionChunks fullImage 0 ∧ 3 = sectionChunks fullImage (1 + 51 * 5) ∧ 2 + 51 * (5 + 3) ≤ 410 ∧
    50 * 5 ≤ fullImage.ptLen ∧ 256 + 50 * 3 ≤ fullImage.ptLen ∧ fullImage.dst = .dIdle := by decide +kernel

theorem witness_DecryptFirst : (loaded 59).modv = true ∧ 410 < 1 + 51 * sectionChunks (loaded 59) 0 ∧
    (withPtLen fullImage 249).modv = true ∧
    (withPtLen fullImage 249).ptLen < 50 * sectionChunks (withPtLen fullImage 249) 0 := by decide +kernel

/-- The second section one chunk too long for CT, and one PT byte short. -/
theorem witness_DecryptSecond : fullImage.modv = true ∧ fullImage.ptLen ≤ 65535 ∧ Memory.wf fullImage.pt = true ∧
    5 = sectionChunks fullImage 0 ∧ 1 + 51 * 5 ≤ 410 ∧ 50 * 5 ≤ (withPtLen fullImage 405).ptLen ∧
    (withPtLen fullImage 405).ptLen < 256 + 50 * sectionChunks fullImage (1 + 51 * 5) ∧
    410 < 2 + 51 * (5 + sectionChunks (withCt (loaded 59) [(0, 0xFB#8), (256, 0xFC#8)]) (1 + 51 * 5)) := by
  decide +kernel

theorem witness_BytePasses : (BitVec.ofNat _ 58 : BigInt 1).toNat < (BitVec.ofNat _ 59 : BigInt 1).toNat ∧ byteAt (BitVec.ofNat _ 59 : BigInt 1) 0 < 0x80#8 ∧
    (BitVec.ofNat _ 59 : BigInt 1).toNat ≤ (BitVec.ofNat _ 59 : BigInt 1).toNat ∧ 2 * (BitVec.ofNat _ 59 : BigInt 1).toNat ≤ (BitVec.ofNat _ 118 : BigInt 1).toNat := by decide

/-- The last location of each space that the host can write. -/
theorem witness_HostWrite : Memory.wf State.reset.ct = true ∧ Memory.wf State.reset.pt = true ∧
    498 / 64 ≤ 7 ∧ 498 % 64 ≤ 50 ∧ 409 < State.reset.ptLen ∧
    nextHas (hostStep (.hwr .reg 498 1#8) State.reset) (fun _ => true) = true ∧
    nextHas (hostStep (.hwr .ct 409 1#8) State.reset) (fun _ => true) = true ∧
    nextHas (hostStep (.hwr .pt 409 1#8) State.reset) (fun _ => true) = true := by decide +kernel

/-- The first and the last location of each kind that the host can read: the ranges of the statement, and the values
there. -/
theorem witness_HostRead : hostRead State.reset .reg 0 = some 0#16 ∧ hostRead State.reset .reg (64 * 7 + 50) = some 0#16 ∧
    hostRead (loaded 59) .reg 0x200 = some 0#16 ∧ hostRead (loaded 59) .reg (0x200 + 50) = some 59#16 ∧
    hostRead (loaded 59) .csr 0 = some 1#16 ∧ hostRead State.reset .csr 6 = some 0#16 ∧
    hostRead State.reset .ct 0 = some 0#16 ∧ hostRead State.reset .ct 409 = some 0#16 ∧
    409 < State.reset.ptLen ∧ hostRead State.reset .pt 409 = some 0#16 := by decide +kernel

/-- Just outside each space. -/
theorem witness_AccessOutside : 50 < 51 % 64 ∧ 0x240 ≤ 576 ∧ 0x200 ≤ 512 ∧ 7 ≤ 7 ∧ 410 ≤ 410 ∧ State.reset.ptLen ≤ 410 := by
  decide

/-- A good state with a command pending whose step is a next state. -/
theorem witness_EveryStepKeepsTheInvariant : (withPort State.reset [.cmd 0x1100#16]).Inv ∧
    ∃ t, step (withPort State.reset [.cmd 0x1100#16]) = .next t :=
  ⟨by constructor <;> decide, _, rfl⟩

/-- A pending operation at the last location of each range, and one step from there. -/
theorem witness_NoStepLeaves : (withPort State.reset [.hwr .ct 409 1#8]).ptLen ≤ 65535 ∧
    (∀ op rest, (withPort State.reset [.hrd .reg 562]).port = op :: rest → op.inInterface State.reset = true) ∧
    HostOp.inInterface State.reset (.hwr .reg 498 1#8) = true ∧ HostOp.inInterface State.reset (.hwr .ct 409 1#8) = true ∧
    HostOp.inInterface State.reset (.hwr .pt 409 1#8) = true ∧ HostOp.inInterface State.reset (.hrd .csr 6) = true ∧
    HostOp.inInterface State.reset (.hrd .ct 409) = true ∧ HostOp.inInterface State.reset (.hrd .pt 409) = true := by
  refine ⟨by decide, fun op rest h => ?_, by decide, by decide, by decide, by decide, by decide, by decide⟩
  rw [← (List.cons.inj h).1]
  decide

/-- A faulted state whose next operation is not a reset, and its step. -/
theorem witness_OnlyResetClears : (raiseFault .nomod 0x2900#16 (withPort State.reset [.cmd 0xD800#16])).fault = true ∧
    (∀ rest, (raiseFault .nomod 0x2900#16 (withPort State.reset [.cmd 0xD800#16])).port ≠ .reset :: rest) ∧
    ∃ t, step (raiseFault .nomod 0x2900#16 (withPort State.reset [.cmd 0xD800#16])) = .next t :=
  ⟨rfl, fun _ h => HostOp.noConfusion (List.cons.inj h).1, _, rfl⟩

/-- A state with a recorded error whose next operation presents `ONE b1`: neither a reset nor an `LDN`, a `RED`, a
`CLRERR`, a `DECRYPT` or a `DPASS`. -/
def onePending : State := withPort (recordStruct State.reset true) [.cmd 0x1100#16]

theorem witness_OnlyNamedCommands : onePending.ptLen ≤ 65535 ∧ onePending.estruct = true ∧
    (∀ rest, onePending.port ≠ .reset :: rest) ∧
    (∀ w rest, onePending.port = .cmd w :: rest → decode w ≠ .ok .clrerr ∧ decode w ≠ .ok .decrypt ∧
      ∀ r imm, decode w ≠ .ok (.ldn r) ∧ decode w ≠ .ok (.red r) ∧ decode w ≠ .ok (.dpass imm)) ∧
    ∃ t, step onePending = .next t := by
  refine ⟨by decide, rfl, fun _ h => HostOp.noConfusion (List.cons.inj h).1, fun w rest h => ?_, _, rfl⟩
  have hw : w = 0x1100#16 := (HostOp.cmd.inj (List.cons.inj h).1).symm
  have hd : decode w = .ok (.one 1) := by rw [hw]; decide
  simp [hd]

/-- A command that changes the register it names, from the reset state with any scratch. -/
theorem witness_RegisterChanges : (∃ t, exec (.one 2) State.reset = .next t) ∧
    nextHas (exec (.one 2) State.reset) (fun t => getReg t 2 != getReg State.reset 2) = true :=
  ⟨⟨_, rfl⟩, by decide +kernel⟩

theorem witness_ScratchContents (x : Scratch) : ∃ t, exec (.one 2) (withPort State.reset []) = .next t ∧
    ∃ t', exec (.one 2) { withPort State.reset [] with scratch := x } = .next t' := ⟨_, rfl, _, rfl⟩

/-- The largest modulus and operand of the correctness domain at `m` = 1, and a bit of the multiplier; a modulus of both
domains; a first byte with its two top bits clear, at its largest. -/
theorem witness_CuberDomain : (3 * (BitVec.ofNat 8 85).toNat ≤ 256 ^ 1 ∧ (BitVec.ofNat 8 84).toNat < (BitVec.ofNat 8 85).toNat) ∧
    7 < 8 * 1 ∧ (BitVec.ofNat 8 63).toNat % 2 = 1 ∧ 4 * (BitVec.ofNat 8 63).toNat < 256 ^ 1 ∧
    byteAt (BitVec.ofNat _ 63 : BigInt 1) 0 < 0x40#8 := by decide

/-- A modulus that `LDN` accepts, and the three ways in which `mod_exp` runs no command. -/
theorem witness_ModExpEntry : State.reset.fault = false ∧ byteAt (loaded 59).n 0 < 0x80#8 ∧ (loaded 59).n.toNat % 2 = 1 ∧
    (raiseFault .nomod 0x2900#16 State.reset).fault = true ∧ 0x80#8 ≤ byteAt (loaded (256 ^ 51 - 1)).n 0 ∧
    (BitVec.ofNat 408 58).toNat % 2 = 0 := by decide +kernel

/-- The two sides of the bound on `PT_LEN`. -/
theorem witness_LynxDecryptEntry : fullImage.ptLen ≤ 65535 ∧ Memory.wf fullImage.ct = true ∧
    Memory.below 410 fullImage.ct = true ∧ 410 ≤ fullImage.ptLen ∧ (withPtLen fullImage 409).ptLen < 410 := by decide +kernel

end Sys2Proof.Tests
end

/-! SUPPORT. A word that decodes is the word of its command (30_encoding.md R86, R89). -/

namespace Sys2Proof

/-! ### The fields of a word in arithmetic (30_encoding.md R81, R84, R85) -/

theorem opField_eq_div (w : Word) : opField w = w.toNat / 2048 := by
  have hw := w.isLt
  simp only [opField, BitVec.extractLsb'_toNat, Nat.shiftRight_eq_div_pow]
  omega

theorem rdField_val (w : Word) : (rdField w).val = w.toNat / 256 % 8 := by
  simp [rdField, Nat.shiftRight_eq_div_pow]

theorem rs1Field_val (w : Word) : (rs1Field w).val = w.toNat / 32 % 8 := by
  simp [rs1Field, Nat.shiftRight_eq_div_pow]

theorem rs2Field_val (w : Word) : (rs2Field w).val = w.toNat / 4 % 8 := by
  simp [rs2Field, Nat.shiftRight_eq_div_pow]

theorem immField_toNat (w : Word) : (immField w).toNat = w.toNat % 2048 := by
  simp only [immField, BitVec.toNat_setWidth, BitVec.extractLsb'_toNat, Nat.shiftRight_zero]
  omega

/-- A word is the number of its fields when its low two bits are 0 (30_encoding.md R86). -/
theorem regWord_fields (w : Word) (h : w.extractLsb' 0 2 = 0#2) :
    regWord (opField w) (rdField w) (rs1Field w) (rs2Field w) = w := by
  have hlow : w.toNat % 4 = 0 := by simpa using congrArg BitVec.toNat h
  have hw := w.isLt
  apply BitVec.eq_of_toNat_eq
  simp only [regWord, BitVec.toNat_ofNat, opField_eq_div, rdField_val, rs1Field_val, rs2Field_val]
  omega

/-- A word is the number of its opcode and its immediate (30_encoding.md R85, R86). -/
theorem immWord_fields (w : Word) : immWord (opField w) (immField w) = w := by
  have hw := w.isLt
  apply BitVec.eq_of_toNat_eq
  simp only [immWord, BitVec.toNat_ofNat, opField_eq_div, immField_toNat]
  omega

/-! ### The bits that a format fixes at 0 (30_encoding.md R87) -/

/-- A field that lies under the 1 bits of a mask is 0 when the masked word is 0 (30_encoding.md R87). -/
theorem extractLsb'_eq_zero_of_mask {w m : Word} (lo len : Nat) (h : w &&& m = 0#16)
    (hm : m.extractLsb' lo len = BitVec.allOnes len) : w.extractLsb' lo len = 0#len := by
  have hf := congrArg (BitVec.extractLsb' lo len) h
  rwa [BitVec.extractLsb'_and, hm, BitVec.and_allOnes, BitVec.extractLsb'_zero] at hf

theorem rdField_eq_zero_of_mask {w m : Word} (h : w &&& m = 0#16) (hm : m.extractLsb' 8 3 = BitVec.allOnes 3) :
    rdField w = 0 := by
  rw [rdField, extractLsb'_eq_zero_of_mask 8 3 h hm]
  rfl

theorem rs1Field_eq_zero_of_mask {w m : Word} (h : w &&& m = 0#16) (hm : m.extractLsb' 5 3 = BitVec.allOnes 3) :
    rs1Field w = 0 := by
  rw [rs1Field, extractLsb'_eq_zero_of_mask 5 3 h hm]
  rfl

theorem rs2Field_eq_zero_of_mask {w m : Word} (h : w &&& m = 0#16) (hm : m.extractLsb' 2 3 = BitVec.allOnes 3) :
    rs2Field w = 0 := by
  rw [rs2Field, extractLsb'_eq_zero_of_mask 2 3 h hm]
  rfl

/-! ### The word of each format, from the fields that the format uses (30_encoding.md R81, R82) -/

theorem regWord_of_formatDss {w : Word} (h : w &&& Format.dss.mustBeZero = 0#16) :
    regWord (opField w) (rdField w) (rs1Field w) (rs2Field w) = w :=
  regWord_fields w (extractLsb'_eq_zero_of_mask 0 2 h (by decide))

theorem regWord_of_formatDs {w : Word} (h : w &&& Format.ds.mustBeZero = 0#16) :
    regWord (opField w) (rdField w) (rs1Field w) 0 = w := by
  have hw := regWord_fields w (extractLsb'_eq_zero_of_mask 0 2 h (by decide))
  rwa [rs2Field_eq_zero_of_mask h (by decide)] at hw

theorem regWord_of_formatS {w : Word} (h : w &&& Format.s.mustBeZero = 0#16) :
    regWord (opField w) 0 (rs1Field w) 0 = w := by
  have hw := regWord_fields w (extractLsb'_eq_zero_of_mask 0 2 h (by decide))
  rwa [rdField_eq_zero_of_mask h (by decide), rs2Field_eq_zero_of_mask h (by decide)] at hw

theorem regWord_of_formatD {w : Word} (h : w &&& Format.d.mustBeZero = 0#16) :
    regWord (opField w) (rdField w) 0 0 = w := by
  have hw := regWord_fields w (extractLsb'_eq_zero_of_mask 0 2 h (by decide))
  rwa [rs1Field_eq_zero_of_mask h (by decide), rs2Field_eq_zero_of_mask h (by decide)] at hw

theorem regWord_of_formatZ {w : Word} (h : w &&& Format.z.mustBeZero = 0#16) : regWord (opField w) 0 0 0 = w := by
  have hw := regWord_fields w (extractLsb'_eq_zero_of_mask 0 2 h (by decide))
  rwa [rdField_eq_zero_of_mask h (by decide), rs1Field_eq_zero_of_mask h (by decide),
    rs2Field_eq_zero_of_mask h (by decide)] at hw

theorem formatChecked_eq_ok {f : Format} {w : Word} {i j : Instr} :
    formatChecked f w i = .ok j ↔ w &&& f.mustBeZero = 0#16 ∧ i = j := by
  by_cases h : w &&& f.mustBeZero = 0#16 <;> simp [formatChecked, h]

/-- A word that decodes is the word of the command it decodes to (30_encoding.md R89). The cases are the rows of the
table of R86 in its order, taken together by format. -/
theorem encode_of_decode {w : Word} {i : Instr} (h : decode w = .ok i) : encode i = w := by
  unfold decode at h
  split at h
  case h_19 => cases h
  all_goals
    rename_i hop
    obtain ⟨hmask, rfl⟩ := formatChecked_eq_ok.1 h
    simp only [encode, ← hop]
  case h_1 | h_17 | h_18 => exact regWord_of_formatZ hmask
  case h_2 | h_3 | h_5 | h_6 => exact regWord_of_formatD hmask
  case h_7 => exact regWord_of_formatS hmask
  case h_4 | h_8 | h_11 | h_14 => exact regWord_of_formatDs hmask
  case h_9 | h_10 | h_12 | h_13 => exact regWord_of_formatDss hmask
  case h_15 | h_16 => exact immWord_fields w

end Sys2Proof

/-! SUPPORT. What each outcome of a presented word leaves (00_scope.md R9). -/

namespace Sys2Proof.Machine

theorem encode_decrypt : encode .decrypt = 0xD000#16 := by decide

/-- A command that faults leaves its word in `FCMD` and, but for `DECRYPT`, changes the fault record alone
(60_exceptions.md R225). -/
theorem ExecEnd.record_of_fault {i : Instr} {s t : State} (h : ExecEnd i s t) (hs : s.fault = false)
    (ht : t.fault = true) : t.fcmd = encode i ∧ (i ≠ .decrypt → t = withRecord s t.cause (encode i)) := by
  cases h with
  | faults c _ => exact ⟨rfl, fun _ => rfl⟩
  | firstOutside hi _ _ => exact ⟨rfl, fun hne => absurd hi hne⟩
  | secondOutside s1 hi _ _ _ _ => exact ⟨rfl, fun hne => absurd hi hne⟩
  | decrypted s1 _ _ _ h1 _ => simp [h1, hs] at ht
  | _ => simp [hs] at ht

/-- A presented word has a next state; ignored, it changes nothing, and faulting it is in `FCMD` and, but for the word
of `DECRYPT`, the fault record alone changes (00_scope.md R9, 60_exceptions.md R225). -/
theorem command_end (w : Word) (s : State) (hlen : s.ptLen ≤ 65535) :
    ∃ t, command w s = .next t ∧ (s.fault = true → t = s) ∧
      (s.fault = false → t.fault = true → t.fcmd = w ∧ (w ≠ 0xD000#16 → t = withRecord s t.cause w)) := by
  rcases command_cases w s with ⟨hf, hc⟩ | ⟨hf, _, hc⟩ | ⟨hf, i, hi, hc⟩
  · exact ⟨s, hc, fun _ => rfl, fun h => by simp [hf] at h⟩
  · exact ⟨_, hc, fun h => by simp [hf] at h, fun _ _ => ⟨rfl, fun _ => rfl⟩⟩
  · obtain ⟨t, ht, hend⟩ := exec_end i s hlen
    obtain rfl := encode_of_decode hi
    refine ⟨t, hc.trans ht, fun h => by simp [hf] at h, fun _ htf => ?_⟩
    obtain ⟨hfcmd, hrec⟩ := hend.record_of_fault hf htf
    exact ⟨hfcmd, fun hne => hrec fun hd => hne ((congrArg encode hd).trans encode_decrypt)⟩

/-- The outcome of a word, read off `FAULT` before and after it (00_scope.md R9). -/
theorem commandOutcome_of_next {w : Word} {s t : State} (h : command w s = .next t) :
    commandOutcome w s = some (if s.fault then .ignored else if t.fault then .faults else .completes) := by
  unfold commandOutcome
  rw [h]
  split <;> rfl

/-- Settles O9: `FAULT` before and after the word decides its outcome, and `command_end` says what each leaves. -/
theorem everyWordHasOneOutcome : Obligations.EveryWordHasOneOutcome := by
  intro s w hlen
  obtain ⟨t, ht, hignored, hfaulted⟩ := command_end w s hlen
  refine ⟨t, ht, ?_⟩
  rw [commandOutcome_of_next ht]
  cases hs : s.fault with
  | true => simp [hignored hs]
  | false =>
    cases htf : t.fault with
    | true => simpa using hfaulted hs htf
    | false => simp

end Sys2Proof.Machine

/-! SUPPORT. The coefficient that `LDN` derives is the coefficient of its modulus (41_montgomery.md R120). -/

namespace Sys2Proof.Machine

/-- Bit `k` of a byte is the parity of the number above its low `k` bits. -/
theorem getLsbD_eq_true_iff_div (b : Byte) (k : Nat) : b.getLsbD k = true ↔ b.toNat / 2 ^ k % 2 = 1 := by
  rw [← BitVec.testBit_toNat, Nat.testBit_eq_decide_div_mod_eq, decide_eq_true_iff]

/-- One iteration clears one more low bit of `n0·v + 1` when `n0` is odd: it adds `n0` shifted to the bit that is set
(41_montgomery.md R120). -/
theorem coefficientStep_dvd (n0 v : Byte) (i : Nat) (hi : i < 8) (hodd : n0.toNat % 2 = 1)
    (h : 2 ^ i ∣ (n0 * v + 1#8).toNat) : 2 ^ (i + 1) ∣ (n0 * coefficientStep n0 v i + 1#8).toNat := by
  obtain ⟨q, hq⟩ := h
  have hbit : (n0 * v + 1#8).getLsbD i = true ↔ q % 2 = 1 := by
    rw [getLsbD_eq_true_iff_div, hq, Nat.mul_div_cancel_left _ (by positivity)]
  unfold coefficientStep
  split <;> rename_i hb <;> rw [hbit] at hb
  · have hx : n0 * (v + BitVec.ofNat 8 (2 ^ i)) + 1#8 = (n0 * v + 1#8) + n0 * BitVec.ofNat 8 (2 ^ i) := by ring
    have hdvd : 2 ^ (i + 1) ∣ 2 ^ i * q + n0.toNat * 2 ^ i := by
      obtain ⟨u, hu⟩ : 2 ∣ q + n0.toNat := by omega
      exact ⟨u, by rw [pow_succ]; linear_combination 2 ^ i * hu⟩
    rw [hx, BitVec.toNat_add, BitVec.toNat_mul, hq, BitVec.toNat_ofNat, Nat.mul_mod_mod, Nat.add_mod_mod]
    exact (Nat.dvd_mod_iff (pow_dvd_pow 2 (by omega : i + 1 ≤ 8))).2 hdvd
  · obtain ⟨u, hu⟩ : 2 ∣ q := by omega
    exact ⟨u, by rw [hq, hu]; ring⟩

/-- After `k` iterations the low `k` bits of `n0·v + 1` are 0 (41_montgomery.md R120). -/
theorem coefficientSteps_dvd (n0 : Byte) (hodd : n0.toNat % 2 = 1) (k : Nat) (hk : k ≤ 8) :
    2 ^ k ∣ (n0 * (List.range k).foldl (coefficientStep n0) 0#8 + 1#8).toNat := by
  induction k with
  | zero => simp
  | succ k ih =>
    rw [List.range_succ, List.foldl_append, List.foldl_cons, List.foldl_nil]
    exact coefficientStep_dvd n0 _ k (by omega) hodd (ih (by omega))

/-- `derive_coefficient(N)` of an odd `N` solves the congruence of 10_state.md R23. -/
theorem deriveCoefficient_mul {m : Nat} (N : BigInt m) (hodd : (byteAt N (m - 1)).getLsbD 0 = true) :
    deriveCoefficient N * byteAt N (m - 1) + 1#8 = 0#8 := by
  have hmod : (byteAt N (m - 1)).toNat % 2 = 1 := by simpa using (getLsbD_eq_true_iff_div _ 0).1 hodd
  have hdvd := coefficientSteps_dvd _ hmod 8 le_rfl
  have hzero : (byteAt N (m - 1) * deriveCoefficient N + 1#8).toNat = 0 :=
    Nat.eq_zero_of_dvd_of_lt hdvd (BitVec.isLt _)
  rw [BitVec.mul_comm]
  exact BitVec.eq_of_toNat_eq hzero

/-- The pair that `LDN` loads is valid when it accepts the value (41_montgomery.md R121). -/
theorem modulusValid_of_not_invalid (X : Big) (h : modulusInvalid X = false) :
    modulusValid X (deriveCoefficient X) = true := by
  simp only [modulusInvalid, Bool.or_eq_false_iff, decide_eq_false_iff_not, BitVec.not_le, Bool.not_eq_false'] at h
  obtain ⟨htop, hodd⟩ := h
  have hv : deriveCoefficient X * byteAt X 50 + 1#8 = 0#8 := deriveCoefficient_mul X hodd
  simp only [modulusValid, htop, hodd, hv, decide_true, Bool.and_self, beq_self_eq_true]

end Sys2Proof.Machine

/-! SUPPORT. What each update keeps of the invariant. -/

namespace Sys2Proof.Machine

variable {s : State}

/-- A reset gives a good state when the contents it leaves are canonical and inside their sizes (10_state.md R35). -/
theorem inv_resetWith {c : ResetContents} {ptLen : Nat} (hct : Memory.wf c.ct = true)
    (hctBelow : Memory.below Config.ctLen c.ct = true) (hpt : Memory.wf c.pt = true)
    (hptBelow : Memory.below ptLen c.pt = true) (hpos : 1 ≤ ptLen) (hmax : ptLen ≤ 65535) (port : List HostOp)
    (hostLog : List Word) (free : Nat) : (State.resetWith c ptLen port hostLog free).Inv where
  ctCanonical := hct
  ctBelow := hctBelow
  ptCanonical := hpt
  ptBelow := hptBelow
  ptLenPos := hpos
  ptLenMax := hmax
  modulus := by simp [State.resetWith]
  record := rfl
  curRange := by simp [State.resetWith]
  outRange := by simp [State.resetWith]
  decoderIdle := rfl

theorem freeResetContents_ct (k ptLen : Nat) :
    (freeResetContents k ptLen).ct = memOf Config.ctLen (Config.resetCt k) := by
  rw [freeResetContents]

theorem freeResetContents_pt (k ptLen : Nat) : (freeResetContents k ptLen).pt = memOf ptLen (Config.resetPt k) := by
  rw [freeResetContents]

theorem State.Inv.hostReset (h : s.Inv) : (hostReset s).Inv := by
  obtain ⟨hct, hctBelow, -⟩ := memOf_spec Config.ctLen (Config.resetCt s.free)
  obtain ⟨hpt, hptBelow, -⟩ := memOf_spec s.ptLen (Config.resetPt s.free)
  rw [← freeResetContents_ct s.free s.ptLen] at hct hctBelow
  rw [← freeResetContents_pt] at hpt hptBelow
  exact inv_resetWith hct hctBelow hpt hptBelow h.ptLenPos h.ptLenMax _ _ _

theorem State.Inv.setPort (h : s.Inv) (ops : List HostOp) : (setPort s ops).Inv := { h with }

theorem State.Inv.giveHost (h : s.Inv) (x : Word) : (giveHost s x).Inv := { h with }

theorem State.Inv.setReg (h : s.Inv) (i : Reg) (X : Big) : (setReg s i X).Inv := { h with }

theorem State.Inv.setRf (h : s.Inv) (f : Bool) : (setRf s f).Inv := { h with }

theorem State.Inv.clearErrors (h : s.Inv) : (clearErrors s).Inv := { h with }

theorem State.Inv.recordSum (h : s.Inv) (f : Bool) : (recordSum s f).Inv := { h with }

theorem State.Inv.clobberScratch (h : s.Inv) : (clobberScratch s).Inv := { h with }

theorem State.Inv.setPass (h : s.Inv) (p : Fin 2) : (setPass s p).Inv := { h with }

theorem State.Inv.setCur (h : s.Inv) {a : Word} (ha : a.toNat ≤ 2047) : (setCur s a).Inv := { h with curRange := ha }

theorem State.Inv.setModulus (h : s.Inv) {X : Big} {v : Byte} (hX : modulusValid X v = true) :
    (setModulus s X v).Inv := { h with modulus := fun _ => hX }

theorem State.Inv.setCt (h : s.Inv) {a : Nat} (ha : a < Config.ctLen) (v : Byte) : (setCt s a v).Inv :=
  { h with
    ctCanonical := memWrite_wf _ h.ctCanonical a v
    ctBelow := memWrite_below _ _ h.ctBelow a ha v }

theorem State.Inv.setPt (h : s.Inv) {a : Nat} (ha : a < s.ptLen) (v : Byte) : (setPt s a v).Inv :=
  { h with
    ptCanonical := memWrite_wf _ h.ptCanonical a v
    ptBelow := memWrite_below _ _ h.ptBelow a ha v }

theorem State.Inv.raiseFault (h : s.Inv) {c : Cause} (hc : c ≠ .none) (w : Word) : (raiseFault c w s).Inv :=
  { h with record := by simpa [recordConsistent] using hc }

theorem State.Inv.startDecrypt (h : s.Inv) : (startDecrypt s).Inv :=
  (h.clearErrors.setCur (by decide)).setPass 0

theorem State.Inv.startPass (h : s.Inv) {off : Word} (hoff : off.toNat ≤ s.ptLen) (hcur : s.cur.toNat < 410)
    (c0 : Byte) : (startPass off c0 s).Inv :=
  { h with
    curRange := by rw [startPass_cur]; bv_omega
    outRange := hoff }

/-- A host write inside the interface (44_system_host.md R202). -/
theorem State.Inv.hostWrite (h : s.Inv) {t : State} {sp : Space} {a : Nat} {v : Byte}
    (hw : hostWrite s sp a v = some t) : t.Inv := by
  rcases hostWrite_cases s t sp a v hw with ⟨-, -, i, -, rfl⟩ | ⟨-, ha, rfl⟩ | ⟨-, ha, rfl⟩
  · exact h.setReg i _
  · exact h.setCt ha v
  · exact h.setPt ha v

/-! ### Decode passes -/

/-- `CUR` after a chunk that lies inside CT (43_chunk_decoder.md R171). -/
theorem chunkState_cur_val (s : State) (hct : s.cur.toNat + 51 ≤ 410) :
    (chunkState s).cur.toNat = s.cur.toNat + 51 := by
  rw [chunkState_cur]
  bv_omega

/-- New decoder counters and a new PT in their ranges, whatever the decode errors are. -/
theorem State.Inv.decoderUpdate (h : s.Inv) {pt : Memory} {cur out : Word} (hwf : Memory.wf pt = true)
    (hbelow : Memory.below s.ptLen pt = true) (hcur : cur.toNat ≤ 2047) (hout : out.toNat ≤ s.ptLen) (cnt acc : Byte)
    (estruct epad : Bool) :
    ({ s with cur := cur, cnt := cnt, acc := acc, out := out, pt := pt, estruct := estruct, epad := epad } :
      State).Inv :=
  { h with ptCanonical := hwf, ptBelow := hbelow, curRange := hcur, outRange := hout }

/-- A chunk inside both memories (43_chunk_decoder.md R178). -/
theorem State.Inv.chunkState (h : s.Inv) (hct : s.cur.toNat + 51 ≤ 410) (hpt : s.out.toNat + 50 ≤ s.ptLen) :
    (chunkState s).Inv := by
  have hfit : s.out.toNat + 50 ≤ 65535 := hpt.trans h.ptLenMax
  obtain ⟨-, hout, hwf, -⟩ := chunkState_spec s h.ptCanonical hfit
  have hcur := chunkState_cur_val s hct
  rw [chunkState_cur] at hcur
  rw [chunkState_frame]
  exact h.decoderUpdate hwf (chunkState_below s h.ptBelow hpt hfit) (by omega) (by omega) _ _ _ _

/-- Any number of chunks that lie inside both memories (43_chunk_decoder.md R175, R178). -/
theorem State.Inv.chunks (h : s.Inv) (k : Nat) (hct : s.cur.toNat + 51 * k ≤ 410)
    (hpt : s.out.toNat + 50 * k ≤ s.ptLen) : (Machine.chunkState^[k] s).Inv := by
  induction k generalizing s with
  | zero => exact h
  | succ k ih =>
    have hmax := h.ptLenMax
    have hcur := chunkState_cur_val s (by omega)
    have hout := chunkState_out_val s (by omega)
    exact ih (h.chunkState (by omega) (by omega)) (by omega) (by rw [chunkState_ptLen]; omega)

/-- A pass that its bounds check admits (43_chunk_decoder.md R177, R178). -/
theorem State.Inv.passState (h : s.Inv) {off : Word} (hb : passBoundsOk off s = true) : (passState off s).Inv := by
  obtain ⟨hcur, hct, hpt⟩ := (passBoundsOk_iff off s).1 hb
  have hnext : (s.cur + 1#16).toNat = s.cur.toNat + 1 := by bv_omega
  have hstart := h.startPass (off := off) (by omega) hcur (memRead s.ct s.cur.toNat)
  exact (hstart.chunks _ (by simp only [startPass_cur, hnext]; omega) (by simpa using hpt)).recordSum _

/-! ### Commands and steps -/

/-- A command that a word decodes to is well formed: an immediate has 11 bits (30_encoding.md R85). -/
theorem wellFormed_of_decode {w : Word} {i : Instr} (h : decode w = .ok i) : i.wellFormed = true := by
  unfold decode at h
  split at h
  case h_19 => cases h
  all_goals obtain ⟨-, rfl⟩ := formatChecked_eq_ok.1 h
  case h_15 | h_16 =>
    have hmod : w.toNat % 2048 < 2048 := Nat.mod_lt _ (by decide)
    simpa only [Instr.wellFormed, immInRange, immField_toNat, decide_eq_true_iff] using hmod
  all_goals rfl

/-- A well-formed command keeps the invariant, however it ends (30_encoding.md R92). -/
theorem State.Inv.execEnd (h : s.Inv) {t : State} {i : Instr} (hi : i.wellFormed = true) (he : ExecEnd i s t) :
    t.Inv := by
  cases he with
  | faults c hc => exact h.raiseFault hc _
  | idle _ => exact h
  | register rd X _ => exact (h.setReg rd X).clobberScratch
  | reduced rd X f _ => exact ((h.setReg rd X).setRf f).clobberScratch
  | loaded rs1 _ hX => exact (h.setModulus (modulusValid_of_not_invalid _ hX)).clobberScratch
  | moved imm himm =>
    subst himm
    have hlt : imm.toNat < 2048 := by simpa [Instr.wellFormed, immInRange] using hi
    exact (h.setCur (by omega)).clobberScratch
  | cleared _ => exact h.clearErrors.clobberScratch
  | passed imm _ _ hb => exact (h.passState hb).clobberScratch
  | firstOutside _ _ _ => exact h.startDecrypt.raiseFault (by decide) _
  | secondOutside s1 _ _ hb1 hs1 _ =>
    subst hs1
    exact ((h.startDecrypt.passState hb1).clobberScratch.setPass 1).raiseFault (by decide) _
  | decrypted s1 _ _ hb1 hs1 hb2 =>
    subst hs1
    exact (((h.startDecrypt.passState hb1).clobberScratch.setPass 1).passState hb2).clobberScratch

/-- Settles O49: every way in which a step ends is made of updates that keep the invariant. -/
theorem everyStepKeepsTheInvariant : Obligations.EveryStepKeepsTheInvariant := by
  intro s t h hstep
  rcases step_end s t h.ptLenMax hstep with ⟨-, rfl⟩ | ⟨op, rest, -, hend⟩
  · exact h
  have hp := h.setPort rest
  rcases hend with ⟨sp, a, v, -, hw⟩ | ⟨sp, a, x, -, -, rfl⟩ | ⟨w, -, -, rfl⟩ | ⟨w, e, -, -, -, rfl⟩ |
    ⟨w, i, -, -, hi, he⟩ | ⟨-, rfl⟩
  · exact hp.hostWrite hw
  · exact hp.giveHost x
  · exact hp
  · exact hp.raiseFault (by decide) w
  · exact hp.execEnd (wellFormed_of_decode hi) he
  · exact hp.hostReset

/-- Settles O48: the memories of the reset state are empty. -/
theorem resetStateIsGood : Obligations.ResetStateIsGood :=
  inv_resetWith rfl rfl rfl rfl (by decide) (by decide) [] [] 0

end Sys2Proof.Machine

/-! SUPPORT. What every step but a reset keeps, but for the one command that changes it. -/

namespace Sys2Proof.Machine

variable {s t : State}

/-! ### What a decode pass keeps -/

@[simp] theorem passState_v (off : Word) (s : State) : (passState off s).v = s.v :=
  (congrArg State.v (passState_frame off s) :)

@[simp] theorem passState_rf (off : Word) (s : State) : (passState off s).rf = s.rf :=
  (congrArg State.rf (passState_frame off s) :)

@[simp] theorem getReg_passState (off : Word) (s : State) (r : Reg) : getReg (passState off s) r = getReg s r :=
  (congrArg (getReg · r) (passState_frame off s) :)

/-- No recorded decode error is lost (10_state.md R26). -/
def ErrorsStick (s t : State) : Prop :=
  (s.estruct = true → t.estruct = true) ∧ (s.epad = true → t.epad = true) ∧ (s.esum = true → t.esum = true)

theorem ErrorsStick.trans {u : State} (h1 : ErrorsStick s t) (h2 : ErrorsStick t u) : ErrorsStick s u := by
  obtain ⟨hstruct1, hpad1, hsum1⟩ := h1
  obtain ⟨hstruct2, hpad2, hsum2⟩ := h2
  exact ⟨hstruct2 ∘ hstruct1, hpad2 ∘ hpad1, hsum2 ∘ hsum1⟩

theorem KeepsErrors.stick (h : KeepsErrors s t) : ErrorsStick s t := by
  obtain ⟨hstruct, hpad, hsum⟩ := h
  exact ⟨hstruct.trans, hpad.trans, hsum.trans⟩

/-- The checks of a chunk set flags and clear none (43_chunk_decoder.md R172, R173). -/
theorem chunkState_errorsStick (s : State) : ErrorsStick s (chunkState s) := by
  rw [chunkState_frame]
  exact ⟨fun h => by simp [h], fun h => by simp [h], id⟩

theorem chunks_errorsStick (k : Nat) (s : State) : ErrorsStick s (chunkState^[k] s) := by
  induction k generalizing s with
  | zero => exact ⟨id, id, id⟩
  | succ k ih => exact (chunkState_errorsStick s).trans (ih (chunkState s))

/-- A pass records decode errors and clears none (10_state.md R26). -/
theorem passState_errorsStick (off : Word) (s : State) : ErrorsStick s (passState off s) := by
  obtain ⟨hstruct, hpad, hsum⟩ := chunks_errorsStick (chunkCount (memRead s.ct s.cur.toNat))
    (startPass off (memRead s.ct s.cur.toNat) s)
  exact ⟨hstruct, hpad, fun h => by simp [passState, checkSum, hsum h]⟩

/-! ### What a command keeps, from the way it ends -/

/-- Only `LDN` writes the modulus (10_state.md R22 to R24). -/
theorem ExecEnd.keepsModulus {i : Instr} (he : ExecEnd i s t) (hi : ∀ rs1, i ≠ .ldn rs1) : KeepsModulus s t := by
  cases he with
  | loaded rs1 hl _ => exact absurd hl (hi rs1)
  | secondOutside _ _ _ _ hs1 _ | decrypted _ _ _ _ hs1 _ => subst hs1; simp [KeepsModulus]
  | _ => simp [KeepsModulus]

/-- Only `RED` writes `RF` (10_state.md R25). -/
theorem ExecEnd.keepsRf {i : Instr} (he : ExecEnd i s t) (hi : ∀ rd, i ≠ .red rd) : t.rf = s.rf := by
  cases he with
  | reduced rd X f hr => exact absurd hr (hi rd)
  | secondOutside _ _ _ _ hs1 _ | decrypted _ _ _ _ hs1 _ => subst hs1; simp
  | _ => simp

/-- Only `CLRERR` and `DECRYPT` clear a decode error, and besides them only `DPASS` records one (10_state.md R26). -/
theorem ExecEnd.keepsErrors {i : Instr} (he : ExecEnd i s t) (hclr : i ≠ .clrerr) (hdec : i ≠ .decrypt) :
    KeepsErrors s t ∨ (∃ imm, i = .dpass imm) ∧ ErrorsStick s t := by
  cases he with
  | cleared hi => exact absurd hi hclr
  | passed imm hi _ _ => exact .inr ⟨⟨imm, hi⟩, passState_errorsStick imm s⟩
  | firstOutside hi _ _ | secondOutside _ hi _ _ _ _ | decrypted _ hi _ _ _ _ => exact absurd hi hdec
  | _ => exact .inl ⟨rfl, rfl, rfl⟩

/-- CT is no command's to write (10_state.md R33). -/
theorem ExecEnd.keepsCt {i : Instr} (he : ExecEnd i s t) : t.ct = s.ct := by
  cases he with
  | secondOutside _ _ _ _ hs1 _ | decrypted _ _ _ _ hs1 _ => subst hs1; simp
  | _ => simp

/-- Only `DPASS` and `DECRYPT` write PT (10_state.md R34). -/
theorem ExecEnd.keepsPt {i : Instr} (he : ExecEnd i s t) (hpass : ∀ imm, i ≠ .dpass imm) (hdec : i ≠ .decrypt) :
    t.pt = s.pt := by
  cases he with
  | passed imm hi _ _ => exact absurd hi (hpass imm)
  | firstOutside hi _ _ | secondOutside _ hi _ _ _ _ | decrypted _ hi _ _ _ _ => exact absurd hi hdec
  | _ => rfl

/-! ### What a step keeps -/

/-- The modulus, `RF` and the decode errors keep their values: what no host access and no fault changes. -/
def KeepsFlags (s t : State) : Prop := KeepsModulus s t ∧ t.rf = s.rf ∧ KeepsErrors s t

theorem hostWrite_keepsFlags {sp : Space} {a : Nat} {v : Byte} (h : hostWrite s sp a v = some t) : KeepsFlags s t := by
  rcases hostWrite_cases s t sp a v h with ⟨-, -, i, -, rfl⟩ | ⟨-, -, rfl⟩ | ⟨-, -, rfl⟩ <;>
    exact ⟨⟨rfl, rfl, rfl⟩, rfl, rfl, rfl, rfl⟩

/-- A step that is no reset keeps the flags or runs a command (44_system_host.md R202 to R204). -/
theorem step_keepsFlags_or_runs (hlen : s.ptLen ≤ 65535) (hreset : ∀ rest, s.port ≠ .reset :: rest)
    (h : step s = .next t) :
    KeepsFlags s t ∨
      ∃ w rest i, s.port = .cmd w :: rest ∧ decode w = .ok i ∧ ExecEnd i (setPort s rest) t := by
  rcases step_end s t hlen h with ⟨-, rfl⟩ | ⟨op, rest, hport, hend⟩
  · exact .inl ⟨⟨rfl, rfl, rfl⟩, rfl, rfl, rfl, rfl⟩
  rcases hend with ⟨sp, a, v, -, hw⟩ | ⟨sp, a, x, -, -, rfl⟩ | ⟨w, -, -, rfl⟩ | ⟨w, e, -, -, -, rfl⟩ |
    ⟨w, i, hop, -, hi, he⟩ | ⟨hop, -⟩
  · exact .inl (hostWrite_keepsFlags (s := setPort s rest) hw)
  · exact .inl ⟨⟨rfl, rfl, rfl⟩, rfl, rfl, rfl, rfl⟩
  · exact .inl ⟨⟨rfl, rfl, rfl⟩, rfl, rfl, rfl, rfl⟩
  · exact .inl ⟨⟨rfl, rfl, rfl⟩, rfl, rfl, rfl, rfl⟩
  · exact .inr ⟨w, rest, i, hop ▸ hport, hi, he⟩
  · exact absurd (hop ▸ hport) (hreset rest)

/-- Settles O51: a faulted engine ignores a word, and no host access reaches the fault record. -/
theorem onlyResetClearsTheFaultRecord : Obligations.OnlyResetClearsTheFaultRecord := by
  intro s t hlen hfault hreset h
  rcases step_end s t hlen h with ⟨-, rfl⟩ | ⟨op, rest, hport, hend⟩
  · exact ⟨rfl, rfl, rfl⟩
  rcases hend with ⟨sp, a, v, -, hw⟩ | ⟨sp, a, x, -, -, rfl⟩ | ⟨w, -, -, rfl⟩ | ⟨w, e, -, hf, -, -⟩ |
    ⟨w, i, -, hf, -, -⟩ | ⟨hop, -⟩
  · rcases hostWrite_cases _ t sp a v hw with ⟨-, -, i, -, rfl⟩ | ⟨-, -, rfl⟩ | ⟨-, -, rfl⟩ <;>
      exact ⟨rfl, rfl, rfl⟩
  · exact ⟨rfl, rfl, rfl⟩
  · exact ⟨rfl, rfl, rfl⟩
  · simp [hfault] at hf
  · simp [hfault] at hf
  · exact absurd (hop ▸ hport) (hreset rest)

/-- Settles O52: a step that keeps the flags keeps the modulus, and of the commands only `LDN` writes it. -/
theorem onlyLdnWritesTheModulus : Obligations.OnlyLdnWritesTheModulus := by
  intro s t hlen hreset hldn h
  rcases step_keepsFlags_or_runs hlen hreset h with ⟨hmod, -, -⟩ | ⟨w, rest, i, hport, hi, he⟩
  · exact hmod
  · exact he.keepsModulus fun rs1 hir => hldn w rest rs1 hport (hir ▸ hi)

/-- Settles O53: a step that keeps the flags keeps `RF`, and of the commands only `RED` writes it. -/
theorem onlyRedWritesRf : Obligations.OnlyRedWritesRf := by
  intro s t hlen hreset hred h
  rcases step_keepsFlags_or_runs hlen hreset h with ⟨-, hrf, -⟩ | ⟨w, rest, i, hport, hi, he⟩
  · exact hrf
  · exact he.keepsRf fun rd hir => hred w rest rd hport (hir ▸ hi)

/-- Settles O54: the commands left keep the flags, but for `DPASS`, whose checks only set them. -/
theorem decodeErrorsAreSticky : Obligations.DecodeErrorsAreSticky := by
  intro s t hlen hreset hcmd h
  have hend : KeepsErrors s t ∨
      (∃ w rest imm, s.port = .cmd w :: rest ∧ decode w = .ok (.dpass imm)) ∧ ErrorsStick s t := by
    rcases step_keepsFlags_or_runs hlen hreset h with ⟨-, -, herr⟩ | ⟨w, rest, i, hport, hi, he⟩
    · exact .inl herr
    obtain ⟨hclr, hdec⟩ := hcmd w rest hport
    rcases he.keepsErrors (fun hic => hclr (hic ▸ hi)) (fun hid => hdec (hid ▸ hi)) with herr | ⟨⟨imm, rfl⟩, hstick⟩
    · exact .inl herr
    · exact .inr ⟨⟨w, rest, imm, hport, hi⟩, hstick⟩
  rcases hend with herr | ⟨⟨w, rest, imm, hport, hi⟩, hstick⟩
  · exact ⟨herr.stick, fun _ => herr⟩
  · exact ⟨hstick, fun hpass => absurd hi (hpass w rest imm hport)⟩

/-- Settles O55, from what each way in which a command ends keeps of the memories. -/
theorem commandsKeepTheMemories : Obligations.CommandsKeepTheMemories := by
  intro s t i hlen h
  have he := exec_end_of_next i s t hlen h
  exact ⟨fun a => by rw [he.keepsCt], fun hpass hdec a => by rw [he.keepsPt hpass hdec]⟩

/-- A register that a register write changes is the one it names (10_state.md R20). -/
theorem eq_of_getReg_setReg_ne {rd r : Reg} {X : Big} (h : getReg (setReg s rd X) r ≠ getReg s r) : r = rd := by
  by_contra hne
  simp [hne] at h

/-- Settles O56: of the ways in which a command ends, two write a register, the one that the command names. -/
theorem onlyTheNamedRegisterChanges : Obligations.OnlyTheNamedRegisterChanges := by
  intro s t i r hlen h hne
  cases exec_end_of_next i s t hlen h with
  | register rd X hi =>
    obtain rfl : r = rd := eq_of_getReg_setReg_ne hne
    rcases hi with h | h | h | h | h <;> simp only [h, true_or, or_true]
  | reduced rd X f hi =>
    obtain rfl : r = rd := eq_of_getReg_setReg_ne hne
    exact .inr (.inr (.inr (.inr (.inl hi))))
  | secondOutside _ _ _ _ hs1 _ | decrypted _ _ _ _ hs1 _ => subst hs1; simp at hne
  | _ => simp at hne

/-! ### The reset table and the control and status registers -/

/-- Settles O47: the state after a reset is the table of 10_state.md R35. -/
theorem resetLeavesTheTable : Obligations.ResetLeavesTheTable := by
  intro s
  have hstatus : statusWord (hostReset s) = 0x0000#16 := by
    simp [statusWord, dfail, hostReset, State.resetWith, Cause.code]
  exact ⟨hostReset s, rfl, rfl, rfl, rfl, rfl, rfl, rfl, rfl, rfl, rfl, rfl, rfl, rfl, rfl, hstatus, rfl⟩

/-- The bit put last is bit 0. -/
theorem getLsbD_append_ofBool_zero {n : Nat} (x : BitVec n) (b : Bool) : (x ++ BitVec.ofBool b).getLsbD 0 = b := by
  rw [BitVec.getLsbD_append]
  simp

/-- A bit put last moves the others up by one. -/
theorem getLsbD_append_ofBool_succ {n : Nat} (x : BitVec n) (b : Bool) (k : Nat) :
    (x ++ BitVec.ofBool b).getLsbD (k + 1) = x.getLsbD k := by
  simp [BitVec.getLsbD_append]

/-- A bit put last moves every field above it up by one. -/
theorem extractLsb'_append_ofBool_succ {n : Nat} (x : BitVec n) (b : Bool) (k len : Nat) :
    (x ++ BitVec.ofBool b).extractLsb' (k + 1) len = x.extractLsb' k len := by
  apply BitVec.eq_of_getLsbD_eq
  intro j hj
  rw [BitVec.getLsbD_extractLsb', BitVec.getLsbD_extractLsb', Nat.add_right_comm, getLsbD_append_ofBool_succ]

/-- Settles O46: the bits of `STATUS` are read off the assembled word from the last one on; the other registers are
read as they are. -/
theorem csrsReadTheirRegisters : Obligations.CsrsReadTheirRegisters := by
  intro s
  refine ⟨⟨statusWord s, rfl, ?_⟩, rfl, rfl, rfl, rfl, rfl, rfl⟩
  simp only [statusWord, getLsbD_append_ofBool_zero, getLsbD_append_ofBool_succ, extractLsb'_append_ofBool_succ,
    true_and]
  refine ⟨rfl, ?_⟩
  generalize s.cause = c
  cases c <;> decide

end Sys2Proof.Machine

/-! SUPPORT. No command reads the scratch buffers (10_state.md R31). -/

namespace Sys2Proof.Machine

/-- The scratch contents replaced. -/
def setScratch (s : State) (x : Scratch) : State := { s with scratch := x }

/-- The update commutes with a change of the scratch contents and keeps `PT_LEN`. -/
def KeepsScratchApart (g : State → State) : Prop :=
  ∀ s x, g (setScratch s x) = setScratch (g s) x ∧ (g s).ptLen = s.ptLen

/-- Whatever the scratch holds, the meaning answers the same next state, up to the scratch itself. -/
def IgnoresScratch (f : State → Result) : Prop :=
  ∀ s x, s.ptLen ≤ 65535 →
    ∃ t, f s = .next t ∧ (f (setScratch s x) = .next t ∨ f (setScratch s x) = .next (setScratch t x))

/-! ### A decode pass -/

theorem foldBytes_setScratch (l : List Byte) (s : State) (x : Scratch) :
    l.foldl foldByteState (setScratch s x) = setScratch (l.foldl foldByteState s) x :=
  List.foldl_hom (setScratch · x) fun _ _ => rfl

theorem chunkState_setScratch (s : State) (x : Scratch) :
    chunkState (setScratch s x) = setScratch (chunkState s) x :=
  congrArg advanceCounter (foldBytes_setScratch (chunkPayload s) (foldInput s) x)

theorem passState_setScratch (off : Word) (s : State) (x : Scratch) :
    passState off (setScratch s x) = setScratch (passState off s) x := by
  have hcomm : Function.Semiconj (setScratch · x) chunkState chunkState := fun s => (chunkState_setScratch s x).symm
  have hiter := (hcomm.iterate_right (chunkCount (memRead s.ct s.cur.toNat))).eq
    (startPass off (memRead s.ct s.cur.toNat) s)
  exact (congrArg checkSum hiter).symm

/-! ### The forms that commands are made of -/

theorem ignoresScratch_next : IgnoresScratch .next := fun s _ _ => ⟨s, rfl, .inr rfl⟩

theorem ignoresScratch_raise (c : Cause) (i : Instr) : IgnoresScratch (raise c i) := fun _ _ _ => ⟨_, rfl, .inr rfl⟩

/-- A completed command leaves free scratch contents, which do not depend on the ones it found (10_state.md R31). -/
theorem ignoresScratch_complete : IgnoresScratch complete := fun _ _ _ => ⟨_, rfl, .inl rfl⟩

theorem IgnoresScratch.after {f : State → Result} {g : State → State} (hf : IgnoresScratch f)
    (hg : KeepsScratchApart g) : IgnoresScratch fun s => f (g s) := by
  intro s x hlen
  obtain ⟨hcomm, hptLen⟩ := hg s x
  obtain ⟨t, ht, hx⟩ := hf (g s) x (by omega)
  exact ⟨t, ht, by simpa only [hcomm] using hx⟩

/-- A choice by a condition that does not look at the scratch. -/
theorem IgnoresScratch.ite {f g : State → Result} {p : State → Bool} (hp : ∀ s x, p (setScratch s x) = p s)
    (hf : IgnoresScratch f) (hg : IgnoresScratch g) : IgnoresScratch fun s => if p s then f s else g s := by
  intro s x hlen
  simp only [hp]
  split
  · exact hf s x hlen
  · exact hg s x hlen

theorem IgnoresScratch.aliasChecked {f : State → Result} (hf : IgnoresScratch f) (i : Instr) (isAliased : Bool) :
    IgnoresScratch fun s => aliasChecked i isAliased s f :=
  .ite (p := fun _ => isAliased) (fun _ _ => rfl) (ignoresScratch_raise .aliased i) hf

theorem IgnoresScratch.modulusChecked {f : State → Result} (hf : IgnoresScratch f) (i : Instr) :
    IgnoresScratch fun s => modulusChecked i s f :=
  .ite (fun _ _ => rfl) hf (ignoresScratch_raise .nomod i)

/-- What follows a pass finds the free scratch contents that the pass leaves (43_chunk_decoder.md R178). -/
theorem IgnoresScratch.decodePass {f : State → Result} (hf : IgnoresScratch f) (i : Instr) (off : Word) :
    IgnoresScratch fun s => decodePass i off s f := by
  intro s x hlen
  have hlen' : (setScratch s x).ptLen ≤ 65535 := hlen
  have hb : passBoundsOk off (setScratch s x) = passBoundsOk off s := rfl
  have hclobber : clobberScratch (setScratch (passState off s) x) = clobberScratch (passState off s) := rfl
  simp only [decodePass_eq _ _ _ _ hlen, decodePass_eq _ _ _ _ hlen', hb, passState_setScratch, hclobber]
  split
  · obtain ⟨t, ht, -⟩ := hf (clobberScratch (passState off s)) x (by simpa using hlen)
    exact ⟨t, ht, .inl ht⟩
  · exact ignoresScratch_raise .bounds i s x hlen

theorem ignoresScratch_unaryModular (i : Instr) (rd rs1 : Reg) (f : Big → Big → Byte → Big) :
    IgnoresScratch (unaryModular i rd rs1 f) :=
  ((ignoresScratch_complete.after (g := fun s => setReg s rd (f (getReg s rs1) s.n s.v))
    fun _ _ => ⟨rfl, rfl⟩).modulusChecked i).aliasChecked i _

theorem ignoresScratch_binaryModular (i : Instr) (rd rs1 rs2 : Reg) (f : Big → Big → Big → Byte → Big) :
    IgnoresScratch (binaryModular i rd rs1 rs2 f) :=
  ((ignoresScratch_complete.after (g := fun s => setReg s rd (f (getReg s rs1) (getReg s rs2) s.n s.v))
    fun _ _ => ⟨rfl, rfl⟩).modulusChecked i).aliasChecked i _

/-- No command reads the scratch contents it finds (10_state.md R31). -/
theorem exec_ignoresScratch (i : Instr) : IgnoresScratch (exec i) := by
  cases i with
  | nop => exact ignoresScratch_next
  | clr _ | one _ | cpy _ _ | dbl _ | setcur _ | clrerr => exact ignoresScratch_complete.after fun _ _ => ⟨rfl, rfl⟩
  | red rd =>
    have hred := ignoresScratch_complete.after
      (g := fun s => setRf (setReg s rd (reduceOnce (getReg s rd) s.n).1) (reduceOnce (getReg s rd) s.n).2)
      fun _ _ => ⟨rfl, rfl⟩
    exact hred.modulusChecked (.red rd)
  | ldn rs1 =>
    exact .ite (fun _ _ => rfl) (ignoresScratch_raise .modinv (.ldn rs1))
      (ignoresScratch_complete.after fun _ _ => ⟨rfl, rfl⟩)
  | tomont rd rs1 =>
    exact ignoresScratch_unaryModular (.tomont rd rs1) rd rs1 (fun B N _ => toMontgomery B N)
  | mmul rd rs1 rs2 => exact ignoresScratch_binaryModular (.mmul rd rs1 rs2) rd rs1 rs2 _
  | mexp rd rs1 rs2 => exact ignoresScratch_binaryModular (.mexp rd rs1 rs2) rd rs1 rs2 _
  | frommont rd rs1 => exact ignoresScratch_unaryModular (.frommont rd rs1) rd rs1 _
  | modexp rd rs1 rs2 =>
    exact ignoresScratch_binaryModular (.modexp rd rs1 rs2) rd rs1 rs2 (fun B d N v => modExpWith v B d N)
  | modmul rd rs1 rs2 =>
    exact ignoresScratch_binaryModular (.modmul rd rs1 rs2) rd rs1 rs2 (fun X Y N _ => modmul X Y N)
  | cube rd rs1 =>
    exact ignoresScratch_unaryModular (.cube rd rs1) rd rs1 (fun E N _ => cube E N)
  | dpass imm => exact (ignoresScratch_next.decodePass (.dpass imm) imm).modulusChecked (.dpass imm)
  | decrypt =>
    have hsecond := (ignoresScratch_next.decodePass .decrypt Config.off2).after (g := (setPass · 1))
      fun _ _ => ⟨rfl, rfl⟩
    have hfirst := (hsecond.decodePass .decrypt Config.off1).after (g := startDecrypt) fun _ _ => ⟨rfl, rfl⟩
    exact hfirst.modulusChecked .decrypt

/-- Settles O57: a command answers the same state from both, or the same state but for the scratch. -/
theorem scratchContentsNeverMatter : Obligations.ScratchContentsNeverMatter := by
  intro s t' i x hlen h
  obtain ⟨t, ht, hx⟩ := exec_ignoresScratch i s x hlen
  refine ⟨t, ht, ?_⟩
  rcases hx with hx | hx <;> cases h.symm.trans hx <;> rfl

end Sys2Proof.Machine

/-! SUPPORT. The host's interface is the locations of 20_memory.md R51 to R54: an access inside them answers, every
other is refused (R65). -/

namespace Sys2Proof.Machine

/-- Windows 0 to 7 are the general registers (20_memory.md R51). -/
theorem regWindow_eq_none_iff (a : Nat) : regWindow a = none ↔ 8 ≤ a / 64 := by
  simp only [regWindow, dite_eq_right_iff, reduceCtorEq, imp_false, not_lt]

/-- REG has no byte beyond position 50 and none beyond window 8 (20_memory.md R51). -/
theorem regSpaceRead_eq_none_iff (s : State) (a : Nat) : regSpaceRead s a = none ↔ 9 ≤ a / 64 ∨ 50 < a % 64 := by
  by_cases hpos : a % 64 ≤ 50
  case neg => simp [regSpaceRead, hpos, not_le.1 hpos]
  have hwin := regWindow_eq_none_iff a
  cases hreg : regWindow a with
  | some i =>
    have hlt : a / 64 < 8 := by simpa [hreg] using hwin
    simp only [regSpaceRead, hpos, hreg, if_true, reduceCtorEq, false_iff]
    omega
  | none =>
    have hge : 8 ≤ a / 64 := hwin.1 hreg
    simp only [regSpaceRead, hpos, hreg, if_true, ite_eq_right_iff, reduceCtorEq, imp_false]
    omega

/-- CSR has the numbers 0 to 6 (20_memory.md R52). -/
theorem csrRead_eq_none_iff (s : State) (a : Nat) : csrRead s a = none ↔ 7 ≤ a := by
  match a with
  | 0 | 1 | 2 | 3 | 4 | 5 | 6 => simp [csrRead]
  | a + 7 => simp [csrRead]

/-- A read fails to answer at exactly the locations that are not readable (44_system_host.md R203, 20_memory.md R65). -/
theorem hostRead_eq_none_iff (s : State) (sp : Space) (a : Nat) :
    hostRead s sp a = none ↔ sp.readable s.ptLen a = false := by
  cases sp with
  | reg =>
    simp only [hostRead, Option.map_eq_none_iff, regSpaceRead_eq_none_iff, Space.readable, Bool.and_eq_false_iff,
      decide_eq_false_iff_not]
    omega
  | csr =>
    simp only [hostRead, csrRead_eq_none_iff, Space.readable, decide_eq_false_iff_not]
    omega
  | ct | pt => simp [hostRead, Space.readable]

/-- A write fails to answer at exactly the locations that are not writable (44_system_host.md R202, 20_memory.md
R65). -/
theorem hostWrite_eq_none_iff (s : State) (sp : Space) (a : Nat) (v : Byte) :
    hostWrite s sp a v = none ↔ sp.writable s.ptLen a = false := by
  cases sp with
  | reg =>
    by_cases hpos : a % 64 ≤ 50 <;>
      simp [hostWrite, Space.writable, hpos, regWindow_eq_none_iff, Nat.succ_le_iff]
  | csr => simp [hostWrite, Space.writable]
  | ct | pt => simp [hostWrite, Space.writable]

theorem hostStep_hrd_refused {s : State} {sp : Space} {a : Nat} (h : sp.readable s.ptLen a = false) :
    hostStep (.hrd sp a) s = .refused (.hostReadOutside sp a) := by
  simp only [hostStep, (hostRead_eq_none_iff s sp a).2 h]

theorem hostStep_hwr_refused {s : State} {sp : Space} {a : Nat} {v : Byte} (h : sp.writable s.ptLen a = false) :
    hostStep (.hwr sp a v) s = .refused (.hostWriteOutside sp a) := by
  simp only [hostStep, (hostWrite_eq_none_iff s sp a v).2 h]

/-- Settles O45: the named locations are the ones that `Space.readable` and `Space.writable` leave out. -/
theorem accessOutsideTheInterfaceIsRefused : Obligations.AccessOutsideTheInterfaceIsRefused := by
  intro s a v
  refine ⟨fun h => hostStep_hrd_refused ?_, fun h => hostStep_hwr_refused ?_, fun h => hostStep_hrd_refused ?_,
    hostStep_hwr_refused rfl, fun h => ⟨hostStep_hrd_refused ?_, hostStep_hwr_refused ?_⟩,
    fun h => ⟨hostStep_hrd_refused ?_, hostStep_hwr_refused ?_⟩⟩ <;>
    simp only [Space.readable, Space.writable, Bool.and_eq_false_iff, decide_eq_false_iff_not] <;> omega

/-- A host operation has a next state, or lies outside the interface and is refused (20_memory.md R61, R65). -/
theorem hostStep_next_or_refused (op : HostOp) (s : State) (hlen : s.ptLen ≤ 65535) :
    (∃ t, hostStep op s = .next t) ∨ (op.inInterface s = false ∧ ∃ r, hostStep op s = .refused r) := by
  rcases hostStep_cases op s with ⟨_, _, _, t, -, -, hs⟩ | ⟨sp, a, v, rfl, hnone, hs⟩ | ⟨_, _, _, -, -, hs⟩ |
    ⟨sp, a, rfl, hnone, hs⟩ | ⟨w, -, hs⟩ | ⟨-, hs⟩
  · exact .inl ⟨t, hs⟩
  · exact .inr ⟨(hostWrite_eq_none_iff s sp a v).1 hnone, _, hs⟩
  · exact .inl ⟨_, hs⟩
  · exact .inr ⟨(hostRead_eq_none_iff s sp a).1 hnone, _, hs⟩
  · obtain ⟨t, ht, -⟩ := command_end w s hlen
    exact .inl ⟨t, hs.trans ht⟩
  · exact .inl ⟨_, hs⟩

/-- A step has a next state, or refuses a pending operation outside the interface (20_memory.md R61, R65). -/
theorem step_next_or_refused (s : State) (hlen : s.ptLen ≤ 65535) :
    (∃ t, step s = .next t) ∨
      ∃ op rest r, s.port = op :: rest ∧ op.inInterface s = false ∧ step s = .refused r := by
  rcases nextHostOp_cases s with ⟨-, hs⟩ | ⟨op, rest, hport, hs⟩
  · exact .inl ⟨s, hs⟩
  rcases hostStep_next_or_refused op (setPort s rest) hlen with ⟨t, ht⟩ | ⟨hout, r, hr⟩
  · exact .inl ⟨t, hs.trans ht⟩
  · have hout' : op.inInterface s = false := by cases op <;> exact hout
    exact .inr ⟨op, rest, r, hport, hout', hs.trans hr⟩

/-- Settles O50: neither ending of `step_next_or_refused` is a fault, and only an operation outside is refused. -/
theorem noStepLeavesTheMemories : Obligations.NoStepLeavesTheMemories := by
  intro s hlen
  rcases step_next_or_refused s hlen with ⟨t, ht⟩ | ⟨op, rest, r, hport, hout, hr⟩
  · exact ⟨fun _ => by simp [ht], fun _ => ⟨t, ht⟩⟩
  · exact ⟨fun _ => by simp [hr], fun hin => by simp [hin op rest hport] at hout⟩

end Sys2Proof.Machine

/-! SUPPORT. Decoding inverts encoding, and the words and commands that fault before a command's own rule
(30_encoding.md R86 to R92). -/

namespace Sys2Proof

/-! ### A word read by the row of its opcode (30_encoding.md R86, R87) -/

/-- The command of the same row of the table of 30_encoding.md R86, with its operands read from the word. -/
def Instr.withOperandsOf (w : Word) : Instr → Instr
  | .nop => .nop
  | .clr _ => .clr (rdField w)
  | .one _ => .one (rdField w)
  | .cpy _ _ => .cpy (rdField w) (rs1Field w)
  | .dbl _ => .dbl (rdField w)
  | .red _ => .red (rdField w)
  | .ldn _ => .ldn (rs1Field w)
  | .tomont _ _ => .tomont (rdField w) (rs1Field w)
  | .mmul _ _ _ => .mmul (rdField w) (rs1Field w) (rs2Field w)
  | .mexp _ _ _ => .mexp (rdField w) (rs1Field w) (rs2Field w)
  | .frommont _ _ => .frommont (rdField w) (rs1Field w)
  | .modexp _ _ _ => .modexp (rdField w) (rs1Field w) (rs2Field w)
  | .modmul _ _ _ => .modmul (rdField w) (rs1Field w) (rs2Field w)
  | .cube _ _ => .cube (rdField w) (rs1Field w)
  | .setcur _ => .setcur (immField w)
  | .dpass _ => .dpass (immField w)
  | .decrypt => .decrypt
  | .clrerr => .clrerr

/-- Decoding a word with an assigned opcode is the format check of that opcode's row (30_encoding.md R86, R87). -/
theorem decode_of_opcode {w : Word} {i : Instr} (h : opField w = i.opcode) :
    decode w = formatChecked i.format w (i.withOperandsOf w) := by
  unfold decode
  rw [h]
  cases i <;> rfl

/-- A word with a reserved opcode has no command (30_encoding.md R88): no row of the table has its opcode. -/
theorem decode_of_reservedOpcode {w : Word}
    (h : opField w ∈ [7, 13, 14, 15, 18, 19, 20, 21, 22, 23, 28, 29, 30, 31]) :
    decode w = .error (.reservedOpcode (opField w)) := by
  unfold decode
  split
  case h_19 => rfl
  all_goals
    rename_i hop
    rw [hop] at h
    exact absurd h (by decide)

/-- A 1 in a bit that the opcode's format fixes at 0 leaves no command (30_encoding.md R87). -/
theorem decode_of_mustBeZeroBit {w : Word} {i : Instr} (h : opField w = i.opcode)
    (hmask : w &&& i.format.mustBeZero ≠ 0#16) : decode w = .error (.mustBeZeroBit i.format) :=
  (decode_of_opcode h).trans (if_neg hmask)

/-! ### The fields of an encoded word (30_encoding.md R84 to R86) -/

theorem rdField_regWord (op : Nat) (rd rs1 rs2 : Reg) : rdField (regWord op rd rs1 rs2) = rd := by
  apply Fin.ext
  rw [rdField_val, regWord, BitVec.toNat_ofNat]
  omega

theorem rs1Field_regWord (op : Nat) (rd rs1 rs2 : Reg) : rs1Field (regWord op rd rs1 rs2) = rs1 := by
  apply Fin.ext
  rw [rs1Field_val, regWord, BitVec.toNat_ofNat]
  omega

theorem rs2Field_regWord (op : Nat) (rd rs1 rs2 : Reg) : rs2Field (regWord op rd rs1 rs2) = rs2 := by
  apply Fin.ext
  rw [rs2Field_val, regWord, BitVec.toNat_ofNat]
  omega

theorem immField_immWord (op : Nat) {imm : Word} (h : immInRange imm = true) : immField (immWord op imm) = imm := by
  have himm : imm.toNat < 2048 := of_decide_eq_true h
  apply BitVec.eq_of_toNat_eq
  rw [immField_toNat, immWord, BitVec.toNat_ofNat]
  omega

/-- The word of a command carries its opcode and 0 in every bit that its format fixes at 0 (30_encoding.md R81, R82). -/
theorem wordShape (i : Instr) : Laws.WordShape.Statement i := by
  cases i with
  | nop => exact Laws.WordShape.nop
  | clr rd => exact Laws.WordShape.clr rd
  | one rd => exact Laws.WordShape.one rd
  | cpy rd rs1 => exact Laws.WordShape.cpy rd rs1
  | dbl rd => exact Laws.WordShape.dbl rd
  | red rd => exact Laws.WordShape.red rd
  | ldn rs1 => exact Laws.WordShape.ldn rs1
  | tomont rd rs1 => exact Laws.WordShape.tomont rd rs1
  | mmul rd rs1 rs2 => exact Laws.WordShape.mmul rd rs1 rs2
  | mexp rd rs1 rs2 => exact Laws.WordShape.mexp rd rs1 rs2
  | frommont rd rs1 => exact Laws.WordShape.frommont rd rs1
  | modexp rd rs1 rs2 => exact Laws.WordShape.modexp rd rs1 rs2
  | modmul rd rs1 rs2 => exact Laws.WordShape.modmul rd rs1 rs2
  | cube rd rs1 => exact Laws.WordShape.cube rd rs1
  | setcur imm => exact Laws.WordShape.setcur imm
  | dpass imm => exact Laws.WordShape.dpass imm
  | decrypt => exact Laws.WordShape.decrypt
  | clrerr => exact Laws.WordShape.clrerr

/-- The operands read from the word of a well-formed command are its own; only an immediate needs well-formedness
(30_encoding.md R84, R85). -/
theorem withOperandsOf_encode {i : Instr} (h : i.wellFormed = true) : i.withOperandsOf (encode i) = i := by
  cases i with
  | setcur imm => exact congrArg Instr.setcur (immField_immWord _ h)
  | dpass imm => exact congrArg Instr.dpass (immField_immWord _ h)
  | _ => simp only [Instr.withOperandsOf, encode, rdField_regWord, rs1Field_regWord, rs2Field_regWord]

/-- Decoding the word of a well-formed command gives the command (30_encoding.md R86). -/
theorem decode_encode {i : Instr} (h : i.wellFormed = true) : decode (encode i) = .ok i := by
  obtain ⟨hop, hmask⟩ := wordShape i
  rw [decode_of_opcode hop, formatChecked_eq_ok]
  exact ⟨hmask, withOperandsOf_encode h⟩

theorem decodeTableWord_of_decode {nbits w : Nat} {i : Instr} (h : decode (tableWord nbits w) = .ok i) :
    decodeTableWord nbits w = some i := by
  simp [decodeTableWord, h]

/-- Settles O1, by `decode_encode`. -/
theorem decodeOfEncodeIsTheCommand : Obligations.DecodeOfEncodeIsTheCommand := fun _ h => decode_encode h

/-- Settles O2: the word is the encoding of its command, and an immediate read from a word is in range. -/
theorem decodedWordIsTheOneEncoding : Obligations.DecodedWordIsTheOneEncoding :=
  fun _ _ h => ⟨encode_of_decode h, Machine.wellFormed_of_decode h⟩

/-- Settles O3: each word written out is the encoding of its command. -/
theorem writtenOutWordsDecode : Obligations.WrittenOutWordsDecode :=
  ⟨decode_encode (i := .mmul 3 1 2) rfl, decode_encode (i := .ldn 5) rfl, decode_encode (i := .dpass 256#16) rfl,
    decode_encode (i := .cube 4 1) rfl, decode_encode (i := .clr 2) rfl, decode_encode (i := .clrerr) rfl,
    decodeTableWord_of_decode (decode_encode (i := .modexp 3 1 2) rfl)⟩

end Sys2Proof

namespace Sys2Proof.Machine

/-! ### Steps 1 and 2 of the order of checks (30_encoding.md R92) -/

/-- The next step of a host that presents a word is the command of that word (44_system_host.md R204). -/
theorem step_of_cmd {s : State} {w : Word} {rest : List HostOp} (h : s.port = .cmd w :: rest) :
    step s = command w (setPort s rest) := by
  simp only [step, nextHostOp, h, hostStep]

/-- A faulted engine ignores the word (30_encoding.md R92 step 1). -/
theorem command_of_fault {w : Word} {s : State} (h : s.fault = true) : command w s = .next s := if_pos h

/-- A word without a command faults with `ILLEGAL` (30_encoding.md R92 step 2). -/
theorem command_of_illegal {w : Word} {s : State} {e : DecodeError} (hs : s.fault = false)
    (h : decode w = .error e) : command w s = .next (withRecord s .illegal w) := by
  simp [command, hs, h, raiseFault, withRecord]

/-- Settles O4: a reserved opcode has no command. -/
theorem reservedOpcodeFaultsIllegal : Obligations.ReservedOpcodeFaultsIllegal :=
  fun _ _ hs hop => command_of_illegal hs (decode_of_reservedOpcode hop)

/-- Settles O5: the format check of the opcode's row fails. -/
theorem mustBeZeroBitFaultsIllegal : Obligations.MustBeZeroBitFaultsIllegal :=
  fun _ _ _ hs hop hmask => command_of_illegal hs (decode_of_mustBeZeroBit hop.symm hmask)

/-- Settles O7: the first check of a presented word is whether the engine has faulted. -/
theorem faultedEngineIgnoresEveryWord : Obligations.FaultedEngineIgnoresEveryWord := by
  intro s w rest hport hs
  constructor
  · rw [step_of_cmd hport]
    exact command_of_fault hs
  · rw [commandOutcome_of_next (command_of_fault hs), if_pos hs]

/-! ### Steps 3 and 4 of the order of checks (30_encoding.md R92) -/

/-- A command that faults changes the fault record alone (60_exceptions.md R225). -/
theorem raise_eq_withRecord (c : Cause) (i : Instr) (s : State) :
    raise c i s = .next (withRecord s c (encode i)) := rfl

/-- The commands of format DS that need the modulus have one operand form. -/
theorem exec_eq_unaryModular {i : Instr} {rd rs1 : Reg} (h : i ∈ [.tomont rd rs1, .frommont rd rs1, .cube rd rs1])
    (s : State) : ∃ f, exec i s = unaryModular i rd rs1 f s := by
  simp only [List.mem_cons, List.not_mem_nil, or_false] at h
  rcases h with rfl | rfl | rfl
  · exact ⟨fun B N _ => toMontgomery B N, rfl⟩
  · exact ⟨fun A N v => fromMontgomery A N v, rfl⟩
  · exact ⟨fun E N _ => cube E N, rfl⟩

/-- The commands of format DSS have one operand form. -/
theorem exec_eq_binaryModular {i : Instr} {rd rs1 rs2 : Reg}
    (h : i ∈ [.mmul rd rs1 rs2, .mexp rd rs1 rs2, .modexp rd rs1 rs2, .modmul rd rs1 rs2]) (s : State) :
    ∃ f, exec i s = binaryModular i rd rs1 rs2 f s := by
  simp only [List.mem_cons, List.not_mem_nil, or_false] at h
  rcases h with rfl | rfl | rfl | rfl
  · exact ⟨fun B C N v => montMultiply B C N v, rfl⟩
  · exact ⟨fun B d N v => montExponentiate B d N v, rfl⟩
  · exact ⟨fun B d N v => modExpWith v B d N, rfl⟩
  · exact ⟨fun X Y N _ => modmul X Y N, rfl⟩

/-- The commands that check the modulus first, having no destination that could be a source. -/
theorem exec_eq_modulusChecked {i : Instr} {rd : Reg} {imm : Word} (h : i ∈ [.red rd, .dpass imm, .decrypt])
    (s : State) : ∃ body, exec i s = modulusChecked i s body := by
  simp only [List.mem_cons, List.not_mem_nil, or_false] at h
  rcases h with rfl | rfl | rfl
  · simp only [exec, execRed, exists_apply_eq_apply']
  · simp only [exec, execDpass, exists_apply_eq_apply']
  · simp only [exec, execDecrypt, exists_apply_eq_apply']

/-- Settles O28: in both operand forms the alias check comes before everything else. -/
theorem aliasedDestinationFaults : Obligations.AliasedDestinationFaults := by
  intro s rd rs1 rs2
  constructor
  · intro i hi
    obtain ⟨f, hf⟩ := exec_eq_unaryModular hi s
    rw [hf, unaryModular_eq, if_pos rfl, raise_eq_withRecord]
  · intro halias i hi
    obtain ⟨f, hf⟩ := exec_eq_binaryModular hi s
    rw [hf, binaryModular_eq, if_pos halias, raise_eq_withRecord]

/-- Settles O29: with no alias the modulus check is the next, and it is the first of the commands that cannot alias. -/
theorem missingModulusFaults : Obligations.MissingModulusFaults := by
  intro s rd rs1 rs2 imm hmodv
  have hnone : ¬s.modv = true := by simp [hmodv]
  refine ⟨fun i hi => ?_, fun h1 i hi => ?_, fun h1 h2 i hi => ?_⟩
  · obtain ⟨body, hbody⟩ := exec_eq_modulusChecked hi s
    rw [hbody, modulusChecked_of_none i s body hmodv, raise_eq_withRecord]
  · obtain ⟨f, hf⟩ := exec_eq_unaryModular hi s
    rw [hf, unaryModular_eq, if_neg h1, if_neg hnone, raise_eq_withRecord]
  · obtain ⟨f, hf⟩ := exec_eq_binaryModular hi s
    rw [hf, binaryModular_eq, if_neg (by simp [h1, h2]), if_neg hnone, raise_eq_withRecord]

end Sys2Proof.Machine

/-! SUPPORT. What a list of bytes is worth, and what the byte passes of Machine/BytePass.lean do to that number. -/

namespace Sys2Proof.Machine

variable {m : Nat}

/-- The number that a list of bytes writes, position 0 the most significant (00_scope.md R7). -/
def bytesVal (l : List Byte) : Nat := Nat.ofDigits 256 (l.map BitVec.toNat).reverse

@[simp] theorem bytesVal_nil : bytesVal [] = 0 := rfl

@[simp] theorem bytesVal_cons (b : Byte) (l : List Byte) :
    bytesVal (b :: l) = b.toNat * 256 ^ l.length + bytesVal l := by
  rw [bytesVal, List.map_cons, Nat.ofDigits_reverse_cons, List.length_map, bytesVal]
  ring

theorem digit_lt_of_mem {l : List Byte} {d : Nat} (h : d ∈ (l.map BitVec.toNat).reverse) : d < 256 := by
  obtain ⟨b, -, rfl⟩ := List.mem_map.1 (List.mem_reverse.1 h)
  exact b.isLt

theorem bytesVal_lt (l : List Byte) : bytesVal l < 256 ^ l.length := by
  have h := Nat.ofDigits_lt_base_pow_length (b := 256) (by decide) fun _ => digit_lt_of_mem (l := l)
  simpa [bytesVal] using h

/-- As many bytes that write the same number are the same bytes. -/
theorem eq_of_bytesVal_eq {k l : List Byte} (hlen : k.length = l.length) (h : bytesVal k = bytesVal l) : k = l := by
  have hdigits := Nat.ofDigits_inj_of_len_eq (b := 256) (by decide) (by simpa using hlen)
    (fun _ => digit_lt_of_mem (l := k)) (fun _ => digit_lt_of_mem (l := l)) h
  exact List.map_injective_iff.2 (fun _ _ => BitVec.eq_of_toNat_eq) (List.reverse_injective hdigits)

@[simp] theorem toBytes_length (X : BigInt m) : (toBytes X).length = m := by simp [toBytes]

/-- The first `k` bytes write the number without its last `m - k` bytes. -/
theorem bytesVal_map_byteAt (X : BigInt m) (k : Nat) (hk : k ≤ m) :
    bytesVal ((List.range k).map (byteAt X)) = X.toNat / 256 ^ (m - k) := by
  induction k with
  | zero => simp [Nat.div_eq_of_lt (toNat_lt X)]
  | succ k ih =>
    have hpow : 256 ^ (m - k) = 256 ^ (m - (k + 1)) * 256 := by rw [← pow_succ]; congr 1; omega
    have ih := ih (by omega)
    rw [bytesVal] at ih ⊢
    rw [List.range_succ, List.map_append, List.map_append, List.reverse_append]
    simp only [List.map_cons, List.map_nil, List.reverse_singleton, List.singleton_append, Nat.ofDigits_cons, ih,
      byteAt_val, hpow, ← Nat.div_div_eq_div_mul, show m - 1 - k = m - (k + 1) by omega]
    omega

/-- The bytes of a value write it (00_scope.md R7). -/
@[simp] theorem bytesVal_toBytes (X : BigInt m) : bytesVal (toBytes X) = X.toNat := by
  rw [toBytes, bytesVal_map_byteAt X m le_rfl, Nat.sub_self, pow_zero, Nat.div_one]

/-- A list of `m` bytes is the bytes of the value that it writes. -/
theorem eq_toBytes {l : List Byte} {X : BigInt m} (hlen : l.length = m) (h : bytesVal l = X.toNat) :
    l = toBytes X :=
  eq_of_bytesVal_eq (by simp [hlen]) (by simp [h])

/-! ### The add-with-carry pass (40_bigint_primitives.md R103, 42_cuber.md R150) -/

/-- The byte that a position of the pass leaves. -/
theorem byteOfMod_val (n : Nat) : (BitVec.ofNat 8 (n % 256)).toNat = n % 256 := Nat.mod_mod n 256

theorem addPass_length {as xs : List Byte} (h : as.length = xs.length) : (addPass as xs).1.length = xs.length := by
  induction as generalizing xs with
  | nil => simpa [addPass] using h
  | cons a as ih =>
    cases xs with
    | nil => simp at h
    | cons x xs => simp [addPass, ih (xs := xs) (by simpa using h)]

/-- Sum bytes and carry together are the sum. -/
theorem addPass_val {as xs : List Byte} (h : as.length = xs.length) :
    bytesVal (addPass as xs).1 + (addPass as xs).2 * 256 ^ xs.length = bytesVal as + bytesVal xs := by
  induction as generalizing xs with
  | nil => simp [addPass, List.length_eq_zero_iff.1 h.symm]
  | cons a as ih =>
    cases xs with
    | nil => simp at h
    | cons x xs =>
      have hlen : as.length = xs.length := by simpa using h
      have htail := ih hlen
      have hbyte := Nat.mod_add_div (a.toNat + x.toNat + (addPass as xs).2) 256
      simp only [addPass, bytesVal_cons, addPass_length hlen, List.length_cons, hlen, byteOfMod_val, pow_succ]
      linear_combination 256 ^ xs.length * hbyte + htail

theorem addM_carry (A X : BigInt m) : (addM A X).2.toNat = (A.toNat + X.toNat) / 256 ^ m := by
  have hA := toNat_lt A
  have hX := toNat_lt X
  by_cases h : 256 ^ m ≤ A.toNat + X.toNat
  · rw [Nat.div_eq_of_lt_le (k := 1) (by omega) (by omega)]
    simp [addM, h]
  · rw [Nat.div_eq_of_lt (by omega)]
    simp [addM, h]

theorem double_eq_addM (A : BigInt m) : double A = addM A A := by rw [double, addM, two_mul]

/-- The pass is `add_m`: its bytes write the remainder of the sum modulo `256^m`, and its carry is the quotient. -/
theorem addPass_toBytes (A X : BigInt m) :
    addPass (toBytes A) (toBytes X) = (toBytes (addM A X).1, (addM A X).2.toNat) := by
  have hlen : (toBytes A).length = (toBytes X).length := by simp
  have hsum := addPass_val hlen
  have hbytes := addPass_length hlen
  have hlt := bytesVal_lt (addPass (toBytes A) (toBytes X)).1
  simp only [bytesVal_toBytes, toBytes_length] at hsum hbytes
  rw [hbytes] at hlt
  ext1
  · refine eq_toBytes hbytes ?_
    rw [addM_val, ← hsum, Nat.add_mul_mod_self_right, Nat.mod_eq_of_lt hlt]
  · rw [addM_carry, ← hsum, Nat.add_mul_div_right _ _ (by positivity), Nat.div_eq_of_lt hlt, Nat.zero_add]

/-- A value whose top bit is clear is below half the radix (40_bigint_primitives.md R103). -/
theorem two_mul_lt_of_byteAt_zero_lt {X : BigInt m} (h : byteAt X 0 < 0x80#8) : 2 * X.toNat < 256 ^ m := by
  have hX := toNat_lt X
  cases m with
  | zero => omega
  | succ m =>
    have htop : (byteAt X 0).toNat < 128 := BitVec.lt_def.1 h
    have hquot : X.toNat / 256 ^ m < 256 := Nat.div_lt_of_lt_mul (pow_succ 256 m ▸ hX)
    rw [byteAt_val, Nat.add_sub_cancel, Nat.sub_zero, Nat.mod_eq_of_lt hquot,
      Nat.div_lt_iff_lt_mul (by positivity)] at htop
    rw [pow_succ]
    omega

/-- Settles O40: the pass is `add_m`, which is `double` when both operands are the same. -/
theorem addPassIsAddition : Obligations.AddPassIsAddition := by
  intro m A X
  have hcarry : (double A).2.toNat = 2 * A.toNat / 256 ^ m := by rw [double_eq_addM, addM_carry, two_mul]
  refine ⟨addPass_toBytes A X, addM_val A X, addM_carry A X, ?_, double_val A, hcarry, fun hlt htop => ?_⟩
  · rw [double_eq_addM, addPass_toBytes]
  · have hfits : 2 * A.toNat < 256 ^ m := by have := two_mul_lt_of_byteAt_zero_lt htop; omega
    rw [double_val, Nat.mod_eq_of_lt hfits]
    exact ⟨decide_eq_false (by omega), rfl⟩

/-! ### The subtract-with-borrow pass (40_bigint_primitives.md R105) -/

/-- One position of the pass: the difference byte and the borrow that it passes on. -/
def subByte (b n : Byte) (r : Nat) : Byte × Nat :=
  let d : Int := (b.toNat : Int) - n.toNat - r
  if d < 0 then (BitVec.ofInt 8 (d + 256), 1) else (BitVec.ofInt 8 d, 0)

theorem subByte_val (b n : Byte) {r : Nat} (hr : r ≤ 1) :
    (subByte b n r).1.toNat + n.toNat + r = b.toNat + 256 * (subByte b n r).2 := by
  have := b.isLt
  have := n.isLt
  unfold subByte
  dsimp only
  split <;> rw [BitVec.toNat_ofInt] <;> omega

theorem subByte_borrow_le (b n : Byte) (r : Nat) : (subByte b n r).2 ≤ 1 := by
  unfold subByte
  dsimp only
  split <;> simp

theorem subPass_cons (b n : Byte) (bs ns : List Byte) :
    subPass (b :: bs) (n :: ns) =
      ((subByte b n (subPass bs ns).2).1 :: (subPass bs ns).1, (subByte b n (subPass bs ns).2).2) := by
  rw [subPass, subByte]
  split <;> rfl

theorem subPass_borrow_le (bs ns : List Byte) : (subPass bs ns).2 ≤ 1 := by
  cases bs with
  | nil => simp [subPass]
  | cons b bs =>
    cases ns with
    | nil => simp [subPass]
    | cons n ns => rw [subPass_cons]; exact subByte_borrow_le _ _ _

theorem subPass_length {bs ns : List Byte} (h : bs.length = ns.length) : (subPass bs ns).1.length = ns.length := by
  induction bs generalizing ns with
  | nil => simpa [subPass] using h
  | cons b bs ih =>
    cases ns with
    | nil => simp at h
    | cons n ns => simp [subPass_cons, ih (ns := ns) (by simpa using h)]

/-- The difference bytes and the subtrahend together are the minuend and what was borrowed. -/
theorem subPass_val {bs ns : List Byte} (h : bs.length = ns.length) :
    bytesVal (subPass bs ns).1 + bytesVal ns = bytesVal bs + (subPass bs ns).2 * 256 ^ ns.length := by
  induction bs generalizing ns with
  | nil => simp [subPass, List.length_eq_zero_iff.1 h.symm]
  | cons b bs ih =>
    cases ns with
    | nil => simp at h
    | cons n ns =>
      have hlen : bs.length = ns.length := by simpa using h
      have htail := ih hlen
      have hbyte := subByte_val b n (subPass_borrow_le bs ns)
      simp only [subPass_cons, bytesVal_cons, subPass_length hlen, List.length_cons, hlen, pow_succ]
      linear_combination 256 ^ ns.length * hbyte + htail

/-- The pass between two values of one length, as one equation. -/
theorem subPass_toBytes_val (B N : BigInt m) :
    bytesVal (subPass (toBytes B) (toBytes N)).1 + N.toNat =
      B.toNat + (subPass (toBytes B) (toBytes N)).2 * 256 ^ m := by
  have h := subPass_val (bs := toBytes B) (ns := toBytes N) (by simp)
  simpa only [bytesVal_toBytes, toBytes_length] using h

theorem subPass_toBytes_length (B N : BigInt m) : (subPass (toBytes B) (toBytes N)).1.length = m := by
  rw [subPass_length (by simp), toBytes_length]

/-- No borrow leaves position 0 exactly when the value is at least the modulus. -/
theorem subPass_toBytes_borrow (B N : BigInt m) :
    (subPass (toBytes B) (toBytes N)).2 = 0 ↔ N.toNat ≤ B.toNat := by
  have hdiff := subPass_toBytes_val B N
  have hlt := bytesVal_lt (subPass (toBytes B) (toBytes N)).1
  rw [subPass_toBytes_length] at hlt
  have hborrow := subPass_borrow_le (toBytes B) (toBytes N)
  obtain h | h : (subPass (toBytes B) (toBytes N)).2 = 0 ∨ (subPass (toBytes B) (toBytes N)).2 = 1 := by omega
  · rw [h] at hdiff ⊢
    omega
  · rw [h] at hdiff ⊢
    omega

theorem reduceOnce_of_le {B N : BigInt m} (h : N.toNat ≤ B.toNat) :
    reduceOnce B N = (BitVec.ofNat (8 * m) (B.toNat - N.toNat), true) := if_pos h

theorem reduceOnce_of_lt {B N : BigInt m} (h : B.toNat < N.toNat) : reduceOnce B N = (B, false) :=
  if_neg (Nat.not_le.2 h)

/-- The pass that borrows nothing gives the bytes of `reduce_once`. -/
theorem subPass_toBytes_of_le {B N : BigInt m} (h : N.toNat ≤ B.toNat) :
    (subPass (toBytes B) (toBytes N)).1 = toBytes (reduceOnce B N).1 := by
  refine eq_toBytes (subPass_toBytes_length B N) ?_
  have hdiff := subPass_toBytes_val B N
  rw [(subPass_toBytes_borrow B N).2 h] at hdiff
  rw [reduceOnce_val, if_pos h]
  omega

theorem clearBig_val (m : Nat) : (clearBig m).toNat = 0 := by simp [clearBig]

/-- Settles O41: the borrow of the pass decides as the comparison does, and the committed bytes are the difference. -/
theorem subPassIsReduceOnce : Obligations.SubPassIsReduceOnce := by
  intro m B N
  refine ⟨?_, ?_, reduceOnce_of_le, reduceOnce_of_lt, fun h => ?_, ?_⟩
  · simp only [reduceOnce_flag, subPass_toBytes_borrow]
  · simp only [subPass_toBytes_borrow]
    split_ifs with h
    · rw [subPass_toBytes_of_le h]
    · rw [reduceOnce_of_lt (Nat.not_le.1 h)]
  · rw [reduceOnce_val, if_pos (by omega)]
    omega
  · rw [reduceOnce_of_le (by simp [clearBig_val]), clearBig_val]
    simp

end Sys2Proof.Machine

/-! SUPPORT. The primitive commands, each a register write of one value (40_bigint_primitives.md R100 to R106). -/

namespace Sys2Proof.Machine

/-! ### The words of formats D and DS (30_encoding.md R86) -/

theorem regWord_formatD (op : Nat) (rd : Reg) : regWord op rd 0 0 = BitVec.ofNat 16 (op * 2048 + rd.val * 256) := by
  simp [regWord]

theorem regWord_formatDs (op : Nat) (rd rs1 : Reg) :
    regWord op rd rs1 0 = BitVec.ofNat 16 (op * 2048 + rd.val * 256 + rs1.val * 32) := by
  simp [regWord]

/-! ### The constants (40_bigint_primitives.md R100, R101) -/

theorem byteAt_clearBig (m k : Nat) : byteAt (clearBig m) k = 0#8 :=
  BitVec.eq_of_toNat_eq (by simp [byteAt_val, clearBig_val])

theorem oneBig_val {m : Nat} (hm : 0 < m) : (oneBig m).toNat = 1 := by
  rw [oneBig, ofNat_val, Nat.mod_eq_of_lt (Nat.one_lt_pow hm.ne' (by decide))]

theorem byteAt_oneBig_last {m : Nat} (hm : 0 < m) : byteAt (oneBig m) (m - 1) = 1#8 :=
  BitVec.eq_of_toNat_eq (by simp [byteAt_val, oneBig_val hm])

theorem byteAt_oneBig_of_lt {m k : Nat} (hk : k < m - 1) : byteAt (oneBig m) k = 0#8 := by
  have hpow : 1 < 256 ^ (m - 1 - k) := Nat.one_lt_pow (by omega) (by decide)
  exact BitVec.eq_of_toNat_eq (by simp [byteAt_val, oneBig_val (show 0 < m by omega), Nat.div_eq_of_lt hpow])

/-! ### Commands that write one register -/

/-- A command that completes with a register write has the frame of that register. -/
theorem changesOnlyRegister_setReg (s : State) (rd : Reg) (X : Big) :
    ChangesOnlyRegister rd s (clobberScratch (setReg s rd X)) :=
  ⟨fun r hr => by simp [hr], ⟨rfl, rfl, rfl⟩, rfl, ⟨rfl, rfl, rfl⟩, ⟨rfl, rfl, rfl⟩, ⟨rfl, rfl, rfl, rfl⟩,
    fun _ => rfl, fun _ => rfl, ⟨rfl, rfl, rfl, rfl⟩, rfl⟩

theorem getReg_clobberScratch_setReg_same (s : State) (rd : Reg) (X : Big) :
    getReg (clobberScratch (setReg s rd X)) rd = X := by simp

theorem exec_clr (rd : Reg) (s : State) : exec (.clr rd) s = .next (clobberScratch (setReg s rd (clearBig 51))) := rfl

theorem exec_one (rd : Reg) (s : State) : exec (.one rd) s = .next (clobberScratch (setReg s rd (oneBig 51))) := rfl

theorem exec_cpy (rd rs1 : Reg) (s : State) :
    exec (.cpy rd rs1) s = .next (clobberScratch (setReg s rd (getReg s rs1))) := rfl

theorem exec_dbl (rd : Reg) (s : State) :
    exec (.dbl rd) s = .next (clobberScratch (setReg s rd (double (getReg s rd)).1)) := rfl

/-- Settles O11: each command is a register write of its constant. -/
theorem clrAndOneWriteTheirConstant : Obligations.ClrAndOneWriteTheirConstant := by
  intro s rd
  refine ⟨regWord_formatD 1 rd, ⟨_, exec_clr rd s, ?_⟩, regWord_formatD 2 rd, ⟨_, exec_one rd s, ?_⟩⟩
  · rw [getReg_clobberScratch_setReg_same]
    exact ⟨fun k _ => byteAt_clearBig 51 k, clearBig_val 51, changesOnlyRegister_setReg s rd _⟩
  · rw [getReg_clobberScratch_setReg_same]
    exact ⟨fun k hk => byteAt_oneBig_of_lt (by omega), byteAt_oneBig_last (by decide), oneBig_val (by decide),
      changesOnlyRegister_setReg s rd _⟩

/-- Writing to a register the value of another leaves the other as it was, even if they are the same. -/
theorem getReg_setReg_getReg (s : State) (rd rs1 : Reg) : getReg (setReg s rd (getReg s rs1)) rs1 = getReg s rs1 := by
  simp

/-- Settles O12: the write is of the source's value, and of the own value when the registers are equal. -/
theorem cpyCopiesEveryByte : Obligations.CpyCopiesEveryByte := by
  intro s rd rs1
  refine ⟨regWord_formatDs 3 rd rs1, _, exec_cpy rd rs1 s, ?_, getReg_setReg_getReg s rd rs1, ?_,
    changesOnlyRegister_setReg s rd _⟩
  · intro k _
    rw [getReg_clobberScratch_setReg_same]
  · rintro rfl r
    by_cases hr : r = rd
    · rw [hr, getReg_clobberScratch_setReg_same]
    · simp [hr]

/-- Settles O13: the write is of `double`. -/
theorem dblDoublesModuloRadix : Obligations.DblDoublesModuloRadix := by
  intro s rd
  refine ⟨regWord_formatD 4 rd, _, exec_dbl rd s, ?_⟩
  rw [getReg_clobberScratch_setReg_same]
  exact ⟨double_val _, rfl, changesOnlyRegister_setReg s rd _⟩

/-! ### `RED` (40_bigint_primitives.md R106) -/

theorem exec_red_of_loaded {s : State} (rd : Reg) (h : s.modv = true) :
    exec (.red rd) s = .next (clobberScratch
      (setRf (setReg s rd (reduceOnce (getReg s rd) s.n).1) (reduceOnce (getReg s rd) s.n).2)) := by
  simp only [exec, execRed, modulusChecked_of_loaded _ _ _ h, complete_eq]

/-- Settles O14: with a modulus the register and `RF` are the two results of `reduce_once`, whose two cases are those
of the comparison with the modulus. -/
theorem redSubtractsOnceWithFlag : Obligations.RedSubtractsOnceWithFlag := by
  intro s rd
  refine ⟨regWord_formatD 5 rd, fun hmod => ⟨_, exec_red_of_loaded rd hmod, ?_⟩,
    fun hmod => (missingModulusFaults s rd 0 0 0#16 hmod).1 (.red rd) (by simp)⟩
  simp only [getReg_clobberScratch, getReg_setRf, getReg_setReg, if_true, clobberScratch_rf, setRf_rf]
  refine ⟨trivial, fun hle => ?_, fun hlt => ?_, fun r hr => by simp [hr], ⟨rfl, rfl, rfl⟩, ⟨rfl, rfl, rfl⟩,
    ⟨rfl, rfl, rfl⟩, ⟨rfl, rfl, rfl, rfl⟩, fun _ => rfl, fun _ => rfl, ⟨rfl, rfl, rfl, rfl⟩, rfl⟩
  · rw [reduceOnce_val, reduceOnce_flag, if_pos hle]
    exact ⟨rfl, decide_eq_true hle⟩
  · rw [reduceOnce_of_lt hlt]
    exact ⟨rfl, rfl⟩

end Sys2Proof.Machine

/-! SUPPORT. The values of the Montgomery engine inside its domains, at every length (41_montgomery.md R120 to R134). -/

namespace Sys2Proof.Machine

variable {m : Nat}

/-! ### The coefficient (41_montgomery.md R120) -/

/-- The low bit of the last byte is the parity of the value (00_scope.md R7). -/
theorem getLsbD_lastByte_iff (N : BigInt m) : (byteAt N (m - 1)).getLsbD 0 = true ↔ N.toNat % 2 = 1 := by
  rw [getLsbD_eq_true_iff_div, byteAt_val, Nat.sub_self, pow_zero, pow_zero, Nat.div_one, Nat.div_one]
  omega

theorem deriveCoefficient_val (N : BigInt m) (hodd : N.toNat % 2 = 1) :
    ((deriveCoefficient N).toNat * N.toNat + 1) % 256 = 0 :=
  coefficient_val N _ (deriveCoefficient_mul N ((getLsbD_lastByte_iff N).2 hodd))

/-- An odd number is invertible modulo 256, so the congruence of R120 has at most one solution among the bytes. -/
theorem coefficient_unique {n : Nat} (hodd : n % 2 = 1) {v w : Byte} (hv : (v.toNat * n + 1) % 256 = 0)
    (hw : (w.toNat * n + 1) % 256 = 0) : v = w := by
  have hcoprime : Nat.Coprime (2 ^ 8) n := (Nat.coprime_two_left.2 (Nat.odd_iff.2 hodd)).pow_left 8
  have hmul : v.toNat * n ≡ w.toNat * n [MOD 2 ^ 8] := Nat.ModEq.add_right_cancel' 1 (hv.trans hw.symm)
  exact BitVec.eq_of_toNat_eq ((hmul.cancel_right_of_coprime hcoprime).eq_of_lt_of_lt v.isLt w.isLt)

/-- Settles O15: the derived byte solves the congruence, and there is no second solution. -/
theorem coefficientIsTheUniqueInverse : Obligations.CoefficientIsTheUniqueInverse := by
  intro m N hodd v
  constructor
  · intro hv
    exact coefficient_unique hodd hv (deriveCoefficient_val N hodd)
  · rintro rfl
    exact deriveCoefficient_val N hodd

/-- A modulus with its coefficient has at least one byte. -/
theorem length_pos_of_coefficient {N : BigInt m} {v : Byte} (hv : v * byteAt N (m - 1) + 1#8 = 0#8) : 0 < m := by
  have hodd := odd_of_coefficient N v hv
  rcases Nat.eq_zero_or_pos m with rfl | hm
  · have := toNat_lt N
    omega
  · exact hm

/-- What a valid modulus pair is in numbers (10_state.md R22, R23). -/
theorem numbers_of_modulusValid {n : Big} {v : Byte} (h : modulusValid n v = true) :
    2 * n.toNat < 256 ^ 51 ∧ v * byteAt n (51 - 1) + 1#8 = 0#8 := by
  simp only [modulusValid, Bool.and_eq_true, decide_eq_true_eq, beq_iff_eq] at h
  obtain ⟨⟨htop, -⟩, hv⟩ := h
  exact ⟨two_mul_lt_of_byteAt_zero_lt htop, hv⟩

/-- The coefficient of a valid pair is the one that the modulus gives (41_montgomery.md R131). -/
theorem eq_deriveCoefficient_of_modulusValid {n : Big} {v : Byte} (h : modulusValid n v = true) :
    v = deriveCoefficient n := by
  obtain ⟨-, hv⟩ := numbers_of_modulusValid h
  have hodd := odd_of_coefficient n v hv
  exact coefficient_unique hodd (coefficient_val n v hv) (deriveCoefficient_val n hodd)

/-! ### Reduction keeps the value modulo `N` -/

theorem reduceOnce_modEq (B N : BigInt m) : (reduceOnce B N).1.toNat ≡ B.toNat [MOD N.toNat] := by
  rw [reduceOnce_val]
  split
  · next hle => exact (Nat.mod_eq_sub_mod hle).symm
  · rfl

/-- Double and reduce once stays at most `N` and doubles modulo `N`. Where `A = N` it gives `N` again: that is domain
entry of 1 for the modulus 1 (41_montgomery.md R122). -/
theorem doubleReduce_le_modEq (A N : BigInt m) (hN : 2 * N.toNat < 256 ^ m) (hA : A.toNat ≤ N.toNat) :
    (doubleReduce N A).toNat ≤ N.toNat ∧ (doubleReduce N A).toNat ≡ 2 * A.toNat [MOD N.toNat] := by
  have hd : (double A).1.toNat = 2 * A.toNat := by rw [double_val, Nat.mod_eq_of_lt (by omega)]
  constructor
  · rw [doubleReduce, reduceOnce_val, hd]
    split <;> omega
  · rw [← hd]
    exact reduceOnce_modEq _ _

/-- Domain entry of a value up to `N`, the one of the modulus 1 included (41_montgomery.md R122, R126). -/
theorem toMontgomery_le_modEq (B N : BigInt m) (hN : 2 * N.toNat < 256 ^ m) (hB : B.toNat ≤ N.toNat) :
    (toMontgomery B N).toNat ≤ N.toNat ∧ (toMontgomery B N).toNat ≡ B.toNat * 256 ^ m [MOD N.toNat] := by
  have rounds (r : Nat) : ((List.range r).foldl (fun A _ => doubleReduce N A) B).toNat ≤ N.toNat ∧
      ((List.range r).foldl (fun A _ => doubleReduce N A) B).toNat ≡ B.toNat * 2 ^ r [MOD N.toNat] := by
    induction r with
    | zero => exact ⟨hB, by simp [Nat.ModEq]⟩
    | succ r ih =>
      obtain ⟨hle, hmod⟩ := ih
      rw [List.range_succ, List.foldl_append, List.foldl_cons, List.foldl_nil]
      obtain ⟨hle', hmod'⟩ := doubleReduce_le_modEq _ N hN hle
      refine ⟨hle', hmod'.trans ?_⟩
      rw [pow_succ, ← mul_assoc, mul_comm _ 2]
      exact hmod.mul_left 2
  rw [toMontgomery, loop_eq, ← two_pow_eight_mul]
  exact rounds (8 * m)

/-! ### `mont_multiply` (41_montgomery.md R124, R134) -/

theorem montBuffer_comm (B C N : BigInt m) (v : Byte) : montBuffer B C N v = montBuffer C B N v := by
  rw [montBuffer, montBuffer, Nat.mul_comm B.toNat]

/-- R134 (e). -/
theorem montMultiply_comm (B C N : BigInt m) (v : Byte) : montMultiply B C N v = montMultiply C B N v := by
  rw [montMultiply, montMultiply, montBuffer_comm]

section Multiply

variable {N : BigInt m} {v : Byte}

/-- Where no carry leaves the buffer, the result times `R` is the product modulo `N`, and at most the product plus
`R - 1` times `N` (R134 (b)). -/
theorem montMultiply_modEq_le (hv : v * byteAt N (m - 1) + 1#8 = 0#8) {B C : BigInt m}
    (hfit : B.toNat * C.toNat + 256 ^ m * N.toNat < 256 ^ m * 256 ^ m + N.toNat) :
    (montMultiply B C N v).toNat * 256 ^ m ≡ B.toNat * C.toNat [MOD N.toNat] ∧
      (montMultiply B C N v).toNat * 256 ^ m + N.toNat ≤ B.toNat * C.toNat + 256 ^ m * N.toNat := by
  have hradix : 1 ≤ 256 ^ m := Nat.one_le_pow _ _ (by decide)
  have hsum (q : Nat) (hq : q < 256 ^ m) : q * N.toNat + N.toNat ≤ 256 ^ m * N.toNat := by
    rw [← Nat.succ_mul]
    exact Nat.mul_le_mul_right _ hq
  have hlast := hsum (256 ^ m - 1) (by omega)
  obtain ⟨q, hq, h⟩ := montMultiply_exact B C N v hv (by rw [two_mul, pow_add]; omega)
  have hq := hsum q hq
  rw [h]
  exact ⟨by simp [Nat.ModEq], by omega⟩

/-- Operands below `N` with `2N < R`: the Montgomery product, below one and a half `N` (R134 (c)). -/
theorem montMultiply_canonical (hv : v * byteAt N (m - 1) + 1#8 = 0#8) {B C : BigInt m} (hN : 2 * N.toNat < 256 ^ m)
    (hB : B.toNat < N.toNat) (hC : C.toNat < N.toNat) :
    (montMultiply B C N v).toNat * 256 ^ m ≡ B.toNat * C.toNat [MOD N.toNat] ∧
      2 * (montMultiply B C N v).toNat < 3 * N.toNat := by
  have hBC : 2 * (B.toNat * C.toNat) ≤ 256 ^ m * N.toNat := by
    calc 2 * (B.toNat * C.toNat) ≤ 2 * (N.toNat * N.toNat) :=
          Nat.mul_le_mul_left _ (Nat.mul_le_mul hB.le hC.le)
      _ = 2 * N.toNat * N.toNat := by ring
      _ ≤ 256 ^ m * N.toNat := Nat.mul_le_mul_right _ hN.le
  have hRN : 2 * (256 ^ m * N.toNat) ≤ 256 ^ m * 256 ^ m := by
    calc 2 * (256 ^ m * N.toNat) = 256 ^ m * (2 * N.toNat) := by ring
      _ ≤ 256 ^ m * 256 ^ m := Nat.mul_le_mul_left _ hN.le
  obtain ⟨hmod, hle⟩ := montMultiply_modEq_le hv (B := B) (C := C) (by omega)
  refine ⟨hmod, Nat.lt_of_mul_lt_mul_right (a := 256 ^ m) ?_⟩
  have h2 : 2 * (montMultiply B C N v).toNat * 256 ^ m = 2 * ((montMultiply B C N v).toNat * 256 ^ m) := by ring
  have h3 : 3 * N.toNat * 256 ^ m = 3 * (256 ^ m * N.toNat) := by ring
  omega

/-- Domain exit before its subtraction: the product of any value with 1 is at most `N` (41_montgomery.md R128). -/
theorem montMultiply_one (hv : v * byteAt N (m - 1) + 1#8 = 0#8) (hN : 2 * N.toNat < 256 ^ m) (A : BigInt m) :
    (montMultiply A (oneBig m) N v).toNat * 256 ^ m ≡ A.toNat [MOD N.toNat] ∧
      (montMultiply A (oneBig m) N v).toNat ≤ N.toNat := by
  have hA := toNat_lt A
  have hodd := odd_of_coefficient N v hv
  have hone : A.toNat * (oneBig m).toNat = A.toNat := by rw [oneBig_val (length_pos_of_coefficient hv), mul_one]
  have hR : 256 ^ m + 256 ^ m * N.toNat ≤ 256 ^ m * 256 ^ m := by
    calc 256 ^ m + 256 ^ m * N.toNat = 256 ^ m * (N.toNat + 1) := by ring
      _ ≤ 256 ^ m * 256 ^ m := Nat.mul_le_mul_left _ (by omega)
  obtain ⟨hmod, hle⟩ := montMultiply_modEq_le hv (B := A) (C := oneBig m) (by omega)
  rw [hone] at hmod hle
  refine ⟨hmod, Nat.lt_succ_iff.1 (Nat.lt_of_mul_lt_mul_right (a := 256 ^ m) ?_)⟩
  have hsucc : N.toNat.succ * 256 ^ m = 256 ^ m * N.toNat + 256 ^ m := by rw [Nat.succ_mul, mul_comm]
  omega

/-- `from_montgomery` of any value is canonical, and times `R` it is that value modulo `N` (41_montgomery.md R128). -/
theorem fromMontgomery_lt_modEq (hv : v * byteAt N (m - 1) + 1#8 = 0#8) (hN : 2 * N.toNat < 256 ^ m) (A : BigInt m) :
    (fromMontgomery A N v).toNat < N.toNat ∧ (fromMontgomery A N v).toNat * 256 ^ m ≡ A.toNat [MOD N.toNat] := by
  have hodd := odd_of_coefficient N v hv
  obtain ⟨hmod, hle⟩ := montMultiply_one hv hN A
  rw [fromMontgomery]
  refine ⟨?_, ((reduceOnce_modEq _ N).mul_right _).trans hmod⟩
  rw [reduceOnce_mod _ _ (by omega)]
  exact Nat.mod_lt _ (by omega)

end Multiply

/-- Settles O20: the two domains and their bounds are `montMultiply_canonical` and `montMultiply_bounded`. -/
theorem montMultiplyIsTheMontgomeryProduct : Obligations.MontMultiplyIsTheMontgomeryProduct := by
  intro m B C N v hv
  obtain ⟨-, -, -, hlow⟩ := montMultiply_spec B C N v hv
  exact ⟨hlow, fun hB hC hN => montMultiply_canonical hv hN hB hC,
    fun hB hC hN => montMultiply_bounded B C N v hv hN hB hC, montMultiply_comm B C N v⟩

/-! ### Values in Montgomery form (41_montgomery.md R126, R132) -/

/-- `A` is in Montgomery form the number `x`: congruent to `x·R` modulo `N` and below `2N`, so that it can be an operand
again (41_montgomery.md R134 (c)). -/
def MontgomeryForm (N A : BigInt m) (x : Nat) : Prop :=
  A.toNat < 2 * N.toNat ∧ A.toNat ≡ x * 256 ^ m [MOD N.toNat]

section Form

variable {N : BigInt m} {v : Byte} {A B : BigInt m} {x y : Nat}

/-- Domain entry gives the Montgomery form. -/
theorem montgomeryForm_toMontgomery (hN : 2 * N.toNat < 256 ^ m) (hpos : 0 < N.toNat) (hB : B.toNat ≤ N.toNat) :
    MontgomeryForm N (toMontgomery B N) B.toNat := by
  obtain ⟨hle, hmod⟩ := toMontgomery_le_modEq B N hN hB
  exact ⟨by omega, hmod⟩

/-- `mont_multiply` multiplies numbers in Montgomery form. -/
theorem MontgomeryForm.mul (hv : v * byteAt N (m - 1) + 1#8 = 0#8) (hN : 4 * N.toNat < 256 ^ m)
    (hA : MontgomeryForm N A x) (hB : MontgomeryForm N B y) : MontgomeryForm N (montMultiply A B N v) (x * y) := by
  obtain ⟨hAlt, hAmod⟩ := hA
  obtain ⟨hBlt, hBmod⟩ := hB
  obtain ⟨hmod, hlt⟩ := montMultiply_bounded A B N v hv hN hAlt hBlt
  have hcoprime := coprime_radix N (odd_of_coefficient N v hv)
  refine ⟨hlt, Nat.ModEq.cancel_right_of_coprime hcoprime (hmod.trans ((hAmod.mul hBmod).trans ?_))⟩
  rw [show x * 256 ^ m * (y * 256 ^ m) = x * y * 256 ^ m * 256 ^ m by ring]

/-- One exponent bit squares, and multiplies by the base when it is 1 (41_montgomery.md R126). -/
theorem MontgomeryForm.squareMultiply (hv : v * byteAt N (m - 1) + 1#8 = 0#8) (hN : 4 * N.toNat < 256 ^ m)
    (hB : MontgomeryForm N B x) {e : Nat} (hA : MontgomeryForm N A (x ^ e)) (bit : Bool) :
    MontgomeryForm N (exponentStep B N v A bit) (x ^ (2 * e + bit.toNat)) := by
  have hsquare : MontgomeryForm N (montMultiply A A N v) (x ^ (2 * e)) := by
    rw [two_mul, pow_add]
    exact hA.mul hv hN hA
  cases bit with
  | false => exact hsquare
  | true =>
    rw [Bool.toNat_true, pow_succ]
    exact hsquare.mul hv hN hB

/-- `mont_exponentiate` raises a number in Montgomery form to the power of the exponent: before bit `t` the accumulator
is the power to the exponent's first `t` bits (41_montgomery.md R126, R132). -/
theorem MontgomeryForm.pow (hv : v * byteAt N (m - 1) + 1#8 = 0#8) (hN : 4 * N.toNat < 256 ^ m)
    (hB : MontgomeryForm N B x) (d : BigInt m) :
    MontgomeryForm N (montExponentiate B d N v) (x ^ d.toNat) := by
  have hodd := odd_of_coefficient N v hv
  have hone : (oneBig m).toNat = 1 := oneBig_val (length_pos_of_coefficient hv)
  have hbits (t : Nat) (ht : t ≤ 8 * m) : MontgomeryForm N
      ((List.range t).foldl (fun acc t => exponentStep B N v acc (msbit d t)) (toMontgomery (oneBig m) N))
      (x ^ (d.toNat / 2 ^ (8 * m - t))) := by
    induction t with
    | zero =>
      have hstart := montgomeryForm_toMontgomery (N := N) (B := oneBig m) (by omega) (by omega) (by omega)
      rw [Nat.sub_zero, Nat.div_eq_of_lt d.isLt, pow_zero, ← hone]
      exact hstart
    | succ t ih =>
      rw [List.range_succ, List.foldl_append, List.foldl_cons, List.foldl_nil, div_two_pow_step _ _ _ ht,
        ← msbit_eq_testBit _ _ ht]
      exact hB.squareMultiply hv hN (ih (by omega)) (msbit d t)
  have hall := hbits (8 * m) le_rfl
  rw [Nat.sub_self, pow_zero, Nat.div_one] at hall
  rw [montExponentiate, loop_eq]
  exact hall

/-- Domain exit gives the number back, canonical (41_montgomery.md R128). -/
theorem MontgomeryForm.exit_val (hv : v * byteAt N (m - 1) + 1#8 = 0#8) (hN : 2 * N.toNat < 256 ^ m)
    (hA : MontgomeryForm N A x) : (fromMontgomery A N v).toNat = x % N.toNat := by
  obtain ⟨-, hAmod⟩ := hA
  obtain ⟨hlt, hmod⟩ := fromMontgomery_lt_modEq hv hN A
  have hcoprime := coprime_radix N (odd_of_coefficient N v hv)
  rw [← Nat.mod_eq_of_lt hlt]
  exact Nat.ModEq.cancel_right_of_coprime hcoprime (hmod.trans hAmod)

end Form

/-- Inside the correctness domain `mod_exp` with the coefficient given is the power modulo `N`
(41_montgomery.md R132). -/
theorem modExpWith_val {N : BigInt m} {v : Byte} (hv : v * byteAt N (m - 1) + 1#8 = 0#8) (hN : 4 * N.toNat < 256 ^ m)
    {B : BigInt m} (hB : B.toNat < N.toNat) (d : BigInt m) :
    (modExpWith v B d N).toNat = B.toNat ^ d.toNat % N.toNat := by
  have hbase := montgomeryForm_toMontgomery (N := N) (B := B) (by omega) (by omega) hB.le
  rw [modExpWith]
  exact (hbase.pow hv hN d).exit_val hv (by omega)

end Sys2Proof.Machine

/-! SUPPORT. The commands of the Montgomery engine (41_montgomery.md): each completes with the value of its function. -/

namespace Sys2Proof.Machine

variable {s : State}

/-! ### `LDN` (41_montgomery.md R121) -/

theorem modulusInvalid_iff (X : Big) : modulusInvalid X = true ↔ 0x80#8 ≤ byteAt X 0 ∨ X.toNat % 2 = 0 := by
  have hlow : (byteAt X 50).getLsbD 0 = true ↔ X.toNat % 2 = 1 := getLsbD_lastByte_iff X
  rw [modulusInvalid, Bool.or_eq_true, decide_eq_true_iff, Bool.not_eq_true', ← Bool.not_eq_true, hlow,
    Nat.mod_two_not_eq_one]

theorem exec_ldn_of_valid {rs1 : Reg} (h : modulusInvalid (getReg s rs1) = false) :
    exec (.ldn rs1) s =
      .next (clobberScratch (setModulus s (getReg s rs1) (deriveCoefficient (getReg s rs1)))) := by
  simp only [exec, execLdn, h, Bool.false_eq_true, if_false, complete_eq]

theorem exec_ldn_of_invalid {rs1 : Reg} (h : modulusInvalid (getReg s rs1) = true) :
    exec (.ldn rs1) s = .next (withRecord s .modinv (encode (.ldn rs1))) := by
  simp only [exec, execLdn, h, if_true, raise_eq_withRecord]

/-- Settles O16: the value passes both checks, and the pair that `LDN` then loads is valid. -/
theorem ldnLoadsValidModulus : Obligations.LdnLoadsValidModulus := by
  intro s rs1 htop hodd
  have hvalid : modulusInvalid (getReg s rs1) = false := by
    rw [← Bool.not_eq_true, modulusInvalid_iff, not_or, BitVec.not_le]
    exact ⟨htop, by omega⟩
  exact ⟨_, exec_ldn_of_valid hvalid, rfl, rfl, modulusValid_of_not_invalid _ hvalid, rfl, rfl, fun _ => rfl,
    ⟨rfl, rfl, rfl⟩, ⟨rfl, rfl, rfl⟩, ⟨rfl, rfl, rfl, rfl⟩, fun _ => rfl, fun _ => rfl, ⟨rfl, rfl, rfl, rfl⟩, rfl⟩

/-- Settles O17: the two conditions are the two checks of `LDN`. -/
theorem ldnRefusesInvalidModulus : Obligations.LdnRefusesInvalidModulus :=
  fun _ _ h => exec_ldn_of_invalid ((modulusInvalid_iff _).2 h)

/-! ### A modulus loaded and the destination no source -/

theorem unaryModular_of_loaded {rd rs1 : Reg} (h1 : rd ≠ rs1) (hmod : s.modv = true) (i : Instr)
    (f : Big → Big → Byte → Big) :
    unaryModular i rd rs1 f s = .next (clobberScratch (setReg s rd (f (getReg s rs1) s.n s.v))) := by
  rw [unaryModular_eq, if_neg h1, if_pos hmod, complete_eq]

theorem binaryModular_of_loaded {rd rs1 rs2 : Reg} (h1 : rd ≠ rs1) (h2 : rd ≠ rs2) (hmod : s.modv = true) (i : Instr)
    (f : Big → Big → Big → Byte → Big) :
    binaryModular i rd rs1 rs2 f s =
      .next (clobberScratch (setReg s rd (f (getReg s rs1) (getReg s rs2) s.n s.v))) := by
  rw [binaryModular_eq, if_neg (not_or.2 ⟨h1, h2⟩), if_pos hmod, complete_eq]

section Loaded

variable {rd rs1 rs2 : Reg} (h1 : rd ≠ rs1) (h2 : rd ≠ rs2) (hmod : s.modv = true)
include h1 hmod

theorem exec_tomont_of_loaded :
    exec (.tomont rd rs1) s = .next (clobberScratch (setReg s rd (toMontgomery (getReg s rs1) s.n))) :=
  unaryModular_of_loaded h1 hmod (.tomont rd rs1) fun B N _ => toMontgomery B N

theorem exec_frommont_of_loaded :
    exec (.frommont rd rs1) s = .next (clobberScratch (setReg s rd (fromMontgomery (getReg s rs1) s.n s.v))) :=
  unaryModular_of_loaded h1 hmod (.frommont rd rs1) fromMontgomery

include h2

theorem exec_mmul_of_loaded :
    exec (.mmul rd rs1 rs2) s =
      .next (clobberScratch (setReg s rd (montMultiply (getReg s rs1) (getReg s rs2) s.n s.v))) :=
  binaryModular_of_loaded h1 h2 hmod (.mmul rd rs1 rs2) montMultiply

theorem exec_mexp_of_loaded :
    exec (.mexp rd rs1 rs2) s =
      .next (clobberScratch (setReg s rd (montExponentiate (getReg s rs1) (getReg s rs2) s.n s.v))) :=
  binaryModular_of_loaded h1 h2 hmod (.mexp rd rs1 rs2) montExponentiate

theorem exec_modexp_of_loaded :
    exec (.modexp rd rs1 rs2) s =
      .next (clobberScratch (setReg s rd (modExpWith s.v (getReg s rs1) (getReg s rs2) s.n))) :=
  binaryModular_of_loaded h1 h2 hmod (.modexp rd rs1 rs2) fun B d N v => modExpWith v B d N

end Loaded

/-! ### The commands -/

/-- Settles O18: the rounds are `toMontgomery_mod` on a canonical operand. -/
theorem tomontEntersMontgomeryDomain : Obligations.TomontEntersMontgomeryDomain := by
  intro s rd rs1 h1 hmod
  refine ⟨_, exec_tomont_of_loaded h1 hmod, ?_⟩
  rw [getReg_clobberScratch_setReg_same]
  exact ⟨rfl, fun htop hB => toMontgomery_mod _ _ hB (two_mul_lt_of_byteAt_zero_lt htop).le,
    changesOnlyRegister_setReg s rd _⟩

/-- Settles O19: a valid modulus meets the domain `2N < R` of `montMultiply_canonical`. -/
theorem mmulMultipliesTwoRegisters : Obligations.MmulMultipliesTwoRegisters := by
  intro s rd rs1 rs2 h1 h2 hmod
  refine ⟨_, exec_mmul_of_loaded h1 h2 hmod, ?_⟩
  rw [getReg_clobberScratch_setReg_same]
  refine ⟨rfl, fun hvalid hB hC => ?_, changesOnlyRegister_setReg s rd _⟩
  obtain ⟨hN, hv⟩ := numbers_of_modulusValid hvalid
  exact (montMultiply_canonical hv hN hB hC).1

/-- Settles O21: the base is in Montgomery form, which the exponentiation keeps. -/
theorem mexpExponentiatesInDomain : Obligations.MexpExponentiatesInDomain := by
  intro s rd rs1 rs2 h1 h2 hmod
  refine ⟨_, exec_mexp_of_loaded h1 h2 hmod, ?_⟩
  rw [getReg_clobberScratch_setReg_same]
  refine ⟨rfl, fun hvalid hN hlt x hx => ?_, changesOnlyRegister_setReg s rd _⟩
  obtain ⟨-, hv⟩ := numbers_of_modulusValid hvalid
  have hbase : MontgomeryForm s.n (getReg s rs1) x := ⟨hlt, hx⟩
  exact hbase.pow hv hN (getReg s rs2)

/-- Settles O22: a valid modulus is all that `fromMontgomery_lt_modEq` asks. -/
theorem frommontIsCanonical : Obligations.FrommontIsCanonical := by
  intro s rd rs1 h1 hmod
  refine ⟨_, exec_frommont_of_loaded h1 hmod, ?_⟩
  rw [getReg_clobberScratch_setReg_same]
  refine ⟨rfl, fun hvalid => ?_, changesOnlyRegister_setReg s rd _⟩
  obtain ⟨hN, hv⟩ := numbers_of_modulusValid hvalid
  exact fromMontgomery_lt_modEq hv hN _

/-- Settles O23: the coefficient of a valid pair is the derived one, and the last function of `mod_exp` is domain exit,
canonical for every value. -/
theorem modexpIsModExpAndCanonical : Obligations.ModexpIsModExpAndCanonical := by
  intro s rd rs1 rs2 h1 h2 hmod
  refine ⟨_, exec_modexp_of_loaded h1 h2 hmod, ?_⟩
  rw [getReg_clobberScratch_setReg_same]
  refine ⟨fun hvalid => ⟨?_, ?_⟩, changesOnlyRegister_setReg s rd _⟩
  · rw [modExp, ← eq_deriveCoefficient_of_modulusValid hvalid]
  · obtain ⟨hN, hv⟩ := numbers_of_modulusValid hvalid
    rw [modExpWith]
    exact (fromMontgomery_lt_modEq hv hN _).1

/-- Settles O24: the value of `MODEXP` is the power, by `modExpWith_val`. -/
theorem modexpIsThePower : Obligations.ModexpIsThePower := by
  intro s rd rs1 rs2 h1 h2 hmod hvalid hN hB
  refine ⟨_, exec_modexp_of_loaded h1 h2 hmod, ?_⟩
  rw [getReg_clobberScratch_setReg_same]
  obtain ⟨-, hv⟩ := numbers_of_modulusValid hvalid
  exact modExpWith_val hv hN hB _

end Sys2Proof.Machine

/-! SUPPORT. The Lynx cuber (42_cuber.md): its values on the correctness domain, a case outside it, its two commands. -/

namespace Sys2Proof.Machine

variable {m : Nat}

/-! ### On the correctness domain (42_cuber.md R155) -/

section Domain

variable {X N : BigInt m} (hX : X.toNat < N.toNat) (hN : 3 * N.toNat ≤ 256 ^ m)
include hX hN

/-- Each product of `cube` has a canonical multiplicand: the operand, then its square (42_cuber.md R153). -/
theorem cube_val : (cube X N).toNat = X.toNat ^ 3 % N.toNat := by
  have hsquare : (modmul X X N).toNat = X.toNat * X.toNat % N.toNat := modmul_mod X X N hX hN
  have hcanonical : (modmul X X N).toNat < N.toNat := hsquare ▸ Nat.mod_lt _ (by omega)
  rw [cube, modmul_mod _ _ _ hcanonical hN, hsquare, Nat.mod_mul_mod]
  congr 1
  ring

/-- No carry leaves the doubling of a canonical value (40_bigint_primitives.md R103). -/
theorem double_no_carry : (double X).2 = false ∧ (double X).1.toNat = 2 * X.toNat := by
  have hfits : 2 * X.toNat < 256 ^ m := by omega
  exact ⟨decide_eq_false (by omega), (double_val X).trans (Nat.mod_eq_of_lt hfits)⟩

/-- No carry leaves the addition of the multiplicand to a doubled canonical accumulator (42_cuber.md R150, R151). -/
theorem addM_double_no_carry {acc : BigInt m} (hacc : acc.toNat < N.toNat) :
    (addM (double acc).1 X).2 = false ∧ (addM (double acc).1 X).1.toNat = 2 * acc.toNat + X.toNat := by
  obtain ⟨-, hdouble⟩ := double_no_carry hacc hN
  have hfits : 2 * acc.toNat + X.toNat < 256 ^ m := by omega
  rw [addM_val, addM, hdouble]
  exact ⟨decide_eq_false (by omega), Nat.mod_eq_of_lt hfits⟩

/-- The accumulator is canonical before every bit. -/
theorem modmulAcc_lt (Y : BigInt m) {t : Nat} (ht : t ≤ 8 * m) : (modmulAcc X Y N t).toNat < N.toNat := by
  rw [modmulAcc_mod X Y N ⟨hN, hX⟩ t ht]
  exact Nat.mod_lt _ (by omega)

/-- The cuber and the generic engine with exponent 3 both give the cube (41_montgomery.md R132). -/
theorem cube_eq_modExp (hodd : N.toNat % 2 = 1) (hN4 : 4 * N.toNat < 256 ^ m) :
    cube X N = modExp X (BitVec.ofNat (8 * m) 3) N := by
  have hcoefficient := deriveCoefficient_mul N ((getLsbD_lastByte_iff N).2 hodd)
  have hthree : (BitVec.ofNat (8 * m) 3).toNat = 3 := by rw [ofNat_val, Nat.mod_eq_of_lt (by omega)]
  apply BitVec.eq_of_toNat_eq
  rw [cube_val hX hN, modExp, modExpWith_val hcoefficient hN4 hX, hthree]

end Domain

/-- A bound on the first byte bounds the value, through the weight `256^(m-1)` of that byte (00_scope.md R7). -/
theorem toNat_lt_of_byteAt_zero_lt {X : BigInt m} (hm : 0 < m) {b : Byte} (h : byteAt X 0 < b) :
    X.toNat < b.toNat * 256 ^ (m - 1) := by
  have hX : X.toNat < 256 ^ (m - 1) * 256 := by
    rw [← pow_succ, Nat.sub_add_cancel hm]
    exact toNat_lt X
  have htop : (byteAt X 0).toNat < b.toNat := h
  rwa [byteAt_val, Nat.sub_zero, Nat.mod_eq_of_lt (Nat.div_lt_of_lt_mul hX),
    Nat.div_lt_iff_lt_mul (by positivity)] at htop

/-- Two clear top bits put a modulus in both correctness domains (42_cuber.md R155, 41_montgomery.md R132). -/
theorem four_mul_lt_of_byteAt_zero_lt {X : BigInt m} (hm : 0 < m) (h : byteAt X 0 < 0x40#8) :
    4 * X.toNat < 256 ^ m := by
  have hlt : X.toNat < 64 * 256 ^ (m - 1) := toNat_lt_of_byteAt_zero_lt hm h
  calc 4 * X.toNat < 256 ^ (m - 1) * 256 := by omega
    _ = 256 ^ m := by rw [← pow_succ, Nat.sub_add_cancel hm]

/-! ### Outside the domain -/

/-- With `m` = 1 the last bit of the multiplier 3 makes `2·126 + 126` = 378, of which `add_m` keeps 122: already below
the modulus 127, so no reduction follows. The product 378 is 124 modulo 127. -/
theorem modmul_outside_domain :
    (modmul (BitVec.ofNat (8 * 1) 126) (BitVec.ofNat (8 * 1) 3) (BitVec.ofNat (8 * 1) 127)).toNat = 122 := by
  decide +kernel

/-! ### What the cuber guarantees (42_cuber.md R155) -/

/-- Settles O58: bit by bit the accumulator stays below `N`, so nothing wraps; outside the domain one addition that wraps
is enough. -/
theorem cuberCorrectnessDomain : Obligations.CuberCorrectnessDomain := by
  refine ⟨fun m X Y N hdomain => ?_, fun m N hm htop => ?_, ?_⟩
  · obtain ⟨hN, hX⟩ := hdomain
    refine ⟨fun t ht => ?_, modmul_mod X Y N hX hN, cube_val hX hN, cube_eq_modExp hX hN⟩
    have hacc : (modmulAcc X Y N t).toNat < N.toNat := modmulAcc_lt hX hN Y ht.le
    obtain ⟨hcarry, hdouble⟩ := double_no_carry hacc hN
    obtain ⟨hcarry', hsum⟩ := addM_double_no_carry hX hN hacc
    refine ⟨hacc, hcarry, hdouble, hcarry', hsum, by omega, ?_⟩
    rw [modmulAcc_succ, modmulStep_mod _ _ _ _ hX hacc hN]
  · have hN := four_mul_lt_of_byteAt_zero_lt hm htop
    exact ⟨by omega, hN⟩
  · refine ⟨1, BitVec.ofNat (8 * 1) 126, BitVec.ofNat (8 * 1) 3, BitVec.ofNat (8 * 1) 127, ?_⟩
    rw [modmul_outside_domain]
    decide

/-- Settles O27: `4N < R` is within the domain of the cuber. -/
theorem cuberEqualsModExpWithThree : Obligations.CuberEqualsModExpWithThree :=
  fun _ _ hodd hN hE => cube_eq_modExp hE (by omega) hodd hN

/-! ### The commands (42_cuber.md R152, R154) -/

section Loaded

variable {s : State} {rd rs1 rs2 : Reg} (h1 : rd ≠ rs1) (h2 : rd ≠ rs2) (hmod : s.modv = true)
include h1 hmod

theorem exec_cube_of_loaded :
    exec (.cube rd rs1) s = .next (clobberScratch (setReg s rd (cube (getReg s rs1) s.n))) :=
  unaryModular_of_loaded h1 hmod (.cube rd rs1) fun E N _ => cube E N

include h2

theorem exec_modmul_of_loaded :
    exec (.modmul rd rs1 rs2) s =
      .next (clobberScratch (setReg s rd (modmul (getReg s rs1) (getReg s rs2) s.n))) :=
  binaryModular_of_loaded h1 h2 hmod (.modmul rd rs1 rs2) fun X Y N _ => modmul X Y N

end Loaded

/-- Settles O25: the value of `MODMUL` is the product, by `modmul_mod`. -/
theorem modmulIsTheProduct : Obligations.ModmulIsTheProduct := by
  intro s rd rs1 rs2 h1 h2 hmod
  refine ⟨_, exec_modmul_of_loaded h1 h2 hmod, ?_⟩
  rw [getReg_clobberScratch_setReg_same]
  exact ⟨rfl, fun hN hX => modmul_mod _ _ _ hX hN, changesOnlyRegister_setReg s rd _⟩

/-- Settles O26: the value of `CUBE` is the cube, by `cube_val`. -/
theorem cubeIsTheCube : Obligations.CubeIsTheCube := by
  intro s rd rs1 h1 hmod
  refine ⟨_, exec_cube_of_loaded h1 hmod, ?_⟩
  rw [getReg_clobberScratch_setReg_same]
  exact ⟨by rw [cube], fun hN hE => cube_val hE hN, changesOnlyRegister_setReg s rd _⟩

end Sys2Proof.Machine

/-! SUPPORT. What a decode pass computes, in terms of the ciphertext stream alone (43_chunk_decoder.md R171 to R178). -/

namespace Sys2Proof.Machine

/-! ### The chunk and its payload (43_chunk_decoder.md R171, R174) -/

/-- The last `k` bytes of a BigInt write its value modulo `256 ^ k` (00_scope.md R7). -/
theorem toNat_mod_eq_sum_byteAt {m : Nat} (X : BigInt m) {k : Nat} (hk : k ≤ m) :
    X.toNat % 256 ^ k = ∑ j ∈ Finset.range k, (byteAt X (m - 1 - j)).toNat * 256 ^ j := by
  induction k with
  | zero => simp [Nat.mod_one]
  | succ k ih =>
    have hpos : m - 1 - (m - 1 - k) = k := by omega
    rw [Finset.sum_range_succ, ← ih (by omega), Nat.mod_pow_succ, byteAt_val, hpos, Nat.mul_comm (256 ^ k)]

/-- The byte-reversed chunk is the little-endian number of its stream bytes. -/
theorem chunkAt_eq_streamChunk (ct : Memory) (a : Nat) : chunkAt ct a = streamChunk ct a := by
  have hval : (chunkAt ct a).toNat = ∑ k ∈ Finset.range 51, (memRead ct (a + k)).toNat * 256 ^ k := by
    rw [← Nat.mod_eq_of_lt (toNat_lt (chunkAt ct a)), toNat_mod_eq_sum_byteAt _ le_rfl]
    refine Finset.sum_congr rfl fun k hk => ?_
    rw [byteAt_chunkAt ct a k (Nat.lt_succ_iff.1 (Finset.mem_range.1 hk))]
  rw [streamChunk, ← hval, BitVec.ofNat_toNat, BitVec.setWidth_eq]

/-- The payload of chunk number `k` of a pass is 50 consecutive payload bytes of the pass. -/
theorem payload_cube_chunkAt (ct : Memory) (n : Big) (a k : Nat) :
    payload (cube (chunkAt ct (a + 51 * k)) n) = (List.range 50).map fun j => payloadByte ct n a (50 * k + j) := by
  refine List.map_congr_left fun j hj => ?_
  have hj : j < 50 := List.mem_range.1 hj
  rw [payloadByte, chunkAt_eq_streamChunk, show (50 * k + j) / 50 = k by omega, show (50 * k + j) % 50 = j by omega]

theorem payloadSum_add (ct : Memory) (n : Big) (a q r : Nat) :
    payloadSum ct n a (q + r) =
      payloadSum ct n a q + ((List.range r).map fun j => payloadByte ct n a (q + j)).sum := by
  rw [payloadSum, payloadSum, List.range_add, List.map_append, List.sum_append, List.map_map]
  rfl

/-! ### Any number of chunks (43_chunk_decoder.md R175, R178) -/

/-- `ACC` after a fold; unlike `foldBytes_spec` it asks nothing of PT. -/
theorem foldBytes_acc (l : List Byte) (s : State) : (l.foldl foldByteState s).acc = s.acc + l.sum := by
  induction l generalizing s with
  | nil => simp
  | cons p l ih => rw [List.foldl_cons, ih, foldByteState_acc, List.sum_cons, BitVec.add_assoc]

theorem chunkState_acc (s : State) : (chunkState s).acc = s.acc + (chunkPayload s).sum := by
  rw [chunkState, advanceCounter_acc, foldBytes_acc, foldInput_acc]

theorem chunkState_estruct (s : State) :
    (chunkState s).estruct = (s.estruct || structViolation (chunkAt s.ct s.cur.toNat) s.n) :=
  (congrArg State.estruct (chunkState_frame s) :)

theorem chunkState_epad (s : State) :
    (chunkState s).epad = (s.epad || padViolation (cube (chunkAt s.ct s.cur.toNat) s.n)) :=
  (congrArg State.epad (chunkState_frame s) :)

theorem structViolation_eq_true_iff (E N : Big) :
    structViolation E N = true ↔ hi24 N < hi24 E ∨ hi24 E = 0 := by
  simp [structViolation]

theorem padViolation_eq_true_iff (P : Big) : padViolation P = true ↔ byteAt P 0 ≠ 0x15#8 := by
  simp [padViolation]

section Chunks

variable (s : State) (k : Nat)

theorem chunks_ct : (chunkState^[k] s).ct = s.ct := (congrArg State.ct (chunks_frame k s) :)

theorem chunks_n : (chunkState^[k] s).n = s.n := (congrArg State.n (chunks_frame k s) :)

theorem chunks_esum : (chunkState^[k] s).esum = s.esum := (congrArg State.esum (chunks_frame k s) :)

theorem chunks_cnt : (chunkState^[k] s).cnt = s.cnt + BitVec.ofNat 8 k := by
  induction k with
  | zero => simp
  | succ k ih => rw [Function.iterate_succ_apply', chunkState_cnt, ih, BitVec.ofNat_add, BitVec.add_assoc]

/-- `OUT` after chunks whose output stays below its 16 bits. -/
theorem chunks_out_val (hout : s.out.toNat + 50 * k ≤ 65535) :
    (chunkState^[k] s).out.toNat = s.out.toNat + 50 * k := by
  induction k with
  | zero => rfl
  | succ k ih =>
    have ih := ih (by omega)
    rw [Function.iterate_succ_apply', chunkState_out_val _ (by omega), ih]
    omega

variable (hct : s.cur.toNat + 51 * k ≤ 410)
include hct

/-- `CUR` after chunks that lie inside CT. -/
theorem chunks_cur_val : (chunkState^[k] s).cur.toNat = s.cur.toNat + 51 * k := by
  induction k with
  | zero => rfl
  | succ k ih =>
    have ih := ih (by omega)
    rw [Function.iterate_succ_apply', chunkState_cur_val _ (by omega), ih]
    omega

/-- The chunk under work after `k` chunks is number `k` of the stream. -/
theorem chunkAt_chunks :
    chunkAt (chunkState^[k] s).ct (chunkState^[k] s).cur.toNat = chunkAt s.ct (s.cur.toNat + 51 * k) := by
  rw [chunks_ct, chunks_cur_val s k hct]

theorem chunkPayload_chunks :
    chunkPayload (chunkState^[k] s) =
      (List.range 50).map fun j => payloadByte s.ct s.n s.cur.toNat (50 * k + j) := by
  rw [chunkPayload, chunkAt_chunks s k hct, chunks_n, payload_cube_chunkAt]

/-- `ACC` sums the payload (43_chunk_decoder.md R174). -/
theorem chunks_acc : (chunkState^[k] s).acc = s.acc + payloadSum s.ct s.n s.cur.toNat (50 * k) := by
  induction k with
  | zero => simp [payloadSum]
  | succ k ih =>
    rw [Function.iterate_succ_apply', chunkState_acc, ih (by omega), chunkPayload_chunks s k (by omega), Nat.mul_succ,
      payloadSum_add, BitVec.add_assoc]

/-- `ESTRUCT` records every chunk (43_chunk_decoder.md R172). -/
theorem chunks_estruct_iff :
    (chunkState^[k] s).estruct = true ↔ s.estruct = true ∨ someStructViolation s.ct s.n s.cur.toNat k := by
  induction k with
  | zero => simp [someStructViolation]
  | succ k ih =>
    rw [Function.iterate_succ_apply', chunkState_estruct, Bool.or_eq_true, ih (by omega), chunkAt_chunks s k (by omega),
      chunks_n, chunkAt_eq_streamChunk, structViolation_eq_true_iff, or_assoc, someStructViolation,
      someStructViolation, Nat.exists_lt_succ_right]

/-- `EPAD` records every cube (43_chunk_decoder.md R173). -/
theorem chunks_epad_iff :
    (chunkState^[k] s).epad = true ↔ s.epad = true ∨ somePadViolation s.ct s.n s.cur.toNat k := by
  induction k with
  | zero => simp [somePadViolation]
  | succ k ih =>
    rw [Function.iterate_succ_apply', chunkState_epad, Bool.or_eq_true, ih (by omega), chunkAt_chunks s k (by omega),
      chunks_n, chunkAt_eq_streamChunk, padViolation_eq_true_iff, or_assoc, somePadViolation, somePadViolation,
      Nat.exists_lt_succ_right]

/-- PT holds the running sums from `OUT` on (43_chunk_decoder.md R174). -/
theorem chunks_pt (hwf : Memory.wf s.pt = true) (hout : s.out.toNat + 50 * k ≤ 65535) :
    Memory.wf (chunkState^[k] s).pt = true ∧
    ∀ b, memRead (chunkState^[k] s).pt b =
      if s.out.toNat ≤ b ∧ b < s.out.toNat + 50 * k then
        s.acc + payloadSum s.ct s.n s.cur.toNat (b - s.out.toNat + 1)
      else memRead s.pt b := by
  induction k with
  | zero => exact ⟨hwf, fun b => by rw [if_neg (by omega)]; rfl⟩
  | succ k ih =>
    obtain ⟨ihwf, ihread⟩ := ih (by omega) (by omega)
    have hcur : s.cur.toNat + 51 * k ≤ 410 := by omega
    have houtk := chunks_out_val s k (by omega)
    obtain ⟨-, -, hwf', hread⟩ := chunkState_spec (chunkState^[k] s) ihwf (by omega)
    rw [Function.iterate_succ_apply']
    refine ⟨hwf', fun b => ?_⟩
    rw [hread, houtk, ihread]
    by_cases hnew : s.out.toNat + 50 * k ≤ b ∧ b < s.out.toNat + 50 * k + 50
    · have hindex : 50 * k + (b - (s.out.toNat + 50 * k) + 1) = b - s.out.toNat + 1 := by omega
      rw [if_pos hnew, if_pos (by omega), chunks_acc s k hcur, chunkPayload_chunks s k hcur, ← List.map_take,
        List.take_range, Nat.min_eq_left (by omega), BitVec.add_assoc, ← payloadSum_add, hindex]
    · rw [if_neg hnew]
      exact if_congr (by omega) rfl rfl

end Chunks

/-! ### A pass (43_chunk_decoder.md R178) -/

section Pass

variable {off : Word} {s : State}

/-- The bounds check in the terms of the statements (43_chunk_decoder.md R177). -/
theorem passBoundsOk_iff_sectionChunks :
    passBoundsOk off s = true ↔
      s.cur.toNat < 410 ∧ s.cur.toNat + 1 + 51 * sectionChunks s s.cur.toNat ≤ 410 ∧
        off.toNat + 50 * sectionChunks s s.cur.toNat ≤ s.ptLen :=
  passBoundsOk_iff off s

theorem decodePass_of_outside (i : Instr) (body : State → Result) (h : passBoundsOk off s = false) :
    decodePass i off s body = .next (raiseFault .bounds (encode i) s) := by
  rw [decodePass, h]
  exact raise_eq .bounds i s

theorem passState_eq_checkSum (off : Word) (s : State) :
    passState off s =
      checkSum (chunkState^[sectionChunks s s.cur.toNat] (startPass off (memRead s.ct s.cur.toNat) s)) := rfl

@[simp] theorem passState_cause (off : Word) (s : State) : (passState off s).cause = s.cause :=
  (congrArg State.cause (passState_frame off s) :)

@[simp] theorem passState_fcmd (off : Word) (s : State) : (passState off s).fcmd = s.fcmd :=
  (congrArg State.fcmd (passState_frame off s) :)

@[simp] theorem passState_dst (off : Word) (s : State) : (passState off s).dst = s.dst :=
  (congrArg State.dst (passState_frame off s) :)

@[simp] theorem passState_pass (off : Word) (s : State) : (passState off s).pass = s.pass :=
  (congrArg State.pass (passState_frame off s) :)

@[simp] theorem passState_port (off : Word) (s : State) : (passState off s).port = s.port :=
  (congrArg State.port (passState_frame off s) :)

@[simp] theorem passState_hostLog (off : Word) (s : State) : (passState off s).hostLog = s.hostLog :=
  (congrArg State.hostLog (passState_frame off s) :)

/-- The counter reaches 0 with the last chunk of the section (43_chunk_decoder.md R175). -/
@[simp] theorem passState_cnt (off : Word) (s : State) : (passState off s).cnt = 0#8 := by
  have hcount : (passState off s).cnt = memRead s.ct s.cur.toNat + BitVec.ofNat 8 (sectionChunks s s.cur.toNat) :=
    chunks_cnt _ _
  have hlt := (memRead s.ct s.cur.toNat).isLt
  rw [hcount, sectionChunks]
  refine BitVec.eq_of_toNat_eq ?_
  simp only [BitVec.toNat_add, BitVec.toNat_ofNat]
  omega

variable (hb : passBoundsOk off s = true)
include hb

/-- The first chunk of a section is one past its counter byte. -/
theorem startPass_cur_val (c0 : Byte) : (startPass off c0 s).cur.toNat = s.cur.toNat + 1 := by
  obtain ⟨hcur, -, -⟩ := passBoundsOk_iff_sectionChunks.1 hb
  rw [startPass_cur]
  bv_omega

theorem startPass_chunks_inside (c0 : Byte) :
    (startPass off c0 s).cur.toNat + 51 * sectionChunks s s.cur.toNat ≤ 410 := by
  obtain ⟨-, hct, -⟩ := passBoundsOk_iff_sectionChunks.1 hb
  rwa [startPass_cur_val hb]

theorem passState_cur_val : (passState off s).cur.toNat = s.cur.toNat + 1 + 51 * sectionChunks s s.cur.toNat :=
  (chunks_cur_val _ _ (startPass_chunks_inside hb _)).trans (by rw [startPass_cur_val hb])

theorem passState_acc :
    (passState off s).acc = payloadSum s.ct s.n (s.cur.toNat + 1) (50 * sectionChunks s s.cur.toNat) := by
  have h := chunks_acc _ _ (startPass_chunks_inside hb (memRead s.ct s.cur.toNat))
  rw [startPass_cur_val hb, startPass_acc, BitVec.zero_add] at h
  exact h

/-- `ESTRUCT` after a pass (43_chunk_decoder.md R172). -/
theorem passState_estruct_iff :
    (passState off s).estruct = true ↔
      s.estruct = true ∨ someStructViolation s.ct s.n (s.cur.toNat + 1) (sectionChunks s s.cur.toNat) := by
  have h := chunks_estruct_iff _ _ (startPass_chunks_inside hb (memRead s.ct s.cur.toNat))
  rw [startPass_cur_val hb] at h
  exact h

/-- `EPAD` after a pass (43_chunk_decoder.md R173). -/
theorem passState_epad_iff :
    (passState off s).epad = true ↔
      s.epad = true ∨ somePadViolation s.ct s.n (s.cur.toNat + 1) (sectionChunks s s.cur.toNat) := by
  have h := chunks_epad_iff _ _ (startPass_chunks_inside hb (memRead s.ct s.cur.toNat))
  rw [startPass_cur_val hb] at h
  exact h

/-- `ESUM` after a pass (43_chunk_decoder.md R176). -/
theorem passState_esum_iff :
    (passState off s).esum = true ↔
      s.esum = true ∨ payloadSum s.ct s.n (s.cur.toNat + 1) (50 * sectionChunks s s.cur.toNat) ≠ 0#8 := by
  have hrecord : (passState off s).esum = (s.esum || (passState off s).acc != 0#8) :=
    congrArg (· || (passState off s).acc != 0#8) (chunks_esum (startPass off _ s) _)
  rw [hrecord, passState_acc hb, Bool.or_eq_true, bne_iff_ne]

variable (hlen : s.ptLen ≤ 65535)
include hlen

theorem passState_out_val : (passState off s).out.toNat = off.toNat + 50 * sectionChunks s s.cur.toNat := by
  obtain ⟨-, -, hpt⟩ := passBoundsOk_iff_sectionChunks.1 hb
  exact chunks_out_val (startPass off (memRead s.ct s.cur.toNat) s) _ (hpt.trans hlen)

/-- PT after a pass (43_chunk_decoder.md R174). -/
theorem passState_pt (hwf : Memory.wf s.pt = true) :
    Memory.wf (passState off s).pt = true ∧
    ∀ a, memRead (passState off s).pt a =
      if off.toNat ≤ a ∧ a < off.toNat + 50 * sectionChunks s s.cur.toNat then
        payloadSum s.ct s.n (s.cur.toNat + 1) (a - off.toNat + 1)
      else memRead s.pt a := by
  obtain ⟨-, -, hpt⟩ := passBoundsOk_iff_sectionChunks.1 hb
  have h := chunks_pt _ _ (startPass_chunks_inside hb (memRead s.ct s.cur.toNat)) hwf (hpt.trans hlen)
  simp only [startPass_cur_val hb, startPass_acc, BitVec.zero_add] at h
  exact h

end Pass

end Sys2Proof.Machine

/-! SUPPORT. The commands of the chunk decoder: `SETCUR`, `DPASS`, `DECRYPT` (43_chunk_decoder.md R179 to R181). -/

namespace Sys2Proof.Machine

variable {s : State}

/-! ### `DPASS` (43_chunk_decoder.md R180) -/

theorem exec_dpass_of_loaded (imm : Word) (hmod : s.modv = true) :
    exec (.dpass imm) s = decodePass (.dpass imm) imm s .next := by
  rw [exec, execDpass, modulusChecked_of_loaded _ _ _ hmod]

theorem exec_dpass_of_inside {imm : Word} (hmod : s.modv = true) (hlen : s.ptLen ≤ 65535)
    (hb : passBoundsOk imm s = true) : exec (.dpass imm) s = .next (clobberScratch (passState imm s)) := by
  rw [exec_dpass_of_loaded imm hmod, decodePass_eq _ _ _ _ hlen, if_pos hb]

/-- Settles O31: the pass is `passState`. -/
theorem dpassDecodesOneSection : Obligations.DpassDecodesOneSection := by
  intro s imm hmod hlen hwf hcur hct hpt
  have hb : passBoundsOk imm s = true := passBoundsOk_iff_sectionChunks.2 ⟨hcur, hct, hpt⟩
  obtain ⟨-, hread⟩ := passState_pt hb hlen hwf
  exact ⟨_, exec_dpass_of_inside hmod hlen hb, passState_cur_val hb, passState_out_val hb hlen, passState_cnt imm s,
    passState_acc hb, hread, by simp [KeepsRegs, KeepsModulus, KeepsRecord, KeepsCt, KeepsRest]⟩

/-- Settles O32: the flags are those of `passState`. -/
theorem dpassRecordsDecodeErrors : Obligations.DpassRecordsDecodeErrors := by
  intro s imm hmod hlen hcur hct hpt
  have hb : passBoundsOk imm s = true := passBoundsOk_iff_sectionChunks.2 ⟨hcur, hct, hpt⟩
  exact ⟨_, exec_dpass_of_inside hmod hlen hb, passState_estruct_iff hb, passState_epad_iff hb,
    passState_esum_iff hb⟩

/-- Settles O33: each of the three ways fails the bounds check, which comes before any effect. -/
theorem dpassOutOfBoundsFaults : Obligations.DpassOutOfBoundsFaults := by
  intro s imm hmod hout
  have hb : passBoundsOk imm s = false := by
    rw [← Bool.not_eq_true, passBoundsOk_iff_sectionChunks]
    omega
  rw [exec_dpass_of_loaded imm hmod, decodePass_of_outside _ _ hb, ← raise_eq, raise_eq_withRecord]

/-! ### `SETCUR` (43_chunk_decoder.md R179) -/

theorem exec_setcur (imm : Word) (s : State) : exec (.setcur imm) s = .next (clobberScratch (setCur s imm)) := rfl

/-- Settles O30: the command is a write of `CUR`, and a cursor outside CT is one of the ways of O33. -/
theorem setcurSetsTheCursor : Obligations.SetcurSetsTheCursor := by
  intro s imm himm
  have hword : encode (.setcur imm) = BitVec.ofNat 16 (0xC000 + imm.toNat) := by
    rw [encode, immWord, Nat.mod_eq_of_lt himm]
  refine ⟨hword, _, exec_setcur imm s, rfl, fun hout hmod off => ?_, ?_⟩
  · exact dpassOutOfBoundsFaults (clobberScratch (setCur s imm)) off hmod (.inl hout)
  · simp [KeepsRegs, KeepsModulus, KeepsErrors, KeepsRecord, KeepsCt, KeepsPt, KeepsRest]

/-! ### `DECRYPT` (43_chunk_decoder.md R181) -/

/-- The state in which the second pass of `DECRYPT` starts. -/
def betweenPasses (s : State) : State := setPass (clobberScratch (passState Config.off1 (startDecrypt s))) 1

@[simp] theorem betweenPasses_n (s : State) : (betweenPasses s).n = s.n := by simp [betweenPasses]
@[simp] theorem betweenPasses_v (s : State) : (betweenPasses s).v = s.v := by simp [betweenPasses]
@[simp] theorem betweenPasses_modv (s : State) : (betweenPasses s).modv = s.modv := by simp [betweenPasses]
@[simp] theorem betweenPasses_rf (s : State) : (betweenPasses s).rf = s.rf := by simp [betweenPasses]
@[simp] theorem betweenPasses_fault (s : State) : (betweenPasses s).fault = s.fault := by simp [betweenPasses]
@[simp] theorem betweenPasses_cause (s : State) : (betweenPasses s).cause = s.cause := by simp [betweenPasses]
@[simp] theorem betweenPasses_fcmd (s : State) : (betweenPasses s).fcmd = s.fcmd := by simp [betweenPasses]
@[simp] theorem betweenPasses_dst (s : State) : (betweenPasses s).dst = s.dst := by simp [betweenPasses]
@[simp] theorem betweenPasses_ct (s : State) : (betweenPasses s).ct = s.ct := by simp [betweenPasses]
@[simp] theorem betweenPasses_ptLen (s : State) : (betweenPasses s).ptLen = s.ptLen := by simp [betweenPasses]
@[simp] theorem betweenPasses_port (s : State) : (betweenPasses s).port = s.port := by simp [betweenPasses]
@[simp] theorem betweenPasses_hostLog (s : State) : (betweenPasses s).hostLog = s.hostLog := by simp [betweenPasses]
@[simp] theorem getReg_betweenPasses (s : State) (r : Reg) : getReg (betweenPasses s) r = getReg s r := by
  simp [betweenPasses]

theorem exec_decrypt_of_loaded (hmod : s.modv = true) :
    exec .decrypt s =
      decodePass .decrypt Config.off1 (startDecrypt s) fun s1 =>
        decodePass .decrypt Config.off2 (setPass s1 1) .next := by
  rw [exec, execDecrypt, modulusChecked_of_loaded _ _ _ hmod]

/-- The first section starts at CT address 0 and its output at PT offset 0. -/
theorem firstPass_inside_iff :
    passBoundsOk Config.off1 (startDecrypt s) = true ↔
      1 + 51 * sectionChunks s 0 ≤ 410 ∧ 50 * sectionChunks s 0 ≤ s.ptLen := by
  have hchunks : sectionChunks (startDecrypt s) (startDecrypt s).cur.toNat = sectionChunks s 0 := rfl
  rw [passBoundsOk_iff_sectionChunks, hchunks, startDecrypt_cur, startDecrypt_ptLen]
  simp

theorem exec_decrypt_of_firstOutside (hmod : s.modv = true) (hb : passBoundsOk Config.off1 (startDecrypt s) = false) :
    exec .decrypt s = .next (raiseFault .bounds (encode .decrypt) (startDecrypt s)) := by
  rw [exec_decrypt_of_loaded hmod, decodePass_of_outside _ _ hb]

/-- Settles O35: the first bounds check comes after `startDecrypt` and before any other effect. -/
theorem decryptFirstPassOutOfBounds : Obligations.DecryptFirstPassOutOfBounds := by
  intro s hmod hout
  have hb : passBoundsOk Config.off1 (startDecrypt s) = false := by
    rw [← Bool.not_eq_true, firstPass_inside_iff]
    omega
  refine ⟨_, exec_decrypt_of_firstOutside hmod hb, rfl, rfl, encode_decrypt, ?_⟩
  simp [KeepsRegs, KeepsModulus, KeepsCt, KeepsPt, KeepsRest]

section FirstPassInside

variable (hb : passBoundsOk Config.off1 (startDecrypt s) = true)
include hb

/-- The second section starts where the first ends. -/
theorem betweenPasses_cur_val : (betweenPasses s).cur.toNat = 1 + 51 * sectionChunks s 0 :=
  (passState_cur_val hb).trans (congrArg (· + _) (Nat.zero_add 1))

theorem betweenPasses_acc : (betweenPasses s).acc = payloadSum s.ct s.n 1 (50 * sectionChunks s 0) := passState_acc hb

theorem betweenPasses_estruct_iff :
    (betweenPasses s).estruct = true ↔ someStructViolation s.ct s.n 1 (sectionChunks s 0) :=
  (passState_estruct_iff hb).trans (or_iff_right Bool.false_ne_true)

theorem betweenPasses_epad_iff :
    (betweenPasses s).epad = true ↔ somePadViolation s.ct s.n 1 (sectionChunks s 0) :=
  (passState_epad_iff hb).trans (or_iff_right Bool.false_ne_true)

theorem betweenPasses_esum_iff :
    (betweenPasses s).esum = true ↔ payloadSum s.ct s.n 1 (50 * sectionChunks s 0) ≠ 0#8 :=
  (passState_esum_iff hb).trans (or_iff_right Bool.false_ne_true)

theorem sectionChunks_betweenPasses :
    sectionChunks (betweenPasses s) (betweenPasses s).cur.toNat = sectionChunks s (1 + 51 * sectionChunks s 0) := by
  rw [betweenPasses_cur_val hb, sectionChunks, betweenPasses_ct, ← sectionChunks]

theorem secondPass_inside_iff :
    passBoundsOk Config.off2 (betweenPasses s) = true ↔
      2 + 51 * (sectionChunks s 0 + sectionChunks s (1 + 51 * sectionChunks s 0)) ≤ 410 ∧
        256 + 50 * sectionChunks s (1 + 51 * sectionChunks s 0) ≤ s.ptLen := by
  have hoff : Config.off2.toNat = 256 := rfl
  rw [passBoundsOk_iff_sectionChunks, sectionChunks_betweenPasses hb, betweenPasses_cur_val hb, betweenPasses_ptLen,
    hoff]
  omega

variable (hlen : s.ptLen ≤ 65535)
include hlen

theorem betweenPasses_out_val : (betweenPasses s).out.toNat = 50 * sectionChunks s 0 :=
  (passState_out_val hb hlen).trans (Nat.zero_add _)

theorem betweenPasses_pt (hwf : Memory.wf s.pt = true) :
    Memory.wf (betweenPasses s).pt = true ∧
    ∀ a, memRead (betweenPasses s).pt a =
      if a < 50 * sectionChunks s 0 then payloadSum s.ct s.n 1 (a + 1) else memRead s.pt a := by
  obtain ⟨hwf', hread⟩ := passState_pt hb hlen hwf
  refine ⟨hwf', fun a => (hread a).trans ?_⟩
  simp only [startDecrypt_cur, startDecrypt_ct, startDecrypt_n, startDecrypt_pt, BitVec.toNat_ofNat, Nat.zero_mod,
    Nat.zero_le, true_and, Nat.zero_add, Nat.sub_zero]
  rfl

variable (hmod : s.modv = true)
include hmod

theorem exec_decrypt_of_firstInside :
    exec .decrypt s = decodePass .decrypt Config.off2 (betweenPasses s) .next := by
  have hlen1 : (startDecrypt s).ptLen ≤ 65535 := hlen
  rw [exec_decrypt_of_loaded hmod, decodePass_eq _ _ _ _ hlen1, if_pos hb, betweenPasses]

theorem exec_decrypt_of_secondOutside (hb2 : passBoundsOk Config.off2 (betweenPasses s) = false) :
    exec .decrypt s = .next (raiseFault .bounds (encode .decrypt) (betweenPasses s)) := by
  rw [exec_decrypt_of_firstInside hb hlen hmod, decodePass_of_outside _ _ hb2]

theorem exec_decrypt_of_inside (hb2 : passBoundsOk Config.off2 (betweenPasses s) = true) :
    exec .decrypt s = .next (clobberScratch (passState Config.off2 (betweenPasses s))) := by
  have hlen2 : (betweenPasses s).ptLen ≤ 65535 := by rwa [betweenPasses_ptLen]
  rw [exec_decrypt_of_firstInside hb hlen hmod, decodePass_eq _ _ _ _ hlen2, if_pos hb2]

end FirstPassInside

/-- Settles O36: the second bounds check comes with the first pass done. -/
theorem decryptSecondPassOutOfBounds : Obligations.DecryptSecondPassOutOfBounds := by
  rintro s _ hmod hlen hwf rfl hct1 hpt1 hout
  have hb : passBoundsOk Config.off1 (startDecrypt s) = true := firstPass_inside_iff.2 ⟨hct1, hpt1⟩
  have hb2 : passBoundsOk Config.off2 (betweenPasses s) = false := by
    rw [← Bool.not_eq_true, secondPass_inside_iff hb]
    omega
  obtain ⟨-, hread⟩ := betweenPasses_pt hb hlen hwf
  exact ⟨_, exec_decrypt_of_secondOutside hb hlen hmod hb2, rfl, rfl, encode_decrypt, betweenPasses_cur_val hb,
    betweenPasses_out_val hb hlen, passState_cnt _ _, betweenPasses_acc hb, hread, betweenPasses_estruct_iff hb,
    betweenPasses_epad_iff hb, betweenPasses_esum_iff hb,
    by simp [KeepsRegs, KeepsModulus, KeepsCt, KeepsRest]⟩

/-- Settles O34: the second pass starts in the state that the first one leaves, and its output comes last. -/
theorem decryptDecodesBothSections : Obligations.DecryptDecodesBothSections := by
  rintro s _ _ hmod hlen hwf rfl rfl hct hpt1 hpt2
  have hb : passBoundsOk Config.off1 (startDecrypt s) = true := firstPass_inside_iff.2 ⟨by omega, hpt1⟩
  have hb2 : passBoundsOk Config.off2 (betweenPasses s) = true := (secondPass_inside_iff hb).2 ⟨hct, hpt2⟩
  have hlen2 : (betweenPasses s).ptLen ≤ 65535 := by rwa [betweenPasses_ptLen]
  obtain ⟨hwf1, hread1⟩ := betweenPasses_pt hb hlen hwf
  have hstart : (betweenPasses s).cur.toNat + 1 = 2 + 51 * sectionChunks s 0 := by
    rw [betweenPasses_cur_val hb]
    omega
  have hcur := passState_cur_val hb2
  have hout := passState_out_val hb2 hlen2
  have hacc := passState_acc hb2
  obtain ⟨-, hread⟩ := passState_pt hb2 hlen2 hwf1
  have hstruct := passState_estruct_iff hb2
  have hpad := passState_epad_iff hb2
  have hsum := passState_esum_iff hb2
  simp only [hstart, sectionChunks_betweenPasses hb, betweenPasses_ct, betweenPasses_n, hread1,
    betweenPasses_estruct_iff hb, betweenPasses_epad_iff hb, betweenPasses_esum_iff hb]
    at hcur hout hacc hread hstruct hpad hsum
  exact ⟨_, exec_decrypt_of_inside hb hlen hmod hb2, hcur.trans (by omega), hout, passState_cnt _ _, hacc, hread,
    hstruct, hpad, hsum, by simp [KeepsRegs, KeepsModulus, KeepsRecord, KeepsCt, KeepsRest]⟩

end Sys2Proof.Machine

/-! SUPPORT. The state machine of 43_chunk_decoder.md R182 walks its table through the states of a pass, and ends where
the functions of R178 and R181 do (R183). -/

namespace Sys2Proof.Machine

variable {i : Instr} {off : Word} {two : Bool} {s : State} {x : Scratch}

/-! ### The steps of a chunk that access a memory -/

theorem loadChunk_ok (s : State) (hct : s.cur.toNat + 51 ≤ 410) :
    loadChunk s = .ok (chunkAt s.ct s.cur.toNat, setCur s (s.cur + 51#16)) := by
  rw [loadChunk, loadBytes_ok s hct]
  rfl

theorem foldChunk_ok (P : Big) (s : State) (hpt : s.out.toNat + 50 ≤ s.ptLen) (hlen : s.ptLen ≤ 65535) :
    foldChunk P s = .ok ((payload P).foldl foldByteState s) :=
  foldBytes_ok _ s (by rwa [payload_length]) (by rw [payload_length]; exact hpt.trans hlen)

/-- A fold sees neither `DST` nor the scratch buffers. -/
theorem foldBytes_goState_setScratch (l : List Byte) (d : DecoderState) (s : State) (x : Scratch) :
    l.foldl foldByteState (goState d (setScratch s x)) = goState d (setScratch (l.foldl foldByteState s) x) :=
  List.foldl_hom (fun t => goState d (setScratch t x)) fun _ _ => rfl

/-! ### Rows of the table (43_chunk_decoder.md R182) -/

/-- The machine at work on a state `s` of the functions; `DST` and the scratch buffers are its own. -/
def fsmAt (d : DecoderState) (x : Scratch) (off : Word) (two : Bool) (s : State) : Fsm :=
  { st := goState d (setScratch s x), off := off, two := two }

theorem fsmStartDpass_eq (imm : Word) (s : State) : fsmStartDpass imm s = fsmAt .dHdr s.scratch imm false s := rfl

theorem fsmStartDecrypt_eq (s : State) :
    fsmStartDecrypt s = fsmAt .dHdr s.scratch Config.off1 true (startDecrypt s) := rfl

theorem fsmStep_dHdr_inside (hb : passBoundsOk off s = true) :
    fsmStep i (fsmAt .dHdr x off two s) =
      .running (fsmAt .dLoad x off two (startPass off (memRead s.ct s.cur.toNat) s)) := by
  have hbounds : passBoundsOk off (goState .dHdr (setScratch s x)) = true := hb
  have hread : ctRead (goState .dHdr (setScratch s x)) s.cur.toNat = .ok (memRead s.ct s.cur.toNat) :=
    ctRead_ok _ _ ((passBoundsOk_iff off s).1 hb).1
  simp only [fsmStep, fsmAt, goState_dst, goState_cur, hbounds, if_true]
  rw [show (setScratch s x).cur = s.cur from rfl, hread]
  rfl

theorem fsmStep_dHdr_outside (hb : passBoundsOk off s = false) :
    fsmStep i (fsmAt .dHdr x off two s) = .ended (raise .bounds i (goState .dIdle (setScratch s x))) := by
  have hbounds : passBoundsOk off (goState .dHdr (setScratch s x)) = false := hb
  simp only [fsmStep, fsmAt, goState_dst, hbounds, Bool.false_eq_true, if_false]
  rfl

theorem fsmStep_dLoad (hct : s.cur.toNat + 51 ≤ 410) :
    fsmStep i (fsmAt .dLoad x off two s) =
      .running (fsmAt .dCheck { x with s1 := chunkAt s.ct s.cur.toNat } off two (setCur s (s.cur + 51#16))) := by
  have hload := loadChunk_ok (goState .dLoad (setScratch s x)) hct
  simp only [fsmStep, fsmAt, goState_dst, hload]
  rfl

theorem fsmStep_dCheck :
    fsmStep i (fsmAt .dCheck x off two s) = .running (fsmAt .dSqr x off two (checkStruct x.s1 s)) := rfl

theorem fsmStep_dSqr :
    fsmStep i (fsmAt .dSqr x off two s) =
      .running (fsmAt .dMul { x with s0 := modmul x.s1 x.s1 s.n } off two s) := rfl

theorem fsmStep_dMul :
    fsmStep i (fsmAt .dMul x off two s) =
      .running (fsmAt .dPad { x with s2 := modmul x.s0 x.s1 s.n } off two s) := rfl

theorem fsmStep_dPad :
    fsmStep i (fsmAt .dPad x off two s) = .running (fsmAt .dFold x off two (checkPad x.s2 s)) := rfl

theorem fsmStep_dFold (hpt : s.out.toNat + 50 ≤ s.ptLen) (hlen : s.ptLen ≤ 65535) :
    fsmStep i (fsmAt .dFold x off two s) =
      .running (fsmAt .dNext x off two ((payload x.s2).foldl foldByteState s)) := by
  have hcube : (goState .dFold (setScratch s x)).scratch.s2 = x.s2 := rfl
  have hfold := foldChunk_ok x.s2 (goState .dFold (setScratch s x)) hpt hlen
  rw [foldBytes_goState_setScratch] at hfold
  generalize (payload x.s2).foldl foldByteState s = t at hfold ⊢
  simp only [fsmStep, fsmAt, goState_dst, hcube, hfold]
  rfl

theorem fsmStep_dNext :
    fsmStep i (fsmAt .dNext x off two s) =
      .running (fsmAt (if (advanceCounter s).cnt = 0#8 then .dSum else .dLoad) x off two (advanceCounter s)) := rfl

theorem fsmStep_dSum_first (hpass : s.pass = 0) :
    fsmStep i (fsmAt .dSum x off true s) =
      .running (fsmAt .dHdr (freeScratch s.free) Config.off2 true (setPass (clobberScratch (checkSum s)) 1)) := by
  have hpass' : (clobberScratch (checkSum (goState .dSum (setScratch s x)))).pass = 0 := hpass
  simp only [fsmStep, fsmAt, goState_dst, hpass', beq_self_eq_true, Bool.and_self, if_true]
  rfl

theorem fsmStep_dSum_last (hlast : (two && s.pass == 0) = false) :
    fsmStep i (fsmAt .dSum x off two s) = .ended (.next (goState .dIdle (clobberScratch (checkSum s)))) := by
  have hlast' : (two && (clobberScratch (checkSum (goState .dSum (setScratch s x)))).pass == 0) = false := hlast
  simp only [fsmStep, fsmAt, goState_dst, hlast', Bool.false_eq_true, if_false]
  rfl

/-! ### Runs of the machine -/

theorem fsmRun_of_running {f f' : Fsm} (h : fsmStep i f = .running f') (k : Nat) :
    fsmRun i (k + 1) f = fsmRun i k f' := by
  rw [fsmRun, h]

theorem fsmRun_of_ended {f : Fsm} {o : Result} (h : fsmStep i f = .ended o) (k : Nat) :
    fsmRun i (k + 1) f = some o := by
  rw [fsmRun, h]

/-- The scratch buffers once the chunk in `S1` is cubed (10_state.md R32). -/
def cubedScratch (x : Scratch) (n : Big) : Scratch := { x with s0 := modmul x.s1 x.s1 n, s2 := cube x.s1 n }

/-- The rows from `D_CHECK` to `D_PAD` cube the chunk and make the two checks (43_chunk_decoder.md R172, R173). -/
theorem fsmRun_cube (k : Nat) :
    fsmRun i (k + 4) (fsmAt .dCheck x off two s) =
      fsmRun i k (fsmAt .dFold (cubedScratch x s.n) off two (checkPad (cube x.s1 s.n) (checkStruct x.s1 s))) := by
  rw [fsmRun_of_running fsmStep_dCheck, fsmRun_of_running fsmStep_dSqr, fsmRun_of_running fsmStep_dMul,
    fsmRun_of_running fsmStep_dPad, cubedScratch, cube]
  rfl

/-- The scratch buffers after the chunk at `CUR`. -/
def chunkScratch (x : Scratch) (s : State) : Scratch := cubedScratch { x with s1 := chunkAt s.ct s.cur.toNat } s.n

/-- The seven rows from `D_LOAD` to `D_NEXT` decode one chunk (43_chunk_decoder.md R178 steps 2a to 2e). -/
theorem fsmRun_chunk (hct : s.cur.toNat + 51 ≤ 410) (hpt : s.out.toNat + 50 ≤ s.ptLen) (hlen : s.ptLen ≤ 65535)
    (k : Nat) :
    fsmRun i (k + 7) (fsmAt .dLoad x off two s) =
      fsmRun i k (fsmAt (if s.cnt + 1#8 = 0#8 then .dSum else .dLoad) (chunkScratch x s) off two (chunkState s)) := by
  have hstate : advanceCounter ((payload (chunkScratch x s).s2).foldl foldByteState (foldInput s)) = chunkState s := rfl
  rw [fsmRun_of_running (fsmStep_dLoad hct), fsmRun_cube]
  change fsmRun i (k + 2) (fsmAt .dFold (chunkScratch x s) off two (foldInput s)) = _
  rw [fsmRun_of_running (fsmStep_dFold (by simpa using hpt) (by simpa using hlen)), fsmRun_of_running fsmStep_dNext,
    hstate, chunkState_cnt]

theorem chunkCount_eq_one_iff (c : Byte) : chunkCount c = 1 ↔ c + 1#8 = 0#8 := by
  unfold chunkCount
  bv_omega

theorem chunkCount_next {c : Byte} {j : Nat} (h : chunkCount c = j + 2) : chunkCount (c + 1#8) = j + 1 := by
  unfold chunkCount at *
  bv_omega

variable (i off two x) in
/-- The rows of all chunks of a section, as many as the counter asks for (43_chunk_decoder.md R175). -/
theorem fsmRun_chunks (j : Nat) (hcount : chunkCount s.cnt = j + 1) (hct : s.cur.toNat + 51 * (j + 1) ≤ 410)
    (hpt : s.out.toNat + 50 * (j + 1) ≤ s.ptLen) (hlen : s.ptLen ≤ 65535) (k : Nat) :
    ∃ x', fsmRun i (k + 7 * (j + 1)) (fsmAt .dLoad x off two s) =
      fsmRun i k (fsmAt .dSum x' off two (chunkState^[j + 1] s)) := by
  induction j generalizing s x with
  | zero =>
    refine ⟨chunkScratch x s, ?_⟩
    rw [fsmRun_chunk hct hpt hlen, if_pos ((chunkCount_eq_one_iff _).1 hcount), Function.iterate_one]
  | succ j ih =>
    have hmore : ¬s.cnt + 1#8 = 0#8 := by
      rw [← chunkCount_eq_one_iff, hcount]
      omega
    have hcur := chunkState_cur_val s (by omega)
    have hout := chunkState_out_val s (by omega)
    obtain ⟨x', hrest⟩ := ih (chunkScratch x s) (s := chunkState s) (by rw [chunkState_cnt, chunkCount_next hcount])
      (by omega) (by rw [chunkState_ptLen]; omega) (by rwa [chunkState_ptLen])
    refine ⟨x', ?_⟩
    rw [Nat.mul_succ, ← Nat.add_assoc, fsmRun_chunk (by omega) (by omega) hlen, if_neg hmore, hrest,
      ← Function.iterate_succ_apply]

/-! ### Passes -/

variable (i off two x) in
/-- The rows of a pass up to `D_SUM` (43_chunk_decoder.md R178). -/
theorem fsmRun_toSum (hb : passBoundsOk off s = true) (hlen : s.ptLen ≤ 65535) (fuel : Nat) (hfuel : 57 ≤ fuel) :
    ∃ k x' s', fuel ≤ k + 57 ∧ checkSum s' = passState off s ∧
      fsmRun i fuel (fsmAt .dHdr x off two s) = fsmRun i k (fsmAt .dSum x' off two s') := by
  obtain ⟨-, hct, hpt⟩ := passBoundsOk_iff_sectionChunks.1 hb
  have hcur := startPass_cur_val hb (memRead s.ct s.cur.toNat)
  obtain ⟨j, hj⟩ : ∃ j, sectionChunks s s.cur.toNat = j + 1 :=
    ⟨_, (Nat.sub_add_cancel (chunkCount_pos (memRead s.ct s.cur.toNat))).symm⟩
  obtain ⟨k, hk⟩ : ∃ k, fuel = k + 7 * (j + 1) + 1 := ⟨fuel - 7 * (j + 1) - 1, by omega⟩
  obtain ⟨x', hrun⟩ := fsmRun_chunks i off two x (s := startPass off (memRead s.ct s.cur.toNat) s) j hj
    (by omega) (by rw [startPass_out, startPass_ptLen]; omega) hlen k
  refine ⟨k, x', chunkState^[j + 1] (startPass off (memRead s.ct s.cur.toNat) s), by omega, ?_, ?_⟩
  · rw [passState_eq_checkSum, hj]
  · rw [hk, fsmRun_of_running (fsmStep_dHdr_inside hb), hrun]

variable (i x) in
/-- A pass with another after it leads to the header row of the second pass (43_chunk_decoder.md R181). -/
theorem fsmRun_firstPass (hb : passBoundsOk off s = true) (hpass : s.pass = 0) (hlen : s.ptLen ≤ 65535) (fuel : Nat)
    (hfuel : 58 ≤ fuel) :
    ∃ k, fuel ≤ k + 58 ∧ fsmRun i fuel (fsmAt .dHdr x off true s) =
      fsmRun i k (fsmAt .dHdr (clobberScratch (passState off s)).scratch Config.off2 true
        (setPass (clobberScratch (passState off s)) 1)) := by
  obtain ⟨k, x', s', hk, hsum, hrun⟩ := fsmRun_toSum i off true x hb hlen fuel (by omega)
  have hpass' : s'.pass = 0 := (congrArg State.pass hsum).trans ((passState_pass off s).trans hpass)
  have hfree : s'.free = (passState off s).free := (congrArg State.free hsum :)
  obtain ⟨k, rfl⟩ : ∃ k', k = k' + 1 := ⟨k - 1, by omega⟩
  refine ⟨k, by omega, ?_⟩
  rw [hrun, fsmRun_of_running (fsmStep_dSum_first hpass'), hsum, hfree, clobberScratch_scratch]

theorem goState_of_dst {d : DecoderState} (h : s.dst = d) : goState d s = s := by
  rw [goState, ← h]

/-- A pass that does not fit ends the command with `BOUNDS` (43_chunk_decoder.md R177). -/
theorem fsmRun_outside (hb : passBoundsOk off s = false) (hdst : s.dst = .dIdle) (fuel : Nat) (hfuel : 1 ≤ fuel) :
    fsmRun i fuel (fsmAt .dHdr s.scratch off two s) = some (raise .bounds i s) := by
  obtain ⟨k, rfl⟩ : ∃ k, fuel = k + 1 := ⟨fuel - 1, by omega⟩
  have hscratch : setScratch s s.scratch = s := rfl
  rw [fsmRun_of_ended (fsmStep_dHdr_outside hb), hscratch, goState_of_dst hdst]

/-- A pass with none after it ends the command where `decode_pass` does (43_chunk_decoder.md R178). -/
theorem fsmRun_lastPass (hdst : s.dst = .dIdle) (hlast : (two && s.pass == 0) = false) (hlen : s.ptLen ≤ 65535)
    (fuel : Nat) (hfuel : 58 ≤ fuel) :
    fsmRun i fuel (fsmAt .dHdr s.scratch off two s) = some (decodePass i off s .next) := by
  cases hb : passBoundsOk off s with
  | false => rw [fsmRun_outside hb hdst _ (by omega), decodePass_of_outside _ _ hb, raise_eq]
  | true =>
    obtain ⟨k, x', s', hk, hsum, hrun⟩ := fsmRun_toSum i off two s.scratch hb hlen fuel (by omega)
    have hpass : s'.pass = s.pass := (congrArg State.pass hsum).trans (passState_pass off s)
    have hidle : (clobberScratch (passState off s)).dst = .dIdle := by simp [hdst]
    obtain ⟨k, rfl⟩ : ∃ k', k = k' + 1 := ⟨k - 1, by omega⟩
    rw [hrun, fsmRun_of_ended (fsmStep_dSum_last (by rwa [hpass])), hsum, goState_of_dst hidle,
      decodePass_eq _ _ _ _ hlen, if_pos hb]

/-! ### The commands (43_chunk_decoder.md R183) -/

/-- Settles O37: the one pass of `DPASS` is a last pass. -/
theorem fsmOfDpassAgrees : Obligations.FsmOfDpassAgrees := by
  intro s imm hmod hdst hlen
  rw [fsmStartDpass_eq, fsmRun_lastPass hdst rfl hlen _ (by decide), exec_dpass_of_loaded imm hmod]

/-- Settles O38: the first pass of `DECRYPT` leads to the second, which is a last pass, or faults as the command
does. -/
theorem fsmOfDecryptAgrees : Obligations.FsmOfDecryptAgrees := by
  intro s hmod hdst hlen
  rw [fsmStartDecrypt_eq]
  cases hb : passBoundsOk Config.off1 (startDecrypt s) with
  | false =>
    rw [exec_decrypt_of_firstOutside hmod hb, ← raise_eq]
    exact fsmRun_outside hb hdst _ (by decide)
  | true =>
    have hidle : (betweenPasses s).dst = .dIdle := by rwa [betweenPasses_dst]
    have hlen2 : (betweenPasses s).ptLen ≤ 65535 := by rwa [betweenPasses_ptLen]
    obtain ⟨k, hk, hrun⟩ := fsmRun_firstPass .decrypt s.scratch hb rfl hlen 4096 (by decide)
    rw [hrun, exec_decrypt_of_firstInside hb hlen hmod]
    exact fsmRun_lastPass (two := true) hidle rfl hlen2 k (by omega)

end Sys2Proof.Machine

/-! SUPPORT. What the host reads at each location of 20_memory.md R51 to R54, and what a host write changes there. -/

namespace Sys2Proof.Machine

variable {s t : State}

/-! ### The value at each location (44_system_host.md R203) -/

theorem regWindow_eq_some_iff {a : Nat} {i : Reg} : regWindow a = some i ↔ a / 64 = i.val := by
  have hi := i.isLt
  simp only [regWindow, Fin.ext_iff, Option.dite_none_right_eq_some, Option.some.injEq]
  exact ⟨fun ⟨_, h⟩ => h, fun h => ⟨by omega, h⟩⟩

/-- Position `k` of window `i` is byte `k` of register `i` (20_memory.md R51). -/
theorem hostRead_reg (s : State) (i : Reg) {k : Nat} (hk : k ≤ 50) :
    hostRead s .reg (64 * i.val + k) = some ((byteAt (getReg s i) k).setWidth 16) := by
  have hpos : (64 * i.val + k) % 64 = k := by omega
  simp only [hostRead, regSpaceRead, hpos, hk, if_true, regWindow_eq i k (by omega), Option.map_some]

/-- Window 8 is `N` (20_memory.md R51). -/
theorem hostRead_modulus (s : State) {k : Nat} (hk : k ≤ 50) :
    hostRead s .reg (0x200 + k) = some ((byteAt s.n k).setWidth 16) := by
  have hpos : (0x200 + k) % 64 = k := by omega
  have hwin : (0x200 + k) / 64 = 8 := by omega
  have hnone : regWindow (0x200 + k) = none := (regWindow_eq_none_iff _).2 hwin.ge
  simp only [hostRead, regSpaceRead, hpos, hk, if_true, hnone, hwin, Option.map_some]

theorem hostRead_ct {a : Nat} (s : State) (ha : a < 410) :
    hostRead s .ct a = some ((memRead s.ct a).setWidth 16) := if_pos ha

theorem hostRead_pt {a : Nat} (ha : a < s.ptLen) : hostRead s .pt a = some ((memRead s.pt a).setWidth 16) := if_pos ha

/-- A read that answers gives the value to the host and does nothing else (44_system_host.md R203). -/
theorem hostReads_of_hostRead {sp : Space} {a : Nat} {x : Word} (h : hostRead s sp a = some x) : HostReads s sp a x :=
  ⟨h, by simp only [hostStep, h, giveHost]⟩

/-- Settles O44: each location answers, by the rule of its space. -/
theorem hostReadReturnsTheLocation : Obligations.HostReadReturnsTheLocation := fun s =>
  ⟨fun i _ hk => hostReads_of_hostRead (hostRead_reg s i hk), fun _ hk => hostReads_of_hostRead (hostRead_modulus s hk),
    hostReads_of_hostRead rfl, hostReads_of_hostRead rfl, hostReads_of_hostRead rfl, hostReads_of_hostRead rfl,
    hostReads_of_hostRead rfl, hostReads_of_hostRead rfl, hostReads_of_hostRead rfl,
    fun _ ha => hostReads_of_hostRead (hostRead_ct s ha), fun _ ha => hostReads_of_hostRead (hostRead_pt ha)⟩

/-! ### The state after a write (44_system_host.md R202) -/

theorem hostWrite_reg (s : State) (i : Reg) {k : Nat} (hk : k ≤ 50) (v : Byte) :
    hostWrite s .reg (64 * i.val + k) v = some (setReg s i (setByteAt (getReg s i) k v)) := by
  have hpos : (64 * i.val + k) % 64 = k := by omega
  simp only [hostWrite, hpos, hk, if_true, regWindow_eq i k (by omega), Option.map_some]

theorem hostWrite_ct {a : Nat} (s : State) (ha : a < 410) (v : Byte) : hostWrite s .ct a v = some (setCt s a v) :=
  if_pos ha

theorem hostWrite_pt {a : Nat} (ha : a < s.ptLen) (v : Byte) : hostWrite s .pt a v = some (setPt s a v) := if_pos ha

theorem hostStep_hwr_next {sp : Space} {a : Nat} {v : Byte} (h : hostWrite s sp a v = some t) :
    hostStep (.hwr sp a v) s = .next t := by
  simp only [hostStep, h]

/-- A write that has a next state is one that the interface accepts. -/
theorem hostWrite_of_hostStep {sp : Space} {a : Nat} {v : Byte} (h : hostStep (.hwr sp a v) s = .next t) :
    hostWrite s sp a v = some t := by
  cases hw : hostWrite s sp a v with
  | none => simp [hostStep, hw] at h
  | some s' => simpa [hostStep, hw] using h

/-! ### Reading after writing -/

theorem hostRead_setReg_same (s : State) (i : Reg) {k : Nat} (hk : k ≤ 50) (v : Byte) :
    hostRead (setReg s i (setByteAt (getReg s i) k v)) .reg (64 * i.val + k) = some (v.setWidth 16) := by
  rw [hostRead_reg _ i hk, getReg_setReg, if_pos rfl, byteAt_setByteAt _ _ _ (by omega) (by omega), if_pos rfl]

/-- Settles O42: in each space the next state is the one of the write rule, which the read rule reads back. -/
theorem hostWriteThenReadReturnsTheByte : Obligations.HostWriteThenReadReturnsTheByte := by
  rintro s sp a v hct hpt (⟨rfl, hwin, hpos⟩ | ⟨rfl, ha⟩ | ⟨rfl, ha⟩)
  · obtain ⟨i, k, hk, rfl⟩ : ∃ (i : Reg) (k : Nat), k ≤ 50 ∧ a = 64 * i.val + k :=
      ⟨⟨a / 64, by omega⟩, a % 64, hpos, (Nat.div_add_mod a 64).symm⟩
    exact ⟨_, hostStep_hwr_next (hostWrite_reg s i hk v), hostRead_setReg_same s i hk v⟩
  · refine ⟨_, hostStep_hwr_next (hostWrite_ct s ha v), ?_⟩
    rw [hostRead_ct _ ha, setCt_ct, memRead_memWrite _ hct, if_pos rfl]
  · refine ⟨_, hostStep_hwr_next (hostWrite_pt ha v), ?_⟩
    rw [hostRead_pt (s := setPt s a v) ha, setPt_pt, memRead_memWrite _ hpt, if_pos rfl]

/-- A byte write in a register leaves every other location of REG (20_memory.md R50, R51). -/
theorem regSpaceRead_setReg_ne {i : Reg} {a b : Nat} (hi : regWindow a = some i) (hpos : a % 64 ≤ 50) (hne : b ≠ a)
    (v : Byte) : regSpaceRead (setReg s i (setByteAt (getReg s i) (a % 64) v)) b = regSpaceRead s b := by
  unfold regSpaceRead
  split
  case isFalse => rfl
  case isTrue hb =>
    cases hj : regWindow b with
    | none => rfl
    | some j =>
      rw [regWindow_eq_some_iff] at hi hj
      by_cases hij : j = i
      · subst hij
        have hk : b % 64 ≠ a % 64 := by omega
        have hbyte : byteAt (setByteAt (getReg s j) (a % 64) v) (b % 64) = byteAt (getReg s j) (b % 64) := by
          rw [byteAt_setByteAt _ _ _ (by omega) (by omega), if_neg hk]
        simp only [getReg_setReg, if_true, hbyte]
      · simp only [getReg_setReg, if_neg hij]

/-- A write of one location leaves the value at every other (20_memory.md R50, R59). -/
theorem hostRead_of_hostWrite_ne {sp sp' : Space} {a b : Nat} {v : Byte} (hct : Memory.wf s.ct = true)
    (hpt : Memory.wf s.pt = true) (h : hostWrite s sp a v = some t) (hne : (sp', b) ≠ (sp, a)) :
    hostRead t sp' b = hostRead s sp' b := by
  have hother : sp' = sp → b ≠ a := fun hsp hb => hne (by rw [hsp, hb])
  rcases hostWrite_cases s t sp a v h with ⟨rfl, hpos, i, hi, rfl⟩ | ⟨rfl, -, rfl⟩ | ⟨rfl, -, rfl⟩
  · cases sp' with
    | reg => rw [hostRead, hostRead, regSpaceRead_setReg_ne hi hpos (hother rfl)]
    | csr | ct | pt => rfl
  · cases sp' with
    | ct => rw [hostRead, hostRead, setCt_ct, memRead_memWrite _ hct, if_neg (hother rfl)]
    | reg | csr | pt => rfl
  · cases sp' with
    | pt => rw [hostRead, hostRead, setPt_pt, setPt_ptLen, memRead_memWrite _ hpt, if_neg (hother rfl)]
    | reg | csr | ct => rfl

/-- A write reaches a register, CT or PT alone, and so neither the hidden state nor the model's own lists
(44_system_host.md R202). -/
theorem hostWrite_keepsHidden {sp : Space} {a : Nat} {v : Byte} (h : hostWrite s sp a v = some t) :
    t.scratch = s.scratch ∧ t.pass = s.pass ∧ KeepsRest s t := by
  rcases hostWrite_cases s t sp a v h with ⟨-, -, i, -, rfl⟩ | ⟨-, -, rfl⟩ | ⟨-, -, rfl⟩ <;>
    exact ⟨rfl, rfl, rfl, rfl, rfl, rfl⟩

/-- Settles O43, by `hostRead_of_hostWrite_ne` and `hostWrite_keepsHidden`. -/
theorem hostWriteChangesOnlyItsByte : Obligations.HostWriteChangesOnlyItsByte := by
  intro s t sp a v hct hpt hstep
  have hw := hostWrite_of_hostStep hstep
  exact ⟨fun _ _ hne => hostRead_of_hostWrite_ne hct hpt hw hne, hostWrite_keepsHidden hw⟩

end Sys2Proof.Machine

/-! SUPPORT. The commands that compute nothing, and the step that runs a decoded command (44_system_host.md R200, R201,
R204). -/

namespace Sys2Proof.Machine

variable {s : State}

/-- A word with a command runs it when the engine has not faulted (30_encoding.md R92). -/
theorem command_of_decode {w : Word} {i : Instr} (hs : s.fault = false) (h : decode w = .ok i) :
    command w s = exec i s := by
  simp only [command, hs, h, Bool.false_eq_true, if_false]

/-- Settles O6: the step presents the word, and its command runs. -/
theorem stepRunsTheDecodedCommand : Obligations.StepRunsTheDecodedCommand := by
  intro s w i rest hport hs hw
  rw [step_of_cmd hport]
  exact command_of_decode hs hw

theorem exec_nop (s : State) : exec .nop s = .next s := rfl

/-- Settles O10: a word is the encoding of its command, and that of `NOP` is 0x0000. -/
theorem nopChangesNothing : Obligations.NopChangesNothing := by
  have hword : encode .nop = 0x0000#16 := by decide
  refine ⟨exec_nop, fun w => ⟨fun h => (encode_of_decode h).symm.trans hword, ?_⟩⟩
  rintro rfl
  rw [← hword]
  exact decode_encode rfl

theorem exec_clrerr (s : State) : exec .clrerr s = .next (clobberScratch (clearErrors s)) := rfl

/-- Settles O39: the next state is the one of `clearErrors`, but for the scratch. -/
theorem clrerrClearsTheErrorFlags : Obligations.ClrerrClearsTheErrorFlags := by
  refine ⟨by decide, fun s => ⟨_, exec_clrerr s, rfl, rfl, rfl, rfl, ?_⟩⟩
  simp [KeepsRegs, KeepsModulus, KeepsRecord, KeepsDecoder, KeepsCt, KeepsPt, KeepsRest]

end Sys2Proof.Machine

/-! SUPPORT. The host sequences of 44_system_host.md R206, each run of writes and each run of reads taken as one. -/

namespace Sys2Proof.Machine

variable {s t : State}

/-! ### Runs of writes (44_system_host.md R202) -/

theorem setReg_getReg (s : State) (i : Reg) : setReg s i (getReg s i) = s := by
  simp [setReg, getReg]

theorem setReg_setReg (s : State) (i : Reg) (X Y : Big) : setReg (setReg s i X) i Y = setReg s i Y := by
  simp [setReg]

/-- `Y` with the bytes of `X` at the listed positions. -/
def withBytesOf (X : Big) (ks : List Nat) (Y : Big) : Big := ks.foldl (fun Z k => setByteAt Z k (byteAt X k)) Y

theorem byteAt_withBytesOf (X Y : Big) {ks : List Nat} (hks : ∀ k ∈ ks, k ≤ 50) {j : Nat} (hj : j ≤ 50) :
    byteAt (withBytesOf X ks Y) j = if j ∈ ks then byteAt X j else byteAt Y j := by
  induction ks generalizing Y with
  | nil => rfl
  | cons k ks ih =>
    obtain ⟨hk, hks⟩ := List.forall_mem_cons.1 hks
    have htail := ih (setByteAt Y k (byteAt X k)) hks
    rw [byteAt_setByteAt _ _ _ (by omega) (by omega)] at htail
    rw [withBytesOf, List.foldl_cons, ← withBytesOf, htail]
    by_cases hjk : j = k
    · simp [hjk]
    · simp [hjk]

/-- All 51 bytes of `X` are `X` (00_scope.md R7). -/
theorem withBytesOf_range (X Y : Big) : withBytesOf X (List.range 51) Y = X := by
  refine eq_of_byteAt_eq _ _ fun j hj => ?_
  rw [byteAt_withBytesOf X Y (fun k hk => by have := List.mem_range.1 hk; omega) (by omega),
    if_pos (List.mem_range.2 hj)]

theorem hostPerform_writeBytes (i : Reg) (X : Big) {ks : List Nat} (hks : ∀ k ∈ ks, k ≤ 50) (ops : List HostOp)
    (s : State) :
    hostPerform (ks.map (fun k => .hwr .reg (64 * i.val + k) (byteAt X k)) ++ ops) s =
      hostPerform ops (setReg s i (withBytesOf X ks (getReg s i))) := by
  induction ks generalizing s with
  | nil => rw [withBytesOf, List.foldl_nil, setReg_getReg]; rfl
  | cons k ks ih =>
    obtain ⟨hk, hks⟩ := List.forall_mem_cons.1 hks
    rw [List.map_cons, List.cons_append, hostPerform_write _ _ _ _ _ _ (hostWrite_reg _ i hk _) rfl]
    have hport (Y : Big) (p : List HostOp) : setPort (setReg (setPort s p) i Y) s.port = setReg s i Y := rfl
    rw [hport, ih hks, getReg_setPort, getReg_setReg, if_pos rfl, setReg_setReg]
    rfl

/-- The 51 writes of a register are one register write (44_system_host.md R206). -/
theorem hostPerform_hostWriteReg (i : Reg) (X : Big) (ops : List HostOp) (s : State) :
    hostPerform (hostWriteReg i X ++ ops) s = hostPerform ops (setReg s i X) := by
  rw [hostWriteReg, hostPerform_writeBytes i X (fun k hk => by have := List.mem_range.1 hk; omega), withBytesOf_range]

/-- `s` with another ciphertext memory. -/
def setCtMemory (s : State) (mem : Memory) : State := { s with ct := mem }

theorem setPort_setCtMemory (s : State) (mem : Memory) (ops : List HostOp) :
    setPort (setCtMemory s mem) ops = { s with ct := mem, port := ops } := rfl

theorem setCtMemory_port (s : State) (mem : Memory) : (setCtMemory s mem).port = s.port := rfl

theorem setCtMemory_ptLen (s : State) (mem : Memory) : (setCtMemory s mem).ptLen = s.ptLen := rfl

/-- The bytes of a list stored one after another, each at the address beside it. -/
def memWriteAll (l : List (Byte × Nat)) (mem : Memory) : Memory := l.foldl (fun mem p => memWrite mem p.2 p.1) mem

theorem hostPerform_writeCt {l : List (Byte × Nat)} (hl : ∀ p ∈ l, p.2 < 410) (ops : List HostOp) (s : State) :
    hostPerform (l.map (fun p => .hwr .ct p.2 p.1) ++ ops) s =
      hostPerform ops (setCtMemory s (memWriteAll l s.ct)) := by
  induction l generalizing s with
  | nil => rfl
  | cons p l ih =>
    obtain ⟨hp, hl⟩ := List.forall_mem_cons.1 hl
    rw [List.map_cons, List.cons_append, hostPerform_write _ _ _ _ _ _ (hostWrite_ct _ hp _) rfl, ih hl]
    rfl

/-! ### Runs of reads (44_system_host.md R203) -/

/-- A read does not depend on the values that the host has. -/
theorem hostRead_giveHost (s : State) (x : Word) (sp : Space) (a : Nat) :
    hostRead (giveHost s x) sp a = hostRead s sp a := by
  cases sp <;> rfl

/-- Reads that all answer give the host their values, in their order. -/
theorem hostPerform_reads {α : Type} {sp : Space} {addr : α → Nat} {x : α → Word} {l : List α}
    (h : ∀ k ∈ l, hostRead s sp (addr k) = some (x k)) :
    hostPerform (l.map fun k => .hrd sp (addr k)) s = .next ((l.map x).foldl giveHost s) := by
  induction l generalizing s with
  | nil => rfl
  | cons k l ih =>
    obtain ⟨hk, hl⟩ := List.forall_mem_cons.1 h
    rw [List.map_cons, hostPerform_read _ _ _ _ _ hk, ih fun j hj => (hostRead_giveHost _ _ _ _).trans (hl j hj),
      List.map_cons, List.foldl_cons]

/-- A run of reads one of which lies outside the interface is refused (20_memory.md R65). -/
theorem hostPerform_reads_refused {sp : Space} {l : List Nat} (h : ∃ a ∈ l, hostRead s sp a = none) :
    ∃ r, hostPerform (l.map fun a => .hrd sp a) s = .refused r := by
  induction l generalizing s with
  | nil => simp at h
  | cons a l ih =>
    rw [List.map_cons]
    cases ha : hostRead s sp a with
    | none =>
      have hnone (p : List HostOp) : hostRead (setPort s p) sp a = none := by cases sp <;> exact ha
      refine ⟨.hostReadOutside sp a, ?_⟩
      simp only [hostPerform_cons, hostStep, hnone]
    | some x =>
      obtain ⟨b, hb, hnone⟩ := h
      rcases List.mem_cons.1 hb with rfl | hb
      · simp [ha] at hnone
      · rw [hostPerform_read _ _ _ _ _ ha]
        exact ih ⟨b, hb, (hostRead_giveHost _ _ _ _).trans hnone⟩

/-- The newest values of the host's list are those given last. -/
theorem lastReads_foldl_giveHost (xs : List Word) (s : State) : lastReads xs.length (xs.foldl giveHost s) = xs := by
  induction xs using List.reverseRecOn with
  | nil => rfl
  | append_singleton xs x ih =>
    rw [List.foldl_append, List.length_append, List.foldl_cons, List.foldl_nil, List.length_singleton,
      lastReads_giveHost, ih]

theorem readsOf_of_perform {ops : List HostOp} {xs : List Word} {k : Nat}
    (h : hostPerform ops s = .next (xs.foldl giveHost t)) (hk : xs.length = k) : readsOf ops k s = some xs := by
  rw [readsOf, h, ← hk]
  exact congrArg some (lastReads_foldl_giveHost xs t)

theorem readsOf_of_refused {ops : List HostOp} {r : Refusal} {k : Nat} (h : hostPerform ops s = .refused r) :
    readsOf ops k s = none := by
  rw [readsOf, h]

theorem hostPerform_hostReadReg (i : Reg) (s : State) :
    hostPerform (hostReadReg i) s =
      .next (((List.range 51).map fun k => (byteAt (getReg s i) k).setWidth 16).foldl giveHost s) :=
  hostPerform_reads fun _ hk => hostRead_reg s i (Nat.le_of_lt_succ (List.mem_range.1 hk))

/-- The low byte of a value that a byte read returned is the byte. -/
theorem map_lowByte_map {α : Type} (f : α → Byte) (l : List α) :
    (l.map fun k => (f k).setWidth 16).map (·.setWidth 8) = l.map f := by
  simp

/-! ### A word between the accesses (44_system_host.md R204) -/

/-- The word `w` takes `s` to `t`, whatever operations the host has pending. -/
def WordLeads (w : Word) (s t : State) : Prop := ∀ p, command w (setPort s p) = .next (setPort t p)

theorem hostPerform_cmd {w : Word} (h : WordLeads w s t) (ops : List HostOp) :
    hostPerform (.cmd w :: ops) s = hostPerform ops (setPort t s.port) :=
  hostPerform_next _ ops s (setPort t (ops ++ s.port)) (h _) rfl

theorem wordLeads_of_fault (w : Word) (hs : s.fault = true) : WordLeads w s s := fun _ => command_of_fault hs

/-- The word of `LDN b0` with a value that `LDN` accepts (41_montgomery.md R121). -/
theorem wordLeads_ldn_of_valid (hs : s.fault = false) (hvalid : modulusInvalid (getReg s 0) = false) :
    WordLeads 0x3000#16 s
      (clobberScratch (setModulus s (getReg s 0) (deriveCoefficient (getReg s 0)))) := fun p =>
  (command_of_decode (s := setPort s p) hs (decode_encode (i := .ldn 0) rfl)).trans (exec_ldn_of_valid hvalid)

/-- The word of `LDN b0` with a value that `LDN` refuses (41_montgomery.md R121). -/
theorem wordLeads_ldn_of_invalid (hs : s.fault = false) (hinvalid : modulusInvalid (getReg s 0) = true) :
    WordLeads 0x3000#16 s (withRecord s .modinv 0x3000#16) := fun p =>
  (command_of_decode (s := setPort s p) hs (decode_encode (i := .ldn 0) rfl)).trans (exec_ldn_of_invalid hinvalid)

/-- The word of `MODEXP b3, b1, b2` with a modulus loaded (41_montgomery.md R129). -/
theorem wordLeads_modexp (hs : s.fault = false) (hmod : s.modv = true) :
    WordLeads 0x6328#16 s
      (clobberScratch (setReg s 3 (modExpWith s.v (getReg s 1) (getReg s 2) s.n))) := fun p =>
  (command_of_decode (s := setPort s p) hs (decode_encode (i := .modexp 3 1 2) rfl)).trans
    (exec_modexp_of_loaded (by decide) (by decide) hmod)

/-! ### `mod_exp` (44_system_host.md R206) -/

section ModExpEntry

variable {msg exp mod : Big} {s1 s2 : State}

/-- The output is what the second word leaves in `b3`. -/
theorem modExpEntry_of_words (h1 : WordLeads 0x3000#16 (setReg s 0 mod) s1)
    (h2 : WordLeads 0x6328#16 (setReg (setReg s1 1 msg) 2 exp) s2) :
    modExpEntry msg exp mod s = some ((List.range 51).map (byteAt (getReg s2 3))) := by
  have h2' : WordLeads 0x6328#16 (setReg (setReg (setPort s1 s.port) 1 msg) 2 exp) s2 := h2
  have hrun : hostPerform (hostModExp msg exp mod) s = hostPerform (hostReadReg 3) (setPort s2 s.port) := by
    simp only [hostModExp, List.append_assoc, List.cons_append, List.nil_append]
    rw [hostPerform_hostWriteReg, hostPerform_cmd h1, setReg_port, hostPerform_hostWriteReg,
      hostPerform_hostWriteReg, hostPerform_cmd h2']
    rfl
  rw [hostPerform_hostReadReg] at hrun
  rw [modExpEntry, readsOf_of_perform hrun (by simp), Option.map_some, map_lowByte_map, getReg_setPort]

/-- A modulus that `LDN` accepts is loaded, and `MODEXP` leaves `mod_exp` in `b3`. -/
theorem modExpEntry_of_valid (hs : s.fault = false) (hvalid : modulusInvalid mod = false) :
    modExpEntry msg exp mod s = some ((List.range 51).map (byteAt (modExp msg exp mod))) := by
  have hreg : getReg (setReg s 0 mod) 0 = mod := by simp
  rw [← hreg] at hvalid
  rw [modExpEntry_of_words (wordLeads_ldn_of_valid hs hvalid) (wordLeads_modexp hs rfl),
    getReg_clobberScratch_setReg_same]
  simp [modExp]

/-- A word of `LDN` that leaves the engine faulted leaves `b3` to be read as it was. -/
theorem modExpEntry_of_faulted (h1 : WordLeads 0x3000#16 (setReg s 0 mod) s1) (hs1 : s1.fault = true)
    (hreg : getReg s1 3 = getReg s 3) :
    modExpEntry msg exp mod s = some ((List.range 51).map (byteAt (getReg s 3))) := by
  rw [modExpEntry_of_words h1 (wordLeads_of_fault _ hs1), ← hreg]
  simp

theorem modulusInvalid_eq_false_iff (X : Big) :
    modulusInvalid X = false ↔ byteAt X 0 < 0x80#8 ∧ X.toNat % 2 = 1 := by
  rw [← Bool.not_eq_true, modulusInvalid_iff, not_or, BitVec.not_le, Nat.mod_two_not_eq_zero]

/-- Settles O59: `LDN` accepts the modulus, or the engine is faulted when the word of `MODEXP` comes. -/
theorem modExpEntryPointReturnsModExp : Obligations.ModExpEntryPointReturnsModExp := by
  intro s msg exp mod
  have hkept : getReg (setReg s 0 mod) 3 = getReg s 3 := by simp
  have hreg : getReg (setReg s 0 mod) 0 = mod := by simp
  refine ⟨fun hs htop hodd => modExpEntry_of_valid hs ((modulusInvalid_eq_false_iff mod).2 ⟨htop, hodd⟩), fun h => ?_⟩
  cases hs : s.fault with
  | true => exact modExpEntry_of_faulted (wordLeads_of_fault (s := setReg s 0 mod) _ hs) hs hkept
  | false =>
    have hinvalid : modulusInvalid mod = true := (modulusInvalid_iff mod).2 (by simpa [hs] using h)
    rw [← hreg] at hinvalid
    exact modExpEntry_of_faulted (wordLeads_ldn_of_invalid hs hinvalid) rfl hkept

end ModExpEntry

end Sys2Proof.Machine

/-! SUPPORT. The host sequence of `lynx_decrypt` (44_system_host.md R206), around the word of `DECRYPT`. -/

namespace Sys2Proof.Machine

variable {s t : State}

/-! ### CT after the writes -/

/-- An address that no entry reaches is not listed. -/
theorem memRead_of_below {size a : Nat} {mem : Memory} (h : Memory.below size mem = true) (ha : size ≤ a) :
    memRead mem a = Config.unlistedByte := by
  rw [below_iff] at h
  induction mem with
  | nil => rfl
  | cons c rest ih =>
    obtain ⟨hc, hrest⟩ := List.forall_mem_cons.1 h
    rw [memRead, if_neg (by omega), ih hrest]

theorem memWriteAll_wf (l : List (Byte × Nat)) {mem : Memory} (h : Memory.wf mem = true) :
    Memory.wf (memWriteAll l mem) = true := by
  induction l generalizing mem with
  | nil => exact h
  | cons p l ih => exact ih (memWrite_wf mem h p.2 p.1)

/-- A list stored from address `n` on reads back at its addresses, and every other byte reads as before. -/
theorem memRead_memWriteAll_zipIdx (l : List Byte) (n : Nat) {mem : Memory} (h : Memory.wf mem = true) (a : Nat) :
    memRead (memWriteAll (l.zipIdx n) mem) a =
      if n ≤ a ∧ a < n + l.length then l.getD (a - n) 0#8 else memRead mem a := by
  induction l generalizing n mem with
  | nil =>
    rw [List.length_nil, if_neg (by omega)]
    rfl
  | cons b l ih =>
    have htail := ih (n + 1) (memWrite_wf mem h n b)
    rw [memRead_memWrite _ h] at htail
    rw [List.zipIdx_cons, memWriteAll, List.foldl_cons, ← memWriteAll, htail, List.length_cons]
    rcases Nat.lt_trichotomy a n with hlt | rfl | hgt
    · rw [if_neg (by omega), if_neg (by omega), if_neg (by omega)]
    · rw [if_neg (by omega), if_pos rfl, if_pos (by omega), Nat.sub_self, List.getD_cons_zero]
    · obtain ⟨j, rfl⟩ : ∃ j, a = n + 1 + j := ⟨a - (n + 1), by omega⟩
      have hj : n + 1 + j - n = j + 1 := by omega
      rw [hj, List.getD_cons_succ, Nat.add_sub_cancel_left, if_neg (by omega : ¬n + 1 + j = n)]
      congr 1
      apply propext
      omega

/-- The 410 writes leave CT the image, whatever it held (20_memory.md R53). -/
theorem memWriteAll_image (enc : Vector Byte 410) {mem : Memory} (hwf : Memory.wf mem = true)
    (hbelow : Memory.below 410 mem = true) :
    memWriteAll enc.toList.zipIdx mem = memOf 410 fun a => enc.toList.getD a 0#8 := by
  obtain ⟨hwf', -, hread⟩ := memOf_spec 410 fun a => enc.toList.getD a 0#8
  refine memory_ext _ _ (memWriteAll_wf _ hwf) hwf' fun a => ?_
  rw [memRead_memWriteAll_zipIdx _ 0 hwf, hread, Vector.length_toList, Nat.zero_add, Nat.sub_zero]
  by_cases ha : a < 410
  · rw [if_pos ⟨Nat.zero_le a, ha⟩, if_pos ha]
  · rw [if_neg (by omega), if_neg ha, memRead_of_below hbelow (by omega)]

/-! ### What every word keeps -/

/-- No command writes `DST`, `PT_LEN` or the host's lists. -/
theorem ExecEnd.keepsRest {i : Instr} (he : ExecEnd i s t) : KeepsRest s t := by
  cases he with
  | secondOutside _ _ _ _ hs1 _ | decrypted _ _ _ _ hs1 _ => subst hs1; simp [KeepsRest]
  | _ => simp [KeepsRest]

theorem command_keepsRest {w : Word} (hlen : s.ptLen ≤ 65535) (h : command w s = .next t) : KeepsRest s t := by
  rcases command_cases w s with ⟨-, hc⟩ | ⟨-, -, hc⟩ | ⟨-, i, -, hc⟩ <;> rw [h] at hc
  · cases hc
    exact ⟨rfl, rfl, rfl, rfl⟩
  · cases hc
    exact ⟨rfl, rfl, rfl, rfl⟩
  · exact (exec_end_of_next i s t hlen hc.symm).keepsRest

/-! ### `STATUS` as the host takes it apart -/

theorem toNat_div_mod_eq_getLsbD (w : Word) (k : Nat) : w.toNat / 2 ^ k % 2 = (w.getLsbD k).toNat := by
  rw [← BitVec.testBit_toNat, Nat.toNat_testBit]

/-- Bit 5 of `STATUS` is `DFAIL` (10_state.md R24). -/
theorem statusFailed_statusWord (s : State) : statusFailed (statusWord s) = (s.estruct || s.epad || s.esum).toNat := by
  obtain ⟨⟨w, hw, -, -, -, -, -, hfail, -⟩, -⟩ := csrsReadTheirRegisters s
  obtain rfl := Option.some.inj hw
  rw [← hfail, ← toNat_div_mod_eq_getLsbD]
  rfl

/-- Bit 6 of `STATUS` is `FAULT` (10_state.md R24). -/
theorem statusFaulted_statusWord (s : State) : statusFaulted (statusWord s) = s.fault.toNat := by
  obtain ⟨⟨w, hw, -, -, -, -, -, -, hfault, -⟩, -⟩ := csrsReadTheirRegisters s
  obtain rfl := Option.some.inj hw
  rw [← hfault, ← toNat_div_mod_eq_getLsbD]
  rfl

/-! ### The sequence -/

/-- The reads of `lynx_decrypt`, at any addresses of PT: `STATUS`, then the bytes. -/
def lynxReads (addrs : List Nat) : List HostOp := .hrd .csr 0 :: addrs.map fun a => .hrd .pt a

/-- Reads that all lie inside PT. -/
theorem hostPerform_lynxReads {addrs : List Nat} (h : ∀ a ∈ addrs, a < t.ptLen) :
    hostPerform (lynxReads addrs) t =
      .next ((statusWord t :: addrs.map fun a => (memRead t.pt a).setWidth 16).foldl giveHost t) := by
  rw [lynxReads, hostPerform_read _ _ (statusWord t) _ _ rfl]
  exact hostPerform_reads fun a ha => hostRead_pt (s := giveHost t _) (h a ha)

/-- A read beyond PT is refused (20_memory.md R65). -/
theorem hostPerform_lynxReads_refused {addrs : List Nat} (h : ∃ a ∈ addrs, t.ptLen ≤ a) :
    ∃ r, hostPerform (lynxReads addrs) t = .refused r := by
  obtain ⟨a, ha, hout⟩ := h
  rw [lynxReads, hostPerform_read _ _ (statusWord t) _ _ rfl]
  exact hostPerform_reads_refused ⟨a, ha, if_neg (Nat.not_lt.2 hout)⟩

theorem hostLynxDecrypt_eq (enc : Vector Byte 410) :
    hostLynxDecrypt enc =
      enc.toList.zipIdx.map (fun p => .hwr .ct p.2 p.1) ++ .cmd 0xD000#16 :: lynxReads (List.range 410) := by
  rw [hostLynxDecrypt, lynxReads, List.append_assoc]
  rfl

theorem hostLynxDecrypt_drop (enc : Vector Byte 410) :
    (hostLynxDecrypt enc).drop 411 = lynxReads (List.range 410) := by
  rw [hostLynxDecrypt_eq, List.append_cons]
  exact List.drop_left' (by simp)

theorem decryptInput_eq (enc : Vector Byte 410) (s : State) :
    decryptInput enc s =
      setPort (setCtMemory s (memOf 410 fun a => enc.toList.getD a 0#8)) (lynxReads (List.range 410) ++ s.port) := by
  rw [decryptInput, hostLynxDecrypt_drop, setPort_setCtMemory]

/-- A word, and then the others, since no word writes what is pending. -/
theorem hostPerform_cmd_next {w : Word} {ops : List HostOp} (hlen : s.ptLen ≤ 65535)
    (h : command w (setPort s (ops ++ s.port)) = .next t) :
    hostPerform (.cmd w :: ops) s = hostPerform ops (setPort t s.port) := by
  obtain ⟨-, -, hport, -⟩ := command_keepsRest (s := setPort s (ops ++ s.port)) hlen h
  exact hostPerform_next _ ops s t h hport

/-- The sequence finds the engine in `decryptInput` when it presents the word, and then reads. -/
theorem hostPerform_lynxDecrypt {enc : Vector Byte 410} (hlen : s.ptLen ≤ 65535) (hwf : Memory.wf s.ct = true)
    (hbelow : Memory.below 410 s.ct = true) (h : command 0xD000#16 (decryptInput enc s) = .next t) :
    hostPerform (hostLynxDecrypt enc) s = hostPerform (lynxReads (List.range 410)) (setPort t s.port) := by
  have haddr : ∀ p ∈ enc.toList.zipIdx, p.2 < 410 := fun p hp => by
    simpa using List.snd_lt_of_mem_zipIdx hp
  rw [decryptInput_eq, ← setCtMemory_port s (memOf 410 fun a => enc.toList.getD a 0#8)] at h
  rw [hostLynxDecrypt_eq, hostPerform_writeCt haddr, memWriteAll_image enc hwf hbelow,
    hostPerform_cmd_next ((setCtMemory_ptLen s _).trans_le hlen) h, setCtMemory_port]

/-- Settles O60: the word has a next state, whose `STATUS` and PT are what the host reads; byte 409 is the one that a
shorter PT has not. -/
theorem lynxDecryptEntryPointReturnsPlainAndFailed : Obligations.LynxDecryptEntryPointReturnsPlainAndFailed := by
  intro s enc hlen hwf hbelow
  have hinput : (decryptInput enc s).ptLen = s.ptLen := by rw [decryptInput_eq, setPort_ptLen, setCtMemory_ptLen]
  obtain ⟨t, ht, -⟩ := command_end 0xD000#16 (decryptInput enc s) (hinput.trans_le hlen)
  obtain ⟨-, hkept, -, -⟩ := command_keepsRest (hinput.trans_le hlen) ht
  have hptLen : (setPort t s.port).ptLen = s.ptLen := hkept.trans hinput
  have hrun := hostPerform_lynxDecrypt hlen hwf hbelow ht
  constructor
  · intro hfits
    rw [hostPerform_lynxReads fun a ha => (List.mem_range.1 ha).trans_le (hfits.trans_eq hptLen.symm)] at hrun
    refine ⟨t, ht, ?_⟩
    have hcount : (statusWord (setPort t s.port) :: (List.range 410).map fun a =>
        (memRead (setPort t s.port).pt a).setWidth 16).length = 411 := by
      rw [List.length_cons, List.length_map, List.length_range]
    rw [lynxDecryptEntry, readsOf_of_perform hrun hcount, Option.bind_some, lynxOutput, map_lowByte_map,
      statusFailed_statusWord, statusFaulted_statusWord]
    simp only [setPort_estruct, setPort_epad, setPort_esum, setPort_fault, setPort_pt]
  · intro hshort
    have hout : (setPort t s.port).ptLen ≤ 409 := hptLen.trans_le (Nat.le_of_lt_succ hshort)
    have hlast : 409 < 410 := by decide
    obtain ⟨r, hr⟩ := hostPerform_lynxReads_refused ⟨409, List.mem_range.2 hlast, hout⟩
    rw [lynxDecryptEntry, readsOf_of_refused (hrun.trans hr), Option.bind_none]

end Sys2Proof.Machine

/-! SUPPORT. The step with no host operation pending (60_exceptions.md R229). -/

namespace Sys2Proof.Machine

/-- Settles O8: of the two cases of a step, the one that takes a host operation has one pending. -/
theorem idleStepChangesNothing : Obligations.IdleStepChangesNothing := by
  intro s hidle
  rcases nextHostOp_cases s with ⟨-, hstep⟩ | ⟨op, rest, hport, -⟩
  · exact hstep
  · exact nomatch hidle.symm.trans hport

end Sys2Proof.Machine
